-- ==== Sys2Proof/Word.lean ====
section
/-! DEFINITION. The words the block moves: R51 (every transfer is one 32-bit word), R90 (the codec's
64-bit word), R34 and R66 (the 8-bit opcode field). -/

namespace Sys2Proof

/-- One 32-bit word of a queue, of STATUS, or of an operand or result (R51). -/
abbrev Word := BitVec 32

/-- The 64-bit word of the bit-field codec (R90; CODEC_W of R5). -/
abbrev DWord := BitVec 64

/-- The 8-bit opcode field OPC, bits 7:0 of a command word (R66). -/
abbrev OpcByte := BitVec 8

end Sys2Proof
end

