-- ==== Sys2Proof/Machine/Binary32.lean ====
section
/-! DEFINITION. Real values (R10 to R16): binary32 words, one rounding per operator with ties to even, gradual underflow, and
overflow to infinity. Every finite binary32 value is a multiple of 2^−149, so a finite word denotes the integer `scaled u` in
units of 2^−149 and all arithmetic below is exact integer arithmetic followed by one rounding.
The layout and the rounding rule stand in R10 to R12; the spec takes them from general knowledge (93_implementation_defined.md G1 to G3). -/

namespace Sys2Proof.Machine.Binary32

/-- Bit 31 of a binary32 word: set for a negative value (R10). -/
def signBit (u : Word) : Bool := u.getLsbD 31

/-- Bits 30:23, the biased exponent (R10). -/
def expField (u : Word) : Nat := (u.extractLsb' 23 8).toNat

/-- Bits 22:0, the fraction (R10). -/
def fracField (u : Word) : Nat := (u.extractLsb' 0 23).toNat

/-- "A value is finite unless its exponent field is 0xFF" (R10). -/
def isFinite (u : Word) : Bool := expField u != 0xFF

/-- `|F(u)| · 2^149` of a finite word: the fraction alone when the exponent field is 0 (a subnormal or zero), else the
fraction with its leading 1, shifted by the exponent. -/
def magnitude (u : Word) : Nat :=
  if expField u = 0 then fracField u else (2 ^ 23 + fracField u) * 2 ^ (expField u - 1)

/-- `F(u) · 2^149` of a finite word, an integer. -/
def scaled (u : Word) : Int := if signBit u then -(magnitude u : Int) else magnitude u

/-- `F(u)`, the value of a finite word (R10). -/
def toRat (u : Word) : ℚ := (scaled u : ℚ) / 2 ^ 149

/-- The word of magnitude bits `m` (bits 30:0) with the given sign. -/
def ofBits (neg : Bool) (m : Nat) : Word := BitVec.ofNat 32 ((if neg then 2 ^ 31 else 0) + m)

/-- Bits 30:0 of ±∞ (R10). -/
def infBits : Nat := 0x7F800000

/-- The integer nearest `num / den`, ties to the even one (R11), for `den > 0`. -/
def nearestEven (num den : Nat) : Nat :=
  let q := num / den
  let r := num % den
  if 2 * r < den ∨ (2 * r = den ∧ q % 2 = 0) then q else q + 1

/-- Which power of two spaces the binary32 values around `num / den` (in units of 2^−149): 0 in the subnormal and the
lowest normal binade, and one more in each binade above. -/
def ulpExp (num den : Nat) : Nat := Nat.log2 (num / den) - 23

/-- Bits 30:0 of the binary32 value nearest `num / den` (in units of 2^−149), before overflow is considered. The nearest
multiple of the spacing, counted in spacings and added to the bits of its binade, is the word: a carry out of the fraction
goes into the exponent field. -/
def nearestBits (num den : Nat) : Nat :=
  ulpExp num den * 2 ^ 23 + nearestEven num (den * 2 ^ ulpExp num den)

/-- `fl(±num/den)` in units of 2^−149 (R11): the nearest binary32 value, ties to the even fraction, a value beyond the
largest finite one to ±∞. `den > 0`. -/
def fl (neg : Bool) (num den : Nat) : Word := ofBits neg (min (nearestBits num den) infBits)

/-- `fl(q)` of an exact rational `q` (R11); `fl(0)` is +0. -/
def flRat (q : ℚ) : Word := fl (decide (q < 0)) (q * 2 ^ 149).num.natAbs (q * 2 ^ 149).den

/-- The word of `−F(u)`; negation is exact. -/
def negate (u : Word) : Word := u ^^^ 0x80000000

/-- `fl(x + y)`. The sign of an exact zero sum is the IEEE 754 one: +0, except that (−0) + (−0) = −0 (R12). -/
def addRaw (x y : Word) : Word :=
  let z := scaled x + scaled y
  if z = 0 then ofBits (signBit x && signBit y) 0 else fl (z < 0) z.natAbs 1

/-- `fl(x − y)`, the sum with the negated operand (R12; the sign of (−0) − (+0) is log entry 6). -/
def subRaw (x y : Word) : Word := addRaw x (negate y)

/-- `fl(x × y)`; a zero product has the exclusive-or of the signs (R12). -/
def mulRaw (x y : Word) : Word := fl (signBit x != signBit y) (magnitude x * magnitude y) (2 ^ 149)

/-- `fl(x / y)`; a zero quotient has the exclusive-or of the signs (R12). No command divides by zero (its divisors are dn ≥ 1,
4, AL, QL and QM); the quotient by zero is given as infinity, which `chk` turns into NON_FINITE (log entry 7). -/
def divRaw (x y : Word) : Word :=
  if magnitude y = 0 then ofBits (signBit x != signBit y) infBits
  else fl (signBit x != signBit y) (magnitude x * 2 ^ 149) (magnitude y)

/-- `cvt(n) = fl(n)` of an integer (R13). -/
def cvt (n : Int) : Word := fl (n < 0) (n.natAbs * 2 ^ 149) 1

/-- `F(x) < F(y)` for finite words: −0 = +0 (R15). -/
def lt (x y : Word) : Bool := scaled x < scaled y

/-- `clamp(x, lo, hi)` of R15; a value inside the range, −0 included, passes through unchanged. -/
def clamp (x lo hi : Word) : Word := if lt x lo then lo else if lt hi x then hi else x

/-- `rha(x) = sign(x) × ⌊|x| + 1/2⌋`, computed exactly (R16). -/
def rha (x : Word) : Int :=
  let n : Int := ((2 * magnitude x + 2 ^ 149) / 2 ^ 150 : Nat)
  if signBit x then -n else n

/-- The binary32 constant +0. -/
def zero : Word := 0x00000000

/-- The binary32 constant 1 (ONE of R136). -/
def one : Word := 0x3F800000

/-- The binary32 constant 0.5 (R111). -/
def half : Word := 0x3F000000

/-- The binary32 constant −0.5 (R111). -/
def negHalf : Word := 0xBF000000

/-- The binary32 constant 4 (R127). -/
def four : Word := 0x40800000

end Sys2Proof.Machine.Binary32
end

