-- ==== Sys2Proof/Syntax.lean ====
section
/-! DEFINITION. The commands of the block: one constructor of `Instr` per row of R70 and of spec/opcode_table.json.
An instruction is a WHOLE command (R65): the immediates of its command word and its operand words, in the order of R70. -/

namespace Sys2Proof

/-- The 18 opcodes of R70, in the table's order. -/
inductive Opcode where
  | fitsu | fitss | getu | gets | newu | news
  | rgb2ypp | ypp2rgb
  | dctf | dcti
  | quant | dequant | chridx | chrval
  | pack | unpack | serbe | deserbe
deriving DecidableEq, Repr

/-- The three command word formats of R66. -/
inductive Format where
  /-- No field. -/
  | n
  /-- WIDTH in bits 14:8. -/
  | w
  /-- WIDTH in bits 14:8 and LSB in bits 21:15. -/
  | f
deriving DecidableEq, Repr

/-- Pixel (RGB) of the glossary: three U32 operand words (R110). -/
structure RgbPixel where
  r : Word
  g : Word
  b : Word
deriving DecidableEq, Repr

/-- Pixel (YPbPr) of the glossary: three F32 words (R110, R125). -/
structure YppPixel where
  y : Word
  pb : Word
  pr : Word
deriving DecidableEq, Repr

/-- Transform Block of the glossary: six F32 words in the order of R125. -/
structure TransformBlock where
  a : Word
  b : Word
  c : Word
  d : Word
  avgPb : Word
  avgPr : Word
deriving DecidableEq, Repr

/-- The six operand words of a Quantized Block: `qa`, `qpb`, `qpr` U32 and `qb`, `qc`, `qd` S32 patterns (R68, R70). -/
structure QuantBlock where
  qa : Word
  qb : Word
  qc : Word
  qd : Word
  qpb : Word
  qpr : Word
deriving DecidableEq, Repr

/-- A command: the immediates WIDTH and LSB as the numbers they encode (R67), a U64 or S64 operand as its 64-bit pattern
(R53, R68), every other operand as its word. -/
inductive Instr where
  /-- 0x10: is `n` representable in `width` bits, unsigned (R91). -/
  | fitsu (width : Nat) (n : DWord)
  /-- 0x11: is `n` representable in `width` bits, signed (R92). -/
  | fitss (width : Nat) (n : DWord)
  /-- 0x12: extract an unsigned field (R93). -/
  | getu (width lsb : Nat) (word : DWord)
  /-- 0x13: extract a signed field (R94). -/
  | gets (width lsb : Nat) (word : DWord)
  /-- 0x14: replace a field with an unsigned value (R95). -/
  | newu (width lsb : Nat) (word value : DWord)
  /-- 0x15: replace a field with a signed value (R96). -/
  | news (width lsb : Nat) (word value : DWord)
  /-- 0x20: one RGB pixel to YPbPr (R112). -/
  | rgb2ypp (p : RgbPixel) (den : Word)
  /-- 0x21: one YPbPr pixel to RGB (R114). -/
  | ypp2rgb (p : YppPixel) (den : Word)
  /-- 0x30: forward transform of a tile, its pixels 1 to 4 (R127). -/
  | dctf (p1 p2 p3 p4 : YppPixel)
  /-- 0x31: inverse transform of a block (R129). -/
  | dcti (t : TransformBlock)
  /-- 0x40: quantize a block (R137). -/
  | quant (t : TransformBlock)
  /-- 0x41: dequantize a block (R140). -/
  | dequant (q : QuantBlock)
  /-- 0x42: chroma value to index (R142). -/
  | chridx (x : Word)
  /-- 0x43: chroma index to value (R143). -/
  | chrval (index : Word)
  /-- 0x50: pack a quantized block into a code word (R161). -/
  | pack (q : QuantBlock)
  /-- 0x51: unpack a code word (R162). -/
  | unpack (word : Word)
  /-- 0x52: split a code word into bytes, most significant first (R164). -/
  | serbe (word : Word)
  /-- 0x53: join four bytes, most significant first (R165). -/
  | deserbe (b0 b1 b2 b3 : Word)
deriving DecidableEq, Repr

/-- The row of R70 an instruction belongs to. -/
def Instr.opcode : Instr → Opcode
  | .fitsu _ _ => .fitsu
  | .fitss _ _ => .fitss
  | .getu _ _ _ => .getu
  | .gets _ _ _ => .gets
  | .newu _ _ _ _ => .newu
  | .news _ _ _ _ => .news
  | .rgb2ypp _ _ => .rgb2ypp
  | .ypp2rgb _ _ => .ypp2rgb
  | .dctf _ _ _ _ => .dctf
  | .dcti _ => .dcti
  | .quant _ => .quant
  | .dequant _ => .dequant
  | .chridx _ => .chridx
  | .chrval _ => .chrval
  | .pack _ => .pack
  | .unpack _ => .unpack
  | .serbe _ => .serbe
  | .deserbe _ _ _ _ => .deserbe

end Sys2Proof
end

