-- ==== Sys2Proof/WellFormed.lean ====
section
/-! DEFINITION. Which terms of `Instr` a command word can carry: WIDTH and LSB are 7-bit fields, each 0 … 127 as encoded
(R66, R67). The narrower legal range (`width ≤ 64`, `width + lsb ≤ 64`) is checked by the command's own rule and not
here: "checked by the command's rule, not by the decoder" (R66). -/

namespace Sys2Proof

/-- A 7-bit immediate (R67). -/
def immediateOk (v : Nat) : Bool := v < 128

/-- Every immediate of the instruction fits the field that encodes it (R66, R67). -/
def Instr.wellFormed : Instr → Bool
  | .fitsu width _ => immediateOk width
  | .fitss width _ => immediateOk width
  | .getu width lsb _ => immediateOk width && immediateOk lsb
  | .gets width lsb _ => immediateOk width && immediateOk lsb
  | .newu width lsb _ _ => immediateOk width && immediateOk lsb
  | .news width lsb _ _ => immediateOk width && immediateOk lsb
  | .rgb2ypp _ _ => true
  | .ypp2rgb _ _ => true
  | .dctf _ _ _ _ => true
  | .dcti _ => true
  | .quant _ => true
  | .dequant _ => true
  | .chridx _ => true
  | .chrval _ => true
  | .pack _ => true
  | .unpack _ => true
  | .serbe _ => true
  | .deserbe _ _ _ _ => true

end Sys2Proof
end

