-- ==== Sys2Proof/Decode.lean ====
section
/-! DEFINITION. The opcode map (R70), the decoder of a command from the words at the head of INQ (R65 to R73), and the
encoder, written from the same rules. -/

namespace Sys2Proof

/-- The 18 opcodes, in the order of R70. -/
def Opcode.all : List Opcode :=
  [.fitsu, .fitss, .getu, .gets, .newu, .news, .rgb2ypp, .ypp2rgb, .dctf, .dcti,
   .quant, .dequant, .chridx, .chrval, .pack, .unpack, .serbe, .deserbe]

/-- Column OPC of R70. -/
def Opcode.code : Opcode → OpcByte
  | .fitsu => 0x10
  | .fitss => 0x11
  | .getu => 0x12
  | .gets => 0x13
  | .newu => 0x14
  | .news => 0x15
  | .rgb2ypp => 0x20
  | .ypp2rgb => 0x21
  | .dctf => 0x30
  | .dcti => 0x31
  | .quant => 0x40
  | .dequant => 0x41
  | .chridx => 0x42
  | .chrval => 0x43
  | .pack => 0x50
  | .unpack => 0x51
  | .serbe => 0x52
  | .deserbe => 0x53

/-- Column fmt of R70. -/
def Opcode.format : Opcode → Format
  | .fitsu | .fitss => .w
  | .getu | .gets | .newu | .news => .f
  | .rgb2ypp | .ypp2rgb | .dctf | .dcti | .quant | .dequant | .chridx | .chrval
  | .pack | .unpack | .serbe | .deserbe => .n

/-- Column N_in of R70: how many operand words follow the command word. -/
def Opcode.nIn : Opcode → Nat
  | .fitsu | .fitss | .getu | .gets => 2
  | .newu | .news | .rgb2ypp | .ypp2rgb | .deserbe => 4
  | .dctf => 12
  | .dcti | .quant | .dequant | .pack => 6
  | .chridx | .chrval | .unpack | .serbe => 1

/-- Column N_out of R70: how many result words an OK response has. -/
def Opcode.nOut : Opcode → Nat
  | .fitsu | .fitss | .chridx | .chrval | .pack | .deserbe => 1
  | .getu | .gets | .newu | .news => 2
  | .rgb2ypp | .ypp2rgb => 3
  | .serbe => 4
  | .dctf | .quant | .dequant | .unpack => 6
  | .dcti => 12

/-- The opcode an OPC byte names, if any: the 238 other values are illegal (R73). -/
def Opcode.ofCode (b : OpcByte) : Option Opcode := Opcode.all.find? (fun op => op.code == b)

/-- RESMASK(fmt) of R66: the bits of the command word that must be 0. -/
def Format.reservedMask : Format → Word
  | .n => 0xFFFFFF00
  | .w => 0xFFFF8000
  | .f => 0xFFC00000

/-- OPC, bits 7:0 of a command word (R66). -/
def opcField (cmd : Word) : OpcByte := cmd.extractLsb' 0 8

/-- WIDTH, bits 14:8, read as an unsigned number 0 … 127 (R66, R67). -/
def widthField (cmd : Word) : Nat := (cmd.extractLsb' 8 7).toNat

/-- LSB, bits 21:15, read as an unsigned number 0 … 127 (R66, R67). -/
def lsbField (cmd : Word) : Nat := (cmd.extractLsb' 15 7).toNat

/-- A 64-bit operand from its two words, high word first (R53). -/
def join64 (hi lo : Word) : DWord := (hi.setWidth 64 <<< 32) ||| lo.setWidth 64

/-- `v[63:32]`, the first word of a 64-bit value (R53). -/
def hiWord (v : DWord) : Word := v.extractLsb' 32 32

/-- `v[31:0]`, the second word of a 64-bit value (R53). -/
def loWord (v : DWord) : Word := v.extractLsb' 0 32

/-- Why the words at the head of INQ are not a whole command. -/
inductive DecodeError where
  /-- There is no command word. -/
  | noWord
  /-- Bits 7:0 name no opcode of R70: ILLEGAL_OPCODE (R73). -/
  | illegalOpcode (opc : OpcByte)
  /-- A reserved bit of the command word's format is 1: RESERVED_BITS (R72). -/
  | reservedBits (opc : OpcByte)
  /-- Fewer than N_in operand words follow: the command waits (R80). -/
  | missingOperands (op : Opcode)
deriving DecidableEq, Repr

/-- The instruction of opcode `op` with the immediates `width` and `lsb` and the operand words `o 0 … o (N_in − 1)`, the
`op[0 .. N_in−1]` of R80, in the order of R70. -/
def buildInstr (op : Opcode) (width lsb : Nat) (o : Nat → Word) : Instr :=
  match op with
  | .fitsu => .fitsu width (join64 (o 0) (o 1))
  | .fitss => .fitss width (join64 (o 0) (o 1))
  | .getu => .getu width lsb (join64 (o 0) (o 1))
  | .gets => .gets width lsb (join64 (o 0) (o 1))
  | .newu => .newu width lsb (join64 (o 0) (o 1)) (join64 (o 2) (o 3))
  | .news => .news width lsb (join64 (o 0) (o 1)) (join64 (o 2) (o 3))
  | .rgb2ypp => .rgb2ypp ⟨o 0, o 1, o 2⟩ (o 3)
  | .ypp2rgb => .ypp2rgb ⟨o 0, o 1, o 2⟩ (o 3)
  | .dctf => .dctf ⟨o 0, o 1, o 2⟩ ⟨o 3, o 4, o 5⟩ ⟨o 6, o 7, o 8⟩ ⟨o 9, o 10, o 11⟩
  | .dcti => .dcti ⟨o 0, o 1, o 2, o 3, o 4, o 5⟩
  | .quant => .quant ⟨o 0, o 1, o 2, o 3, o 4, o 5⟩
  | .dequant => .dequant ⟨o 0, o 1, o 2, o 3, o 4, o 5⟩
  | .chridx => .chridx (o 0)
  | .chrval => .chrval (o 0)
  | .pack => .pack ⟨o 0, o 1, o 2, o 3, o 4, o 5⟩
  | .unpack => .unpack (o 0)
  | .serbe => .serbe (o 0)
  | .deserbe => .deserbe (o 0) (o 1) (o 2) (o 3)

/-- The operands of `op`, taken from the words after the command word, with the words after them; `none` when there are fewer
than N_in of them (R80). -/
def decodeOperands (op : Opcode) (width lsb : Nat) (ws : List Word) : Option (Instr × List Word) :=
  if ws.length < op.nIn then none
  else some (buildInstr op width lsb (fun k => ws.getD k 0), ws.drop op.nIn)

/-- The command at the head of a word sequence, with the words after it. The checks come in the order of R80: opcode,
reserved bits, then operands. -/
def decode (ws : List Word) : Except DecodeError (Instr × List Word) :=
  match ws with
  | [] => .error .noWord
  | cmd :: rest =>
    match Opcode.ofCode (opcField cmd) with
    | none => .error (.illegalOpcode (opcField cmd))
    | some op =>
      if cmd &&& op.format.reservedMask = 0#32 then
        match decodeOperands op (widthField cmd) (lsbField cmd) rest with
        | none => .error (.missingOperands op)
        | some r => .ok r
      else .error (.reservedBits (opcField cmd))

/-- The command word with the given immediates (R66); format N has none, format W no LSB. -/
def commandWord (op : Opcode) (width lsb : Nat) : Word :=
  BitVec.ofNat 32 (op.code.toNat + width * 2 ^ 8 + lsb * 2 ^ 15)

/-- The operand words of a 64-bit value, high word first (R53). -/
def words64 (v : DWord) : List Word := [hiWord v, loWord v]

/-- The words of a pixel in the order of R125. -/
def YppPixel.words (p : YppPixel) : List Word := [p.y, p.pb, p.pr]

/-- The words of a transform block in the order of R125. -/
def TransformBlock.words (t : TransformBlock) : List Word := [t.a, t.b, t.c, t.d, t.avgPb, t.avgPr]

/-- The operand words of a quantized block in the order of R70. -/
def QuantBlock.words (q : QuantBlock) : List Word := [q.qa, q.qb, q.qc, q.qd, q.qpb, q.qpr]

/-- The words of a command as the host pushes them: the command word, then the operand words in the order of R70. -/
def encode : Instr → List Word
  | .fitsu width n => commandWord .fitsu width 0 :: words64 n
  | .fitss width n => commandWord .fitss width 0 :: words64 n
  | .getu width lsb word => commandWord .getu width lsb :: words64 word
  | .gets width lsb word => commandWord .gets width lsb :: words64 word
  | .newu width lsb word value => commandWord .newu width lsb :: (words64 word ++ words64 value)
  | .news width lsb word value => commandWord .news width lsb :: (words64 word ++ words64 value)
  | .rgb2ypp p den => [commandWord .rgb2ypp 0 0, p.r, p.g, p.b, den]
  | .ypp2rgb p den => commandWord .ypp2rgb 0 0 :: (p.words ++ [den])
  | .dctf p1 p2 p3 p4 => commandWord .dctf 0 0 :: (p1.words ++ p2.words ++ p3.words ++ p4.words)
  | .dcti t => commandWord .dcti 0 0 :: t.words
  | .quant t => commandWord .quant 0 0 :: t.words
  | .dequant q => commandWord .dequant 0 0 :: q.words
  | .chridx x => [commandWord .chridx 0 0, x]
  | .chrval index => [commandWord .chrval 0 0, index]
  | .pack q => commandWord .pack 0 0 :: q.words
  | .unpack word => [commandWord .unpack 0 0, word]
  | .serbe word => [commandWord .serbe 0 0, word]
  | .deserbe b0 b1 b2 b3 => [commandWord .deserbe 0 0, b0, b1, b2, b3]

/-- The longest command, DCTF, in words (R201). -/
def longestCommand : Nat := 13

/-- The words of a numbered table word: word `k` is bits `32k+31 … 32k` of `w`, every bit at or above `nbits` is 0, and
words of zeros follow up to the longest command. -/
def tableWords (nbits w : Nat) : List Word :=
  (List.range longestCommand).map (fun k => BitVec.ofNat 32 (w % 2 ^ nbits / 2 ^ (32 * k)))

/-- The instruction the decoder reads from a word of spec/opcode_table.json, numbered as that table numbers it. -/
def decodeTableWord (nbits w : Nat) : Option Instr :=
  match decode (tableWords nbits w) with
  | .ok (i, _) => some i
  | .error _ => none

end Sys2Proof
end

