-- ==== Sys2Proof/Machine/Flags.lean ====
section
/-! DEFINITION. What reports an outcome. The block has no flags (R33); a command's outcome is told by the status word of its
response (R75) and, after a fatal fault, by the STATUS register (R34). -/

namespace Sys2Proof.Machine

/-- The fatal causes of R171. -/
inductive Cause where
  | illegalOpcode
  | reservedBits
  | fieldRange
  | denominator
  | sampleRange
  | nonFinite
  | lumaRange
  | codeRange
deriving DecidableEq, Repr

/-- The CAUSE code of a fatal cause, 2 … 9 (R171). -/
def Cause.code : Cause → BitVec 4
  | .illegalOpcode => 2
  | .reservedBits => 3
  | .fieldRange => 4
  | .denominator => 5
  | .sampleRange => 6
  | .nonFinite => 7
  | .lumaRange => 8
  | .codeRange => 9

/-- How a command ends without results: `raise c` or `overflow(f)` (R9). -/
inductive Stop where
  /-- `raise c`: the fatal fault of cause `c` (R170). -/
  | fault (c : Cause)
  /-- `overflow(f)`: the non-fatal Overflow outcome for field index `f` (R176), 0 … 5 (R160). -/
  | overflow (field : Fin 6)
deriving DecidableEq, Repr

/-- What `EXEC_m` of R80 returns: its result words (`OK(res)`), or how it stopped. -/
abbrev Answer := Except Stop (List Word)

/-- `raise c` (R9). -/
def raise {α : Type} (c : Cause) : Except Stop α := .error (.fault c)

/-- `overflow(f)` (R9). -/
def overflow {α : Type} (f : Fin 6) : Except Stop α := .error (.overflow f)

/-- RESULT 0 of R75. -/
def resultOk : BitVec 4 := 0

/-- RESULT 1 of R75. -/
def resultOverflow : BitVec 4 := 1

/-- RESULT 2 of R75. -/
def resultFault : BitVec 4 := 2

/-- CAUSE 1, OVERFLOW, of R171. -/
def causeOverflow : BitVec 4 := 1

/-- `SW(result, cause, opc, field) = (field << 16) | (opc << 8) | (cause << 4) | result` (R75). -/
def statusWord (result cause : BitVec 4) (opc : OpcByte) (field : BitVec 3) : Word :=
  (field.setWidth 32 <<< 16) ||| (opc.setWidth 32 <<< 8) ||| (cause.setWidth 32 <<< 4) ||| result.setWidth 32

/-- The value a fatal fault writes into STATUS: `(opc << 8) | (cause << 4) | 1` (R170). -/
def faultStatus (opc : OpcByte) (c : Cause) : Word :=
  (opc.setWidth 32 <<< 8) ||| (c.code.setWidth 32 <<< 4) ||| 1

/-- HALT, bit 0 of STATUS (R34). -/
def statusHalt (status : Word) : Bool := status.getLsbD 0

/-- CAUSE, bits 7:4 of STATUS (R34). -/
def statusCause (status : Word) : BitVec 4 := status.extractLsb' 4 4

/-- OPC, bits 15:8 of STATUS (R34). -/
def statusOpc (status : Word) : OpcByte := status.extractLsb' 8 8

/-- The reserved bits 3:1 and 31:16 of STATUS, all of which read 0 (R36). -/
def statusReserved (status : Word) : Word := status &&& 0xFFFF000E

end Sys2Proof.Machine
end

