-- ==== Sys2Proof/Machine/Operands.lean ====
section
/-! DEFINITION. Operand and result word types (R68, R69) and the bit-field functions of the codec on exact integers
(R8, R90 to R96), which the codec commands, PACK, UNPACK, SERBE and DESERBE share. -/

namespace Sys2Proof.Machine

/-- `U_32(n)`: the 32-bit two's-complement pattern of an integer (R8), the result word of type U32 or S32 (R69). -/
def u32 (n : Int) : Word := BitVec.ofInt 32 n

/-- `U_64(n)`: the 64-bit two's-complement pattern of an integer (R8, R69). -/
def u64 (n : Int) : DWord := BitVec.ofInt 64 n

/-- `S_32(u)`: a 32-bit pattern read as a two's-complement integer (R8), an operand of type S32 (R68). -/
def s32 (u : Word) : Int := u.toInt

/-- `S_64(u)`: a 64-bit pattern read as a two's-complement integer (R8), an operand of type S64 (R68). -/
def s64 (u : DWord) : Int := u.toInt

/-- A result word of type BOOL: 0 or 1 (R68, R69). -/
def boolWord (b : Bool) : Word := if b then 1 else 0

/-- `zext_64(w)` (R8). -/
def zext64 (w : Word) : DWord := w.setWidth 64

/-- `mask(w, l) = (2^w − 1) × 2^l`, computed exactly (R90). -/
def fieldMask (width lsb : Nat) : Nat := (2 ^ width - 1) * 2 ^ lsb

/-- `0 ≤ n ≤ 2^w − 1` (R91). -/
def fitsUnsigned (n width : Nat) : Bool := n ≤ 2 ^ width - 1

/-- `−2^(w−1) ≤ n ≤ 2^(w−1) − 1` with exact rational bounds (R92, D16), both sides doubled: at `w = 0` the bounds are −1/2 and
−1/2 and no integer fits. -/
def fitsSigned (n : Int) (width : Nat) : Bool := -(2 ^ width : Int) ≤ 2 * n ∧ 2 * n ≤ (2 ^ width : Int) - 2

/-- `⌊word / 2^l⌋ mod 2^w` (R93). -/
def getUnsigned (word : DWord) (width lsb : Nat) : Nat := word.toNat / 2 ^ lsb % 2 ^ width

/-- The field read in two's complement, bit `w−1` of it the sign; 0 when `w = 0` (R94). -/
def getSigned (word : DWord) (width lsb : Nat) : Int :=
  if width = 0 then 0
  else
    let u := getUnsigned word width lsb
    if 2 ^ (width - 1) ≤ u then (u : Int) - 2 ^ width else u

/-- `(word AND NOT mask(w, l)) OR (bits × 2^l)` (R95, R96), for `bits < 2^w`. -/
def setField (word : DWord) (width lsb bits : Nat) : DWord :=
  (word &&& ~~~(BitVec.ofNat 64 (fieldMask width lsb))) ||| BitVec.ofNat 64 (bits * 2 ^ lsb)

end Sys2Proof.Machine
end

