-- ==== Sys2Proof/Config.lean ====
section
/-! DEFINITION. What is fixed when the hardware is built: the widths of R5, and the OPEN parameters of R6
as constants of which nothing is known (CHROMA_LUT, IN_CAP, OUT_CAP; log entries 2 and 3). -/

namespace Sys2Proof.Config

/-- WA of R5: width of field a, unsigned. -/
def widthA : Nat := 9

/-- WB, WC, WD of R5: width of the fields b, c and d, signed. -/
def widthBCD : Nat := 5

/-- WPB, WPR of R5: width of the fields avgPb and avgPr, unsigned. -/
def widthChroma : Nat := 4

/-- BYTE_W of R5: width of a serialized byte. -/
def byteWidth : Nat := 8

/-- The width whose level count the differences b, c, d are quantized with (R135: `L(4) = 15`). -/
def quantWidthBCD : Nat := 4

/-- `L(w) = 2^w − 1`, the number of levels of a field of `w` bits (R135, conflict C1). -/
def levels (w : Nat) : Nat := 2 ^ w - 1

/-- DEN_MAX of R6: the largest legal denominator (R110). -/
def denMax : Nat := 65535

/-- The least capacity either queue may have, in words (R6, R201). -/
def minCapacity : Nat := 13

/-- The 16 words the table CHROMA_LUT was built with, before the constraints of R146 are imposed: OPEN (R6, R39, D14),
so nothing is known of them. `Machine.chromaLut` is the table that IOC and COI read (log entry 2). -/
opaque chromaRaw : Fin 16 → Word

/-- IN_CAP beyond its least value 13: `none` is an unbounded queue, the default of D3; `some e` is a capacity of `13 + e`
words. OPEN (R6, D3; log entry 3). -/
opaque inCapExtra : Option Nat

/-- OUT_CAP beyond its least value 13, in the form of `inCapExtra`. OPEN (R6, D3; log entry 3). -/
opaque outCapExtra : Option Nat

end Sys2Proof.Config
end

