-- ==== Sys2Proof/Machine/State.lean ====
section
/-! DEFINITION. The architectural state `(MODE, STATUS, INQ, OUTQ)` of R31, which is all the state the block has (R33, R195),
its reset value, and the reasons for which `step` has no next state. -/

namespace Sys2Proof.Machine

/-- MODE (R32): an execution state, not a privilege mode (R182). -/
inductive Mode where
  /-- The block may execute commands. -/
  | ready
  /-- The block has no step until RESET. -/
  | halted
deriving DecidableEq, Repr

/-- The block's architectural state (R31). -/
structure State where
  /-- MODE (R32). -/
  mode : Mode
  /-- The STATUS register, 32 bits (R34); its fields are read by the accessors of Machine/Flags.lean. -/
  status : Word
  /-- INQ, the command queue, head first (R37). -/
  inq : List Word
  /-- OUTQ, the response queue, head first (R38). -/
  outq : List Word
deriving DecidableEq, Repr

/-- The state after RESET and at power-on (R195). -/
def State.reset : State := { mode := .ready, status := 0x00000000, inq := [], outq := [] }

/-- Why the block has NO STEP in a state: a `require` line of R80 does not hold. None of these is the block's fatal fault
(R170), which is a next state. Each is a stuck state of R83 and 93_implementation_defined.md row 3 (log entry 1). -/
inductive Fault where
  /-- Raised by the fetch when MODE is HALTED (R32): "the block has no step at all". Safe: the model stops where the hardware
  does nothing until RESET. -/
  | halted
  /-- Raised by the fetch when INQ is empty (R80, R187). Safe: the block waits for the host's push. -/
  | idle
  /-- Raised by the fetch when fewer than N_in operand words follow the command word (R41, R80). Safe: the block waits for
  the host's push. -/
  | awaitingOperands
  /-- Raised by the fetch when OUTQ cannot take the whole response, or the one fault word (R80, R190). Safe: the block waits
  for the host's pop. -/
  | awaitingSpace
deriving DecidableEq, Repr

/-- Why an instruction is refused. -/
inductive Refusal where
  /-- The instruction has no meaning in the model. Raised by no arm: all 18 commands are modelled. Safe. -/
  | notModelled (mnemonic : String)
deriving DecidableEq, Repr

end Sys2Proof.Machine
end

