-- ==== Sys2Proof/Machine/Ops.lean ====
section
/-! DEFINITION. The operations the commands share: queue capacities (R37, R38, R201), appending a response (R76, R77), taking
the fatal fault (R170) and RESET, the only way out of it (R181, R196), ending a command (R80), and the checked binary32
operators (R12). -/

namespace Sys2Proof.Machine

/-! ## Queue capacities -/

/-- Does a queue of capacity `13 + extra` words (unbounded for `none`) hold `total` words. Every capacity is at least 13
(R201), so up to 13 words the answer needs nothing of `extra`. -/
def withinCapacity (extra : Option Nat) (total : Nat) : Bool :=
  decide (total ≤ Config.minCapacity) ||
    match extra with
    | none => true
    | some e => decide (total ≤ Config.minCapacity + e)

/-- `|INQ| + n ≤ IN_CAP`. -/
def State.inRoom (s : State) (n : Nat) : Bool := withinCapacity Config.inCapExtra (s.inq.length + n)

/-- `|OUTQ| + n ≤ OUT_CAP`. -/
def State.outRoom (s : State) (n : Nat) : Bool := withinCapacity Config.outCapExtra (s.outq.length + n)

/-! ## Responses -/

/-- Append the words of one response to OUTQ, as a whole (R38). -/
def State.respond (s : State) (ws : List Word) : State := { s with outq := s.outq ++ ws }

/-- OK response: `SW(0, 0, opc, 0)`, then the result words (R76). -/
def okResponse (op : Opcode) (res : List Word) : List Word := statusWord resultOk 0 op.code 0 :: res

/-- OVERFLOW response: `SW(1, 1, opc, f)`, then N_out zero words (R77). -/
def overflowResponse (op : Opcode) (f : Fin 6) : List Word :=
  statusWord resultOverflow causeOverflow op.code (BitVec.ofNat 3 f.val) :: List.replicate op.nOut 0

/-- FAULT response: the single word `SW(2, c, opc, 0)` (R78). -/
def faultResponse (opc : OpcByte) (c : Cause) : List Word := [statusWord resultFault c.code opc 0]

/-! ## The fatal fault, and RESET -/

/-- Taking the fatal fault of cause `c`, `Fatal(opc, c)` of R80 and steps 3 to 5 of R170: append the fault status word, record
CAUSE and OPC in STATUS, halt. The command's words are already consumed in `s`. -/
def takeFault (opc : OpcByte) (c : Cause) (s : State) : State :=
  { s.respond (faultResponse opc c) with status := faultStatus opc c, mode := .halted }

/-- RESET (R196): enabled in every state, and the only way out of HALTED (R181). -/
def assertReset (_s : State) : State := State.reset

/-! ## Ending a command -/

/-- The end of the block step of R80, after the command's words are consumed: append the OK or the OVERFLOW response, or take
the fatal fault. -/
def finish (op : Opcode) (a : Answer) (s : State) : State :=
  match a with
  | .ok res => s.respond (okResponse op res)
  | .error (.overflow f) => s.respond (overflowResponse op f)
  | .error (.fault c) => takeFault op.code c s

/-! ## Field updates that can overflow -/

/-- NEWU_f of R95 and R161: the field update, or `overflow(f)` when the value does not fit. -/
def newUnsigned (f : Fin 6) (word : DWord) (width lsb value : Nat) : Except Stop DWord :=
  if fitsUnsigned value width then .ok (setField word width lsb value) else overflow f

/-- NEWS_f of R96 and R161: the update with the low `w` bits of the value, or `overflow(f)` when it does not fit. -/
def newSigned (f : Fin 6) (word : DWord) (width lsb : Nat) (value : Int) : Except Stop DWord :=
  if fitsSigned value width then .ok (setField word width lsb (value % 2 ^ width).toNat) else overflow f

/-! ## Checked binary32 arithmetic -/

/-- `chk(v)`: `v` if it is finite, else `raise NON_FINITE` (R12). -/
def chk (v : Word) : Except Stop Word := if Binary32.isFinite v then .ok v else raise .nonFinite

/-- `x ⊕ y` (R12). -/
def fadd (x y : Word) : Except Stop Word := chk (Binary32.addRaw x y)

/-- `x ⊖ y` (R12). -/
def fsub (x y : Word) : Except Stop Word := chk (Binary32.subRaw x y)

/-- `x ⊗ y` (R12). -/
def fmul (x y : Word) : Except Stop Word := chk (Binary32.mulRaw x y)

/-- `x ⊘ y` (R12). -/
def fdiv (x y : Word) : Except Stop Word := chk (Binary32.divRaw x y)

/-- The operand check of every command that reads F32 words (R173): are they all finite. -/
def allFinite (ws : List Word) : Bool := ws.all Binary32.isFinite

end Sys2Proof.Machine
end

