-- ==== Sys2Proof/Machine/Codec.lean ====
section
/-! DEFINITION. The bit-field codec: FITSU, FITSS, GETU, GETS, NEWU, NEWS (R90 to R105). -/

namespace Sys2Proof.Machine

/-- The rule of FITSU (R91). -/
def fitsuAnswer (width : Nat) (n : DWord) : Answer :=
  if width > 64 then raise .fieldRange
  else .ok [boolWord (fitsUnsigned n.toNat width)]

/-- FITSU (R91). -/
def execFitsu (width : Nat) (n : DWord) (s : State) : Host.Outcome State Fault Refusal :=
  .next (finish .fitsu (fitsuAnswer width n) s)

/-- The rule of FITSS (R92). -/
def fitssAnswer (width : Nat) (n : DWord) : Answer :=
  if width > 64 then raise .fieldRange
  else .ok [boolWord (fitsSigned (s64 n) width)]

/-- FITSS (R92). -/
def execFitss (width : Nat) (n : DWord) (s : State) : Host.Outcome State Fault Refusal :=
  .next (finish .fitss (fitssAnswer width n) s)

/-- The rule of GETU (R93). -/
def getuAnswer (width lsb : Nat) (word : DWord) : Answer :=
  if width + lsb > 64 then raise .fieldRange
  else .ok (words64 (u64 (getUnsigned word width lsb)))

/-- GETU (R93). -/
def execGetu (width lsb : Nat) (word : DWord) (s : State) : Host.Outcome State Fault Refusal :=
  .next (finish .getu (getuAnswer width lsb word) s)

/-- The rule of GETS (R94). -/
def getsAnswer (width lsb : Nat) (word : DWord) : Answer :=
  if width + lsb > 64 then raise .fieldRange
  else .ok (words64 (u64 (getSigned word width lsb)))

/-- GETS (R94). -/
def execGets (width lsb : Nat) (word : DWord) (s : State) : Host.Outcome State Fault Refusal :=
  .next (finish .gets (getsAnswer width lsb word) s)

/-- The rule of NEWU (R95): FIELD_RANGE is checked before the fit test (R172). -/
def newuAnswer (width lsb : Nat) (word value : DWord) : Answer :=
  if width + lsb > 64 then raise .fieldRange
  else do
    let r ← newUnsigned 0 word width lsb value.toNat
    .ok (words64 r)

/-- NEWU (R95). -/
def execNewu (width lsb : Nat) (word value : DWord) (s : State) : Host.Outcome State Fault Refusal :=
  .next (finish .newu (newuAnswer width lsb word value) s)

/-- The rule of NEWS (R96): FIELD_RANGE is checked before the fit test (R172). -/
def newsAnswer (width lsb : Nat) (word value : DWord) : Answer :=
  if width + lsb > 64 then raise .fieldRange
  else do
    let r ← newSigned 0 word width lsb (s64 value)
    .ok (words64 r)

/-- NEWS (R96). -/
def execNews (width lsb : Nat) (word value : DWord) (s : State) : Host.Outcome State Fault Refusal :=
  .next (finish .news (newsAnswer width lsb word value) s)

end Sys2Proof.Machine
end

