-- ==== Sys2Proof/Machine/Color.lean ====
section
/-! DEFINITION. color_space_xform: RGB2YPP and YPP2RGB (R110 to R119). -/

namespace Sys2Proof.Machine

open Binary32

/-! The coefficients of R111, each `fl` of the document's decimal literal. -/

/-- 0.299, Y from r. -/
def kyr : Word := 0x3E991687

/-- 0.587, Y from g. -/
def kyg : Word := 0x3F1645A2

/-- 0.114, Y from b. -/
def kyb : Word := 0x3DE978D5

/-- −0.168736, Pb from r. -/
def kbr : Word := 0xBE2CC921

/-- −0.331264, Pb from g. -/
def kbg : Word := 0xBEA99B6F

/-- 0.5, Pb from b. -/
def kbb : Word := 0x3F000000

/-- 0.5, Pr from r. -/
def krr : Word := 0x3F000000

/-- −0.418688, Pr from g. -/
def krg : Word := 0xBED65E46

/-- −0.081312, Pr from b. -/
def krb : Word := 0xBDA686E8

/-- 1.402, r from Pr. -/
def krv : Word := 0x3FB374BC

/-- 0.344136, g from Pb, subtracted. -/
def kgu : Word := 0x3EB03298

/-- 0.714136, g from Pr, subtracted. -/
def kgv : Word := 0x3F36D19E

/-- 1.772, b from Pb. -/
def kbu : Word := 0x3FE2D0E5

/-- 1 ≤ den ≤ DEN_MAX (R110). -/
def denOk (den : Word) : Bool := 1 ≤ den.toNat ∧ den.toNat ≤ Config.denMax

/-- `((k1 ⊗ x1) ⊕ (k2 ⊗ x2)) ⊕ (k3 ⊗ x3)`, one row of the forward matrix (R112). -/
def linear3 (k1 x1 k2 x2 k3 x3 : Word) : Except Stop Word := do
  let t1 ← fmul k1 x1
  let t2 ← fmul k2 x2
  let t12 ← fadd t1 t2
  let t3 ← fmul k3 x3
  fadd t12 t3

/-- The rule of RGB2YPP (R112), with its checks in the order of R172. -/
def rgb2yppAnswer (p : RgbPixel) (den : Word) : Answer :=
  if denOk den = false then raise .denominator
  else if p.r.toNat > den.toNat then raise .sampleRange
  else if p.g.toNat > den.toNat then raise .sampleRange
  else if p.b.toNat > den.toNat then raise .sampleRange
  else do
    let dn := cvt den.toNat
    let r ← fdiv (cvt p.r.toNat) dn
    let g ← fdiv (cvt p.g.toNat) dn
    let b ← fdiv (cvt p.b.toNat) dn
    let y ← linear3 kyr r kyg g kyb b
    let pb ← linear3 kbr r kbg g kbb b
    let pr ← linear3 krr r krg g krb b
    .ok [clamp y zero one, clamp pb negHalf half, clamp pr negHalf half]

/-- RGB2YPP (R112). -/
def execRgb2ypp (p : RgbPixel) (den : Word) (s : State) : Host.Outcome State Fault Refusal :=
  .next (finish .rgb2ypp (rgb2yppAnswer p den) s)

/-- `rha(clamp(x, 0, 1) ⊗ dn)`, one output sample (R114). -/
def sampleOf (x dn : Word) : Except Stop Word := do
  let t ← fmul (clamp x zero one) dn
  .ok (u32 (rha t))

/-- The rule of YPP2RGB (R114), with its checks in the order of R172. -/
def ypp2rgbAnswer (p : YppPixel) (den : Word) : Answer :=
  if allFinite [p.y, p.pb, p.pr] = false then raise .nonFinite
  else if denOk den = false then raise .denominator
  else do
    let dn := cvt den.toNat
    let tr ← fmul krv p.pr
    let r ← fadd p.y tr
    let tu ← fmul kgu p.pb
    let gu ← fsub p.y tu
    let tv ← fmul kgv p.pr
    let g ← fsub gu tv
    let tb ← fmul kbu p.pb
    let b ← fadd p.y tb
    let r' ← sampleOf r dn
    let g' ← sampleOf g dn
    let b' ← sampleOf b dn
    .ok [r', g', b']

/-- YPP2RGB (R114). -/
def execYpp2rgb (p : YppPixel) (den : Word) (s : State) : Host.Outcome State Fault Refusal :=
  .next (finish .ypp2rgb (ypp2rgbAnswer p den) s)

end Sys2Proof.Machine
end

