-- ==== Sys2Proof/Machine/Dct.lean ====
section
/-! DEFINITION. dct_2x2_block: DCTF and DCTI (R125 to R133). -/

namespace Sys2Proof.Machine

open Binary32

/-- `(((x1 ⊕ x2) ⊕ x3) ⊕ x4) ⊘ 4`: the luma average a, and the mean of four chroma values in index order (R127). -/
def mean4 (x1 x2 x3 x4 : Word) : Except Stop Word := do
  let t ← fadd x1 x2
  let t ← fadd t x3
  let t ← fadd t x4
  fdiv t four

/-- `b = (((Y4 ⊕ Y3) ⊖ Y2) ⊖ Y1) ⊘ 4` (R127). -/
def coefB (y1 y2 y3 y4 : Word) : Except Stop Word := do
  let t ← fadd y4 y3
  let t ← fsub t y2
  let t ← fsub t y1
  fdiv t four

/-- `c = (((Y4 ⊖ Y3) ⊕ Y2) ⊖ Y1) ⊘ 4` (R127). -/
def coefC (y1 y2 y3 y4 : Word) : Except Stop Word := do
  let t ← fsub y4 y3
  let t ← fadd t y2
  let t ← fsub t y1
  fdiv t four

/-- `d = (((Y4 ⊖ Y3) ⊖ Y2) ⊕ Y1) ⊘ 4` (R127). -/
def coefD (y1 y2 y3 y4 : Word) : Except Stop Word := do
  let t ← fsub y4 y3
  let t ← fsub t y2
  let t ← fadd t y1
  fdiv t four

/-- The rule of DCTF (R127). -/
def dctfAnswer (p1 p2 p3 p4 : YppPixel) : Answer :=
  if allFinite (p1.words ++ p2.words ++ p3.words ++ p4.words) = false then raise .nonFinite
  else do
    let a ← mean4 p1.y p2.y p3.y p4.y
    let b ← coefB p1.y p2.y p3.y p4.y
    let c ← coefC p1.y p2.y p3.y p4.y
    let d ← coefD p1.y p2.y p3.y p4.y
    let pb ← mean4 p1.pb p2.pb p3.pb p4.pb
    let pr ← mean4 p1.pr p2.pr p3.pr p4.pr
    .ok [a, b, c, d, pb, pr]

/-- DCTF (R127). -/
def execDctf (p1 p2 p3 p4 : YppPixel) (s : State) : Host.Outcome State Fault Refusal :=
  .next (finish .dctf (dctfAnswer p1 p2 p3 p4) s)

/-- The rule of DCTI (R129): the chroma words are the operand words, unchanged. -/
def dctiAnswer (t : TransformBlock) : Answer :=
  if allFinite t.words = false then raise .nonFinite
  else do
    -- Y1 = ((a ⊖ b) ⊖ c) ⊕ d
    let x1 ← fsub t.a t.b
    let x1 ← fsub x1 t.c
    let y1 ← fadd x1 t.d
    -- Y2 = ((a ⊖ b) ⊕ c) ⊖ d
    let x2 ← fsub t.a t.b
    let x2 ← fadd x2 t.c
    let y2 ← fsub x2 t.d
    -- Y3 = ((a ⊕ b) ⊖ c) ⊖ d
    let x3 ← fadd t.a t.b
    let x3 ← fsub x3 t.c
    let y3 ← fsub x3 t.d
    -- Y4 = ((a ⊕ b) ⊕ c) ⊕ d
    let x4 ← fadd t.a t.b
    let x4 ← fadd x4 t.c
    let y4 ← fadd x4 t.d
    .ok [y1, t.avgPb, t.avgPr, y2, t.avgPb, t.avgPr, y3, t.avgPb, t.avgPr, y4, t.avgPb, t.avgPr]

/-- DCTI (R129). -/
def execDcti (t : TransformBlock) (s : State) : Host.Outcome State Fault Refusal :=
  .next (finish .dcti (dctiAnswer t) s)

end Sys2Proof.Machine
end

