-- ==== Sys2Proof/Machine/Packer.lean ====
section
/-! DEFINITION. bitfield_packer: PACK, UNPACK, SERBE and DESERBE (R160 to R168). -/

namespace Sys2Proof.Machine

/-! ## The code word layout (R160): each lsb "from cumulative widths starting at bit 31 downward" -/

/-- lsb of field a: 23. -/
def lsbA : Nat := 32 - Config.widthA

/-- lsb of field b: 18. -/
def lsbB : Nat := lsbA - Config.widthBCD

/-- lsb of field c: 13. -/
def lsbC : Nat := lsbB - Config.widthBCD

/-- lsb of field d: 8. -/
def lsbD : Nat := lsbC - Config.widthBCD

/-- lsb of field avgPb: 4. -/
def lsbPb : Nat := lsbD - Config.widthChroma

/-- lsb of field avgPr: 0. -/
def lsbPr : Nat := lsbPb - Config.widthChroma

/-- The rule of PACK (R161): from the word 0, the fields in index order, stopping at the first that does not fit. -/
def packAnswer (q : QuantBlock) : Answer := do
  let w ← newUnsigned 0 0 Config.widthA lsbA q.qa.toNat
  let w ← newSigned 1 w Config.widthBCD lsbB (s32 q.qb)
  let w ← newSigned 2 w Config.widthBCD lsbC (s32 q.qc)
  let w ← newSigned 3 w Config.widthBCD lsbD (s32 q.qd)
  let w ← newUnsigned 4 w Config.widthChroma lsbPb q.qpb.toNat
  let w ← newUnsigned 5 w Config.widthChroma lsbPr q.qpr.toNat
  .ok [loWord w]

/-- PACK (R161). -/
def execPack (q : QuantBlock) (s : State) : Host.Outcome State Fault Refusal :=
  .next (finish .pack (packAnswer q) s)

/-- The rule of UNPACK (R162). -/
def unpackAnswer (word : Word) : Answer :=
  let v := zext64 word
  .ok [u32 (getUnsigned v Config.widthA lsbA),
       u32 (getSigned v Config.widthBCD lsbB),
       u32 (getSigned v Config.widthBCD lsbC),
       u32 (getSigned v Config.widthBCD lsbD),
       u32 (getUnsigned v Config.widthChroma lsbPb),
       u32 (getUnsigned v Config.widthChroma lsbPr)]

/-- UNPACK (R162). -/
def execUnpack (word : Word) (s : State) : Host.Outcome State Fault Refusal :=
  .next (finish .unpack (unpackAnswer word) s)

/-- lsb of byte `k` in emission order: `24 − 8k` (R52, R164). -/
def byteLsb (k : Nat) : Nat := 24 - Config.byteWidth * k

/-- The rule of SERBE (R164). -/
def serbeAnswer (word : Word) : Answer :=
  let v := zext64 word
  .ok [u32 (getUnsigned v Config.byteWidth (byteLsb 0)),
       u32 (getUnsigned v Config.byteWidth (byteLsb 1)),
       u32 (getUnsigned v Config.byteWidth (byteLsb 2)),
       u32 (getUnsigned v Config.byteWidth (byteLsb 3))]

/-- SERBE (R164). -/
def execSerbe (word : Word) (s : State) : Host.Outcome State Fault Refusal :=
  .next (finish .serbe (serbeAnswer word) s)

/-- The rule of DESERBE (R165): the updates cannot overflow after the byte check. -/
def deserbeAnswer (b0 b1 b2 b3 : Word) : Answer :=
  if b0.toNat > 255 then raise .codeRange
  else if b1.toNat > 255 then raise .codeRange
  else if b2.toNat > 255 then raise .codeRange
  else if b3.toNat > 255 then raise .codeRange
  else do
    let v ← newUnsigned 0 0 Config.byteWidth (byteLsb 0) b0.toNat
    let v ← newUnsigned 0 v Config.byteWidth (byteLsb 1) b1.toNat
    let v ← newUnsigned 0 v Config.byteWidth (byteLsb 2) b2.toNat
    let v ← newUnsigned 0 v Config.byteWidth (byteLsb 3) b3.toNat
    .ok [loWord v]

/-- DESERBE (R165). -/
def execDeserbe (b0 b1 b2 b3 : Word) (s : State) : Host.Outcome State Fault Refusal :=
  .next (finish .deserbe (deserbeAnswer b0 b1 b2 b3) s)

end Sys2Proof.Machine
end

