-- ==== Sys2Proof/Machine/Quantizer.lean ====
section
/-! DEFINITION. block_quantizer: QUANT, DEQUANT, CHRIDX and CHRVAL (R135 to R149). The rules take the chroma table as an
argument; the machine gives them `chromaLut`. -/

namespace Sys2Proof.Machine

open Binary32

/-! ## The chroma table -/

/-- A table of 16 binary32 levels `L[0] … L[15]` (R39). -/
abbrev ChromaTable := Fin 16 → Word

/-- The constraints of R146 on an instantiation: every level finite, and the levels strictly increasing. -/
def ChromaTable.ok (L : ChromaTable) : Bool :=
  decide (∀ i, isFinite (L i) = true) && decide (∀ i j, i < j → scaled (L i) < scaled (L j))

/-- The table that stands for an instantiation that breaks R146: the sixteen least non-negative binary32 words. It makes
`chromaLut` range over exactly the tables that R146 allows (log entry 2). -/
def chromaFallback : ChromaTable := fun i => BitVec.ofNat 32 i.val

/-- CHROMA_LUT (R39): the table the hardware was built with, of which the model knows R146 and nothing else. -/
def chromaLut : ChromaTable := if ChromaTable.ok Config.chromaRaw then Config.chromaRaw else chromaFallback

/-- The exact distance `|x − y|` of two finite words, in units of 2^−149 (R145). -/
def distance (x y : Word) : Nat := (scaled x - scaled y).natAbs

/-- `IOC(x)`: the index of the level nearest `x`, the lower index when two are equally near (R145). -/
def ioc (L : ChromaTable) (x : Word) : Fin 16 :=
  (List.finRange 16).foldl (fun best i => if distance x (L i) < distance x (L best) then i else best) 0

/-- `COI(i) = L[i]` (R147). -/
def coi (L : ChromaTable) (i : Fin 16) : Word := L i

/-! ## Constants of R136 -/

/-- AL = 511 = L(9). -/
def al : Word := 0x43FF8000

/-- QL = 15 = L(4). -/
def ql : Word := 0x41700000

/-- QM = fl(0.3). -/
def qm : Word := 0x3E99999A

/-- −QM, the lower clamp bound of b, c, d. -/
def negQm : Word := 0xBE99999A

/-! ## QUANT -/

/-- `rha(a ⊗ AL)`, the code of the luma average (R137). -/
def quantizeA (a : Word) : Except Stop Int := do
  let t ← fmul a al
  .ok (rha t)

/-- `rha((clamp(x, −QM, QM) ⊗ QL) ⊘ QM)`, the code of a luma difference (R137). -/
def quantizeDiff (x : Word) : Except Stop Int := do
  let t ← fmul (clamp x negQm qm) ql
  let t ← fdiv t qm
  .ok (rha t)

/-- An index as a U32 result word (R69). -/
def indexWord (i : Fin 16) : Word := BitVec.ofNat 32 i.val

/-- The rule of QUANT (R137), with its checks in the order of R172. -/
def quantAnswer (L : ChromaTable) (t : TransformBlock) : Answer :=
  if allFinite t.words = false then raise .nonFinite
  else if lt t.a zero || lt one t.a then raise .lumaRange
  else do
    let qa ← quantizeA t.a
    let qb ← quantizeDiff t.b
    let qc ← quantizeDiff t.c
    let qd ← quantizeDiff t.d
    .ok [u32 qa, u32 qb, u32 qc, u32 qd, indexWord (ioc L t.avgPb), indexWord (ioc L t.avgPr)]

/-- QUANT (R137). -/
def execQuant (t : TransformBlock) (s : State) : Host.Outcome State Fault Refusal :=
  .next (finish .quant (quantAnswer chromaLut t) s)

/-! ## DEQUANT -/

/-- `−16 ≤ q ≤ 15` (R140, R141). -/
def signedCodeOk (q : Int) : Bool := -16 ≤ q ∧ q ≤ 15

/-- `cvt(qa) ⊘ AL` (R140). -/
def dequantizeA (qa : Word) : Except Stop Word := fdiv (cvt qa.toNat) al

/-- `(cvt(q) ⊗ QM) ⊘ QL` (R140). -/
def dequantizeDiff (q : Int) : Except Stop Word := do
  let t ← fmul (cvt q) qm
  fdiv t ql

/-- The index a code word 0 … 15 names. -/
def indexOf (w : Word) : Fin 16 := Fin.ofNat 16 w.toNat

/-- The rule of DEQUANT (R140). -/
def dequantAnswer (L : ChromaTable) (q : QuantBlock) : Answer :=
  if q.qa.toNat > 511 then raise .codeRange
  else if signedCodeOk (s32 q.qb) = false then raise .codeRange
  else if signedCodeOk (s32 q.qc) = false then raise .codeRange
  else if signedCodeOk (s32 q.qd) = false then raise .codeRange
  else if q.qpb.toNat > 15 then raise .codeRange
  else if q.qpr.toNat > 15 then raise .codeRange
  else do
    let a ← dequantizeA q.qa
    let b ← dequantizeDiff (s32 q.qb)
    let c ← dequantizeDiff (s32 q.qc)
    let d ← dequantizeDiff (s32 q.qd)
    .ok [a, b, c, d, coi L (indexOf q.qpb), coi L (indexOf q.qpr)]

/-- DEQUANT (R140). -/
def execDequant (q : QuantBlock) (s : State) : Host.Outcome State Fault Refusal :=
  .next (finish .dequant (dequantAnswer chromaLut q) s)

/-! ## CHRIDX and CHRVAL -/

/-- The rule of CHRIDX (R142). -/
def chridxAnswer (L : ChromaTable) (x : Word) : Answer :=
  if isFinite x = false then raise .nonFinite else .ok [indexWord (ioc L x)]

/-- CHRIDX (R142). -/
def execChridx (x : Word) (s : State) : Host.Outcome State Fault Refusal :=
  .next (finish .chridx (chridxAnswer chromaLut x) s)

/-- The rule of CHRVAL (R143). -/
def chrvalAnswer (L : ChromaTable) (index : Word) : Answer :=
  if index.toNat > 15 then raise .codeRange else .ok [coi L (indexOf index)]

/-- CHRVAL (R143). -/
def execChrval (index : Word) (s : State) : Host.Outcome State Fault Refusal :=
  .next (finish .chrval (chrvalAnswer chromaLut index) s)

end Sys2Proof.Machine
end

