-- ==== Sys2Proof/Machine/Dispatch.lean ====
section
/-! DEFINITION. One arm per command: EXEC of R80, on a state whose INQ no longer holds the command's words. -/

namespace Sys2Proof.Machine

def exec (i : Instr) (s : State) : Host.Outcome State Fault Refusal :=
  match i with
  | .fitsu width n => Sys2Proof.Machine.execFitsu width n s
  | .fitss width n => Sys2Proof.Machine.execFitss width n s
  | .getu width lsb word => Sys2Proof.Machine.execGetu width lsb word s
  | .gets width lsb word => Sys2Proof.Machine.execGets width lsb word s
  | .newu width lsb word value => Sys2Proof.Machine.execNewu width lsb word value s
  | .news width lsb word value => Sys2Proof.Machine.execNews width lsb word value s
  | .rgb2ypp p den => Sys2Proof.Machine.execRgb2ypp p den s
  | .ypp2rgb p den => Sys2Proof.Machine.execYpp2rgb p den s
  | .dctf p1 p2 p3 p4 => Sys2Proof.Machine.execDctf p1 p2 p3 p4 s
  | .dcti t => Sys2Proof.Machine.execDcti t s
  | .quant t => Sys2Proof.Machine.execQuant t s
  | .dequant q => Sys2Proof.Machine.execDequant q s
  | .chridx x => Sys2Proof.Machine.execChridx x s
  | .chrval index => Sys2Proof.Machine.execChrval index s
  | .pack q => Sys2Proof.Machine.execPack q s
  | .unpack word => Sys2Proof.Machine.execUnpack word s
  | .serbe word => Sys2Proof.Machine.execSerbe word s
  | .deserbe b0 b1 b2 b3 => Sys2Proof.Machine.execDeserbe b0 b1 b2 b3 s

end Sys2Proof.Machine
end

