-- ==== Sys2Proof/Machine/Fetch.lean ====
section
/-! DEFINITION. The part of the block step before EXEC (R80): the `require` lines, taking the command's words from the head of
INQ, and placing an instruction's words there. -/

namespace Sys2Proof.Machine

/-- What the head of INQ gives the block step. -/
inductive Fetched where
  /-- A `require` line of R80 fails: the block has no step. -/
  | noStep (r : Fault)
  /-- The command word faults as it is decoded; `s` has the command word consumed (R71, R80). -/
  | badCommand (opc : OpcByte) (c : Cause) (s : State)
  /-- A whole command with room for its response; `s` has all `1 + N_in` words consumed (R80). -/
  | command (i : Instr) (s : State)
deriving DecidableEq, Repr

/-- The state with the words of INQ from the head up to `rest` consumed (R37). -/
def State.withInq (s : State) (rest : List Word) : State := { s with inq := rest }

/-- A decode fault needs one word of OUTQ space and consumes the command word alone (R71, R80, R190). -/
def fetchBad (opc : OpcByte) (c : Cause) (s : State) : Fetched :=
  if s.outRoom 1 then .badCommand opc c (s.withInq (s.inq.drop 1)) else .noStep .awaitingSpace

/-- The `require` lines and the decoding of R80, in its order. -/
def fetch (s : State) : Fetched :=
  match s.mode with
  | .halted => .noStep .halted
  | .ready =>
    match decode s.inq with
    | .error .noWord => .noStep .idle
    | .error (.illegalOpcode opc) => fetchBad opc .illegalOpcode s
    | .error (.reservedBits opc) => fetchBad opc .reservedBits s
    | .error (.missingOperands _) => .noStep .awaitingOperands
    | .ok (i, rest) =>
      if s.outRoom (1 + i.opcode.nOut) then .command i (s.withInq rest) else .noStep .awaitingSpace

/-- `ws` written over the first words of INQ, the rest of INQ as it was (log entry 5). -/
def State.placeWords (s : State) (ws : List Word) : State := s.withInq (ws ++ s.inq.drop ws.length)

end Sys2Proof.Machine
end

