-- ==== Sys2Proof/Machine/Step.lean ====
section
/-! DEFINITION. The block step of R80, one atomic transition of the block agent. -/

namespace Sys2Proof.Machine

/-- BlockStep of R80: no step where a `require` line fails, the fatal fault where the command word faults, else EXEC. -/
def step (s : State) : Host.Outcome State Fault Refusal :=
  match fetch s with
  | .noStep r => .fault r
  | .badCommand opc c s' => .next (takeFault opc c s')
  | .command i s' => exec i s'

/-- `s` with the instruction of a table word (its operand words zeros) at the head of INQ, where `step` takes its next
command: what a host's pushes into an empty INQ would leave there (log entries 4 and 5). -/
def State.withFetchWord (s : State) (nbits w : Nat) : State := s.placeWords (tableWords nbits w)

end Sys2Proof.Machine
end

