-- ==== Sys2Proof/Machine/HostScript.lean ====
section
/-! DEFINITION. The host's pipeline (R205 to R211), as plain functions of the commands' answers. It is software around the
block and outside the block's scope (R4); it holds no state of the machine and no step calls it. A command that does not
answer OK ends the script without output (R206, R207). -/

namespace Sys2Proof.Machine

/-- A dimension trimmed to even: `W − (W mod 2)` (R205 step 1). -/
def trimEven (n : Nat) : Nat := n - n % 2

/-- The tiles of a trimmed image as pairs `(i, j)`, row-major by tile: `j` outer, `i` inner (R205, D25). -/
def tileOrder (width height : Nat) : List (Nat × Nat) :=
  (List.range (trimEven height / 2)).flatMap (fun j => (List.range (trimEven width / 2)).map (fun i => (i, j)))

/-- Three result words as a pixel. -/
def pixelOf (ws : List Word) : YppPixel := ⟨ws.getD 0 0, ws.getD 1 0, ws.getD 2 0⟩

/-- Six result words as a transform block. -/
def transformOf (ws : List Word) : TransformBlock :=
  ⟨ws.getD 0 0, ws.getD 1 0, ws.getD 2 0, ws.getD 3 0, ws.getD 4 0, ws.getD 5 0⟩

/-- Six result words as a quantized block. -/
def quantOf (ws : List Word) : QuantBlock :=
  ⟨ws.getD 0 0, ws.getD 1 0, ws.getD 2 0, ws.getD 3 0, ws.getD 4 0, ws.getD 5 0⟩

/-- One tile to its code word: RGB2YPP per pixel, then DCTF, QUANT and PACK (R205 steps 2 to 4). -/
def compressTile (L : ChromaTable) (den : Word) (p1 p2 p3 p4 : RgbPixel) : Except Stop Word := do
  let x1 ← rgb2yppAnswer p1 den
  let x2 ← rgb2yppAnswer p2 den
  let x3 ← rgb2yppAnswer p3 den
  let x4 ← rgb2yppAnswer p4 den
  let t ← dctfAnswer (pixelOf x1) (pixelOf x2) (pixelOf x3) (pixelOf x4)
  let q ← quantAnswer L (transformOf t)
  let w ← packAnswer (quantOf q)
  .ok (w.getD 0 0)

/-- The code words of an image, in tile order; `px x y` is the pixel in column `x` of row `y` (R205). -/
def compressWords (L : ChromaTable) (den : Word) (width height : Nat) (px : Nat → Nat → RgbPixel) :
    Except Stop (List Word) :=
  (tileOrder width height).mapM (fun ij =>
    compressTile L den (px (2 * ij.1) (2 * ij.2)) (px (2 * ij.1 + 1) (2 * ij.2))
      (px (2 * ij.1) (2 * ij.2 + 1)) (px (2 * ij.1 + 1) (2 * ij.2 + 1)))

/-- The bytes after the header: the SERBE results of the code words in order (R167, R205 step 5). -/
def compressBytes (L : ChromaTable) (den : Word) (width height : Nat) (px : Nat → Nat → RgbPixel) :
    Except Stop (List Word) := do
  let ws ← compressWords L den width height px
  let bytes ← ws.mapM serbeAnswer
  .ok bytes.flatten

/-- The header of a stream, for a given HEADER_TAG: the tag, then the trimmed dimensions in decimal (R209, D30). -/
def headerText (tag : String) (width height : Nat) : String :=
  tag ++ "\n" ++ toString (trimEven width) ++ " " ++ toString (trimEven height) ++ "\n"

/-- Four bytes back to the RGB words of the tile's four pixels: DESERBE, UNPACK, DEQUANT, DCTI, then YPP2RGB per pixel (R205). -/
def decompressTile (L : ChromaTable) (den b0 b1 b2 b3 : Word) : Except Stop (List (List Word)) := do
  let w ← deserbeAnswer b0 b1 b2 b3
  let q ← unpackAnswer (w.getD 0 0)
  let t ← dequantAnswer L (quantOf q)
  let ys ← dctiAnswer (transformOf t)
  let r1 ← ypp2rgbAnswer (pixelOf ys) den
  let r2 ← ypp2rgbAnswer (pixelOf (ys.drop 3)) den
  let r3 ← ypp2rgbAnswer (pixelOf (ys.drop 6)) den
  let r4 ← ypp2rgbAnswer (pixelOf (ys.drop 9)) den
  .ok [r1, r2, r3, r4]

end Sys2Proof.Machine
end

