-- ==== Sys2Proof/Machine/HostPort.lean ====
section
/-! DEFINITION. The host's side of the block's interface (R35, R37, R38, R81, R215): push, pop and the STATUS read. RESET, the
fourth and last host event, is `assertReset` of Machine/Ops.lean. -/

namespace Sys2Proof.Machine

/-- `Push(w)`: enabled while |INQ| < IN_CAP, appends `w` to INQ (R37, R81). -/
def State.push (s : State) (w : Word) : Option State :=
  if s.inRoom 1 then some { s with inq := s.inq ++ [w] } else none

/-- `Pop()`: enabled while OUTQ is not empty, removes and returns its head (R38, R81). -/
def State.pop (s : State) : Option (Word × State) :=
  match s.outq with
  | [] => none
  | w :: rest => some (w, { s with outq := rest })

/-- `ReadStatus()`: the current value of STATUS; changes nothing, and is enabled in every state (R35, R81). -/
def State.readStatus (s : State) : Word := s.status

end Sys2Proof.Machine
end

