-- ==== Sys2Proof/Machine/System.lean ====
section
/-! DEFINITION. Block and host together (R30, R57, R81, R82): the five atomic events, any enabled one of which may come next. -/

namespace Sys2Proof.Machine

/-- An atomic event of either agent (R57, R81). -/
inductive Event where
  /-- One block step (R80). -/
  | block
  /-- The host pushes a word. -/
  | push (w : Word)
  /-- The host pops a word. -/
  | pop
  /-- The host reads STATUS. -/
  | readStatus
  /-- The host asserts RESET. -/
  | reset
deriving DecidableEq, Repr

/-- The block step as an event: `none` where it is not enabled. -/
def blockEvent (s : State) : Option State :=
  match step s with
  | .next s' => some s'
  | .fault _ => none
  | .refused _ => none

/-- The state after an event; `none` where the event is not enabled (R80, R81). -/
def fire (e : Event) (s : State) : Option State :=
  match e with
  | .block => blockEvent s
  | .push w => s.push w
  | .pop => s.pop.map Prod.snd
  | .readStatus => some s
  | .reset => some (assertReset s)

/-- The word an event hands to the host from OUTQ: the popped one, for a pop (R58). -/
def poppedBy (e : Event) (s : State) : List Word :=
  match e with
  | .pop => s.outq.take 1
  | .block => []
  | .push _ => []
  | .readStatus => []
  | .reset => []

/-- The word an event puts into INQ: the pushed one, for a push (R58). -/
def pushedBy (e : Event) : List Word :=
  match e with
  | .push w => [w]
  | .block => []
  | .pop => []
  | .readStatus => []
  | .reset => []

/-- A finite sequence of events from `s`: the last state and the words popped, in order; `none` where some event is not
enabled (R82). -/
def runEvents : List Event → State → Option (State × List Word)
  | [], s => some (s, [])
  | e :: es, s =>
    match fire e s with
    | none => none
    | some s' =>
      match runEvents es s' with
      | none => none
      | some (t, ws) => some (t, poppedBy e s ++ ws)

/-- The words a sequence of events pushes, in order. -/
def pushedWords (es : List Event) : List Word := es.flatMap pushedBy

end Sys2Proof.Machine
end

