-- ==== Sys2Proof/Safety.lean ====
section
/-! DEFINITION. The terms the statements use: what a command answers, which states are legal (R34, R36 to R38, R178), how a run
ends (R83), which states a run reaches, and weak fairness of the block (R82). -/

namespace Sys2Proof.Machine

/-! ## What a command answers -/

/-- In every state, `exec i` has a next state, in which the words `ws` are appended to OUTQ and nothing else is changed. -/
def Answers (i : Instr) (ws : List Word) : Prop :=
  ∀ s : State, exec i s = .next { s with outq := s.outq ++ ws }

/-- In every state, `exec i` takes the fatal fault of cause `cause` for opcode `opc` (R170): one fault word is appended to OUTQ,
STATUS records the fault, MODE is HALTED, and nothing else is changed. -/
def FaultsWith (i : Instr) (opc cause : Nat) : Prop :=
  ∀ s : State, exec i s = .next
    { s with
      outq := s.outq ++ [BitVec.ofNat 32 (opc * 256 + cause * 16 + 2)]
      status := BitVec.ofNat 32 (opc * 256 + cause * 16 + 1)
      mode := .halted }

/-- In no state does `exec i` append the one word of that fatal fault to OUTQ, so in none is its next state the fault's. -/
def NeverFaultsWith (i : Instr) (opc cause : Nat) : Prop :=
  ∀ s t : State, exec i s = .next t → t.outq ≠ s.outq ++ [BitVec.ofNat 32 (opc * 256 + cause * 16 + 2)]

/-! ## Legal states -/

/-- What R34 and R36 say of STATUS: the reserved bits are 0; HALT is 1 exactly in HALTED; CAUSE and OPC are 0 while HALT is
0, and CAUSE is one of 2 … 9 while HALT is 1. -/
def State.statusLegal (s : State) : Bool :=
  (statusReserved s.status == 0) &&
  match s.mode with
  | .ready => !statusHalt s.status && (statusCause s.status == 0) && (statusOpc s.status == 0)
  | .halted => statusHalt s.status && decide (2 ≤ (statusCause s.status).toNat ∧ (statusCause s.status).toNat ≤ 9)

/-- The queues hold no more words than their capacities (R31, R37, R38). -/
def State.queuesLegal (s : State) : Bool := s.inRoom 0 && s.outRoom 0

/-- A state that meets every constraint the spec puts on it. -/
def State.legal (s : State) : Bool := s.statusLegal && s.queuesLegal

/-! ## What the block takes and gives along a run (R37, R38) -/

/-- How many words the command at the head of INQ has: `1 + N_in`, or 1 for a command word that is illegal or has a reserved bit
set, which is consumed alone (R71). -/
def commandLength (inq : List Word) : Nat :=
  match Opcode.ofCode (opcField (inq.headD 0)) with
  | none => 1
  | some op => if inq.headD 0 &&& op.format.reservedMask = 0 then 1 + op.nIn else 1

/-- The words an event takes from the head of INQ: a block step takes its command's, no event of the host takes any (R37). -/
def takenBy (e : Event) (s : State) : List Word :=
  match e with
  | .block => s.inq.take (commandLength s.inq)
  | .push _ => []
  | .pop => []
  | .readStatus => []
  | .reset => []

/-- The words an event puts behind those of OUTQ: a block step puts its response, no event of the host puts any (R38). -/
def givenBy (e : Event) (s : State) : List Word :=
  match e with
  | .block =>
    match blockEvent s with
    | none => []
    | some t => t.outq.drop s.outq.length
  | .push _ => []
  | .pop => []
  | .readStatus => []
  | .reset => []

/-- The words that `f` reads off each event of a sequence in the state where it happens, in order. -/
def traceOf (f : Event → State → List Word) : List Event → State → List Word
  | [], _ => []
  | e :: es, s =>
    match fire e s with
    | none => []
    | some t => f e s ++ traceOf f es t

/-! ## How a run ends (R83) -/

/-- BlockStep is enabled. -/
def BlockEnabled (s : State) : Prop := ∃ s', step s = .next s'

/-- A clean end: READY, INQ empty, BlockStep not enabled. -/
def CleanEnd (s : State) : Prop := s.mode = .ready ∧ s.inq = [] ∧ ¬ BlockEnabled s

/-- A faulted end: HALTED. -/
def FaultedEnd (s : State) : Prop := s.mode = .halted

/-- A waiting state, which is not an end: READY, INQ not empty, BlockStep not enabled. -/
def Waiting (s : State) : Prop := s.mode = .ready ∧ s.inq ≠ [] ∧ ¬ BlockEnabled s

/-! ## Runs (R82) -/

/-- The states reached from reset by any interleaving of block steps and host events. -/
inductive Reachable : State → Prop where
  | reset : Reachable State.reset
  | fire {s t : State} (e : Event) : Reachable s → fire e s = some t → Reachable t

/-- An infinite run: a sequence of states from reset and the events between them. -/
structure IsRun (states : Nat → State) (events : Nat → Event) : Prop where
  start : states 0 = State.reset
  next : ∀ n, fire (events n) (states n) = some (states (n + 1))

/-- Weak fairness of the block: if BlockStep stays enabled, it eventually occurs (R82). -/
def WeaklyFair (states : Nat → State) (events : Nat → Event) : Prop :=
  ∀ n, (∀ m, n ≤ m → BlockEnabled (states m)) → ∃ m, n ≤ m ∧ events m = .block

end Sys2Proof.Machine
end

