-- ==== Sys2Proof/Certificates/Slice0/Obligations.lean ====
section
/-! DEFINITION. The statements for the provers. `Answers i ws` and `FaultsWith i opc cause` (Safety.lean) are equations about
`exec i s` for EVERY state `s`: what is appended to OUTQ, and that nothing else changes (or, for a fault, what else does).
Response words are written out as R75 to R78 give them. -/

open Sys2Proof Sys2Proof.Machine Sys2Proof.Machine.Binary32

/-! ## Encoding -/

/-- Decoding an encoded well-formed command, with any words after it, gives the command back and leaves the words after it
(R65 to R71). -/
def Obligations.DecodeInvertsEncode : Prop :=
  ∀ (i : Instr) (rest : List Word), i.wellFormed = true → decode (encode i ++ rest) = .ok (i, rest)

/-- What decodes is well formed and is the encoding of what it decodes to, so no two words have one meaning (R66, R70); its
length is `1 + N_in` words, a function of the opcode byte alone (R71). -/
def Obligations.EncodeInvertsDecode : Prop :=
  ∀ (ws rest : List Word) (i : Instr), decode ws = .ok (i, rest) →
    i.wellFormed = true ∧ encode i ++ rest = ws ∧ ws.length = 1 + i.opcode.nIn + rest.length ∧
    Opcode.ofCode (opcField (ws.headD 0)) = some i.opcode

/-- The encoding examples of R79: four command words, read with any operand words, and two that raise RESERVED_BITS. -/
def Obligations.EncodingExamples : Prop :=
  (∀ h l rest, decode (0x001C0812 :: h :: l :: rest) = .ok (.getu 8 56 (join64 h l), rest)) ∧
  (∀ h l vh vl rest, decode (0x00090515 :: h :: l :: vh :: vl :: rest) =
    .ok (.news 5 18 (join64 h l) (join64 vh vl), rest)) ∧
  (∀ h l rest, decode (0x00004011 :: h :: l :: rest) = .ok (.fitss 64 (join64 h l), rest)) ∧
  (∀ a b c d pb pr rest, decode (0x00000050 :: a :: b :: c :: d :: pb :: pr :: rest) =
    .ok (.pack ⟨a, b, c, d, pb, pr⟩, rest)) ∧
  (∀ (s : State) (rest : List Word), s.mode = .ready → s.outRoom 1 = true →
    (s.inq = 0x00000120 :: rest →
      step s = .next { mode := .halted, status := 0x00002031, inq := rest, outq := s.outq ++ [0x00002032] }) ∧
    (s.inq = 0x00008810 :: rest →
      step s = .next { mode := .halted, status := 0x00001031, inq := rest, outq := s.outq ++ [0x00001032] }))

/-- Exactly the OPC values R73 lists are illegal, 238 of them, the all-zero word among them, and a command word with one
takes ILLEGAL_OPCODE (cause 2) and consumes the command word alone. -/
def Obligations.IllegalOpcodes : Prop :=
  (∀ b : OpcByte, Opcode.ofCode b = none ↔
    (b.toNat ≤ 0x0F ∨ (0x16 ≤ b.toNat ∧ b.toNat ≤ 0x1F) ∨ (0x22 ≤ b.toNat ∧ b.toNat ≤ 0x2F) ∨
      (0x32 ≤ b.toNat ∧ b.toNat ≤ 0x3F) ∨ (0x44 ≤ b.toNat ∧ b.toNat ≤ 0x4F) ∨ 0x54 ≤ b.toNat)) ∧
  ((List.range 256).filter (fun n => (Opcode.ofCode (BitVec.ofNat 8 n)).isNone)).length = 238 ∧
  Opcode.ofCode (opcField 0x00000000) = none ∧
  (∀ (s : State) (cmd : Word) (rest : List Word), s.mode = .ready → s.inq = cmd :: rest →
    Opcode.ofCode (opcField cmd) = none → s.outRoom 1 = true →
    step s = .next
      { mode := .halted
        status := BitVec.ofNat 32 ((cmd.toNat % 256) * 256 + 0x21)
        inq := rest
        outq := s.outq ++ [BitVec.ofNat 32 ((cmd.toNat % 256) * 256 + 0x22)] })

/-- A command word of an assigned opcode with any reserved bit of its format set (bits 31:8 in format N, 31:15 in format W,
31:22 in format F) takes RESERVED_BITS (cause 3) and consumes the command word alone (R66, R72). FITSU and FITSS have
format W, so bits 21:15 are reserved in them. -/
def Obligations.ReservedBits : Prop :=
  (∀ (s : State) (cmd : Word) (rest : List Word) (op : Opcode) (k : Nat),
    s.mode = .ready → s.inq = cmd :: rest → op.code = opcField cmd →
    (match op.format with | .n => 8 | .w => 15 | .f => 22) ≤ k → cmd.getLsbD k = true → s.outRoom 1 = true →
    step s = .next
      { mode := .halted
        status := BitVec.ofNat 32 ((cmd.toNat % 256) * 256 + 0x31)
        inq := rest
        outq := s.outq ++ [BitVec.ofNat 32 ((cmd.toNat % 256) * 256 + 0x32)] }) ∧
  Opcode.fitsu.format = .w ∧ Opcode.fitss.format = .w

/-! ## The block step -/

/-- When the words at the head of INQ decode to a command and OUTQ has room for its response, the step of a READY block is
`exec` of that command, with the command's words taken from INQ (R80). -/
def Obligations.StepRunsDecodedCommand : Prop :=
  ∀ (s : State) (i : Instr) (rest : List Word), s.mode = .ready → decode s.inq = .ok (i, rest) →
    s.outRoom (1 + i.opcode.nOut) = true → step s = exec i { s with inq := rest }

/-- The block step is enabled exactly when the `require` lines of R80 hold; `outRoom n` is `|OUTQ| + n ≤ OUT_CAP`, where OUT_CAP
is 13 words or more, or unbounded. -/
def Obligations.EnabledExactly : Prop :=
  (∀ s : State, (∃ t, step s = .next t) ↔
    (s.mode = .ready ∧ ∃ cmd rest, s.inq = cmd :: rest ∧
      match Opcode.ofCode (opcField cmd) with
      | none => s.outRoom 1 = true
      | some op =>
        if cmd &&& op.format.reservedMask = 0 then op.nIn ≤ rest.length ∧ s.outRoom (1 + op.nOut) = true
        else s.outRoom 1 = true)) ∧
  (∀ (s : State) (n e : Nat), Config.outCapExtra = some e → (s.outRoom n = true ↔ s.outq.length + n ≤ 13 + e)) ∧
  (∀ (s : State) (n : Nat), Config.outCapExtra = none → s.outRoom n = true)

/-- Where the block has no step, `step` says why (the names are the model's choice, log entry 1): HALTED; INQ empty; operand
words missing; no room in OUTQ for the response of the command at the head of INQ, or for the one fault word of a
command word that is illegal or has a reserved bit set. An instruction is never refused. -/
def Obligations.NoStepByName : Prop :=
  ∀ s : State,
    (s.mode = .halted → step s = .fault .halted) ∧
    (s.mode = .ready → s.inq = [] → step s = .fault .idle) ∧
    (∀ op, s.mode = .ready → decode s.inq = .error (.missingOperands op) → step s = .fault .awaitingOperands) ∧
    (∀ i rest, s.mode = .ready → decode s.inq = .ok (i, rest) → s.outRoom (1 + i.opcode.nOut) = false →
      step s = .fault .awaitingSpace) ∧
    (∀ cmd rest, s.mode = .ready → s.inq = cmd :: rest → Opcode.ofCode (opcField cmd) = none →
      s.outRoom 1 = false → step s = .fault .awaitingSpace) ∧
    (∀ cmd rest op, s.mode = .ready → s.inq = cmd :: rest → Opcode.ofCode (opcField cmd) = some op →
      cmd &&& op.format.reservedMask ≠ 0 → s.outRoom 1 = false → step s = .fault .awaitingSpace) ∧
    (∀ r, step s ≠ .refused r)

/-- Every command ends in one of three ways, in every state: the OK response with N_out result words (R76); the OVERFLOW
response with N_out zero words, MODE and STATUS unchanged, from PACK for one of its six fields or from NEWU or NEWS with
field 0 (R77, R98, R176); or the one-word FAULT response, and the block halts (R78). -/
def Obligations.ThreeOutcomes : Prop :=
  ∀ (i : Instr) (s : State),
    (∃ res : List Word, res.length = i.opcode.nOut ∧
      exec i s = .next
        { s with
          outq := s.outq ++ (BitVec.ofNat 32 (i.opcode.code.toNat * 256) :: res) }) ∨
    (∃ f : Fin 6, (i.opcode = .pack ∨ ((i.opcode = .newu ∨ i.opcode = .news) ∧ f = 0)) ∧
      exec i s = .next
        { s with
          outq := s.outq ++ (BitVec.ofNat 32 (f.val * 65536 + i.opcode.code.toNat * 256 + 0x11) ::
            List.replicate i.opcode.nOut 0) }) ∨
    (∃ c : Nat, 2 ≤ c ∧ c ≤ 9 ∧
      exec i s = .next
        { s with
          outq := s.outq ++ [BitVec.ofNat 32 (i.opcode.code.toNat * 256 + c * 16 + 2)]
          status := BitVec.ofNat 32 (i.opcode.code.toNat * 256 + c * 16 + 1)
          mode := .halted })

/-- Each block step appends exactly one whole response (R74): a fault word alone, and then the block is halted; or a status
word and N_out words for the opcode it names, and then the block is still READY. -/
def Obligations.OneResponsePerStep : Prop :=
  ∀ s t : State, step s = .next t → ∃ (sw : Word) (ws : List Word),
    t.outq = s.outq ++ sw :: ws ∧ sw.extractLsb' 8 8 = opcField (s.inq.headD 0) ∧
    ((sw.extractLsb' 0 4 = 2 ∧ ws = [] ∧ t.mode = .halted) ∨
     ((sw.extractLsb' 0 4 = 0 ∨ sw.extractLsb' 0 4 = 1) ∧ t.mode = .ready ∧
       ∃ op, Opcode.ofCode (sw.extractLsb' 8 8) = some op ∧ ws.length = op.nOut))

/-- The status word a block step appends (R75), and which commands raise which fatal cause (R171): RESULT 0, 1 or 2; CAUSE 0 with
OK, 1 with OVERFLOW, 2 to 9 with FAULT and then of an opcode that R171 lists for it; OPC of the command word; FIELD at most 5
with OVERFLOW of PACK and 0 otherwise; bits 31:19 0. -/
def Obligations.StatusWordFields : Prop :=
  ∀ s t : State, step s = .next t → ∃ (sw : Word) (ws : List Word), t.outq = s.outq ++ sw :: ws ∧
    let result := (sw.extractLsb' 0 4).toNat
    let cause := (sw.extractLsb' 4 4).toNat
    let opc := (sw.extractLsb' 8 8).toNat
    let field := (sw.extractLsb' 16 3).toNat
    sw.extractLsb' 8 8 = opcField (s.inq.headD 0) ∧ sw.extractLsb' 19 13 = 0 ∧
    ((result = 0 ∧ cause = 0 ∧ field = 0) ∨
     (result = 1 ∧ cause = 1 ∧ ((opc = 0x50 ∧ field ≤ 5) ∨ ((opc = 0x14 ∨ opc = 0x15) ∧ field = 0))) ∨
     (result = 2 ∧ field = 0 ∧
       ((cause = 2 ∧ Opcode.ofCode (opcField (s.inq.headD 0)) = none) ∨
        (cause = 3 ∧ (Opcode.ofCode (opcField (s.inq.headD 0))).isSome = true) ∨
        (cause = 4 ∧ opc ∈ [0x10, 0x11, 0x12, 0x13, 0x14, 0x15]) ∨ (cause = 5 ∧ opc ∈ [0x20, 0x21]) ∨
        (cause = 6 ∧ opc = 0x20) ∨ (cause = 7 ∧ opc ∈ [0x21, 0x30, 0x31, 0x40, 0x42]) ∨
        (cause = 8 ∧ opc = 0x40) ∨ (cause = 9 ∧ opc ∈ [0x41, 0x43, 0x53]))))

/-- The fatal fault (R170): the words consumed are the command word alone for ILLEGAL_OPCODE (2) and RESERVED_BITS (3) and the
whole command otherwise; one fault word is appended; STATUS records CAUSE and OPC; MODE is HALTED. -/
def Obligations.FatalFaultTaken : Prop :=
  ∀ s t : State, step s = .next t → t.mode = .halted →
    ∃ (cmd : Word) (rest : List Word) (c : Nat), s.inq = cmd :: rest ∧
      t.outq = s.outq ++ [BitVec.ofNat 32 ((cmd.toNat % 256) * 256 + c * 16 + 2)] ∧
      t.status = BitVec.ofNat 32 ((cmd.toNat % 256) * 256 + c * 16 + 1) ∧
      match Opcode.ofCode (opcField cmd) with
      | none => c = 2 ∧ t.inq = rest
      | some op =>
        if cmd &&& op.format.reservedMask = 0 then 4 ≤ c ∧ c ≤ 9 ∧ op.nIn ≤ rest.length ∧ t.inq = rest.drop op.nIn
        else c = 3 ∧ t.inq = rest

/-- What a command answers, and whether it faults or overflows, depends on the command alone and on no earlier command; MODE
and STATUS after a fatal fault are all that one command leaves for the next besides its response (R40). -/
def Obligations.ResultDependsOnCommandAlone : Prop :=
  ∀ i : Instr, ∃ (ws : List Word) (halt : Option Word), ∀ s : State,
    exec i s = .next
      { s with
        outq := s.outq ++ ws
        status := halt.getD s.status
        mode := if halt.isSome then .halted else s.mode }

/-- Commands pushed back to back run in INQ order, and their responses stand in OUTQ in the same order, each whole (R43, R61). -/
def Obligations.BackToBackCommands : Prop :=
  ∀ (is : List Instr) (resps : List (List Word)) (rest : List Word) (s : State),
    List.Forall₂ Answers is resps → (∀ i ∈ is, i.wellFormed = true) → s.mode = .ready →
    s.inq = is.flatMap encode ++ rest → s.outRoom resps.flatten.length = true →
    Sys2Proof.core.run is.length s = .next { s with inq := rest, outq := s.outq ++ resps.flatten }

/-- With OUTQ drained, no capacity is too small for a whole command: the longest command is DCTF's 13 words, the longest
response DCTI's 13 words, and a READY block with a whole command at the head of INQ and an empty OUTQ has a step (R201). -/
def Obligations.DrainedBlockNeverStuck : Prop :=
  (∀ op : Opcode, 1 + op.nIn ≤ 13 ∧ 1 + op.nOut ≤ 13) ∧ 1 + Opcode.dctf.nIn = 13 ∧ 1 + Opcode.dcti.nOut = 13 ∧
  (∀ (s : State) (i : Instr) (rest : List Word), s.mode = .ready → s.outq = [] → decode s.inq = .ok (i, rest) →
    ∃ t, step s = .next t)

/-! ## Reset, the host's events, and runs -/

/-- The values of R195 after RESET, which is enabled in every state and sets all of it (R195, R196). -/
def Obligations.ResetState : Prop :=
  State.reset = { mode := .ready, status := 0x00000000, inq := [], outq := [] } ∧
  ∀ s : State, fire .reset s = some State.reset

/-- The reset state is legal. -/
def Obligations.ResetIsLegal : Prop := State.reset.legal = true

/-- A block step keeps a state legal: STATUS as R34 and R36 have it, both queues within their capacities. -/
def Obligations.StepKeepsLegal : Prop :=
  ∀ s t : State, s.legal = true → step s = .next t → t.legal = true

/-- Every state that any interleaving of block steps and host events reaches has the STATUS and the queue lengths that R34,
R36, R37, R38 and R178 promise. -/
def Obligations.ReachableStatesAreLegal : Prop :=
  ∀ s : State, Reachable s →
    s.status &&& 0xFFFF000E = 0 ∧
    (s.mode = .ready → s.status = 0) ∧
    (s.mode = .halted → s.status.getLsbD 0 = true ∧ 2 ≤ (s.status.extractLsb' 4 4).toNat ∧
      (s.status.extractLsb' 4 4).toNat ≤ 9) ∧
    s.inRoom 0 = true ∧ s.outRoom 0 = true

/-- The host's events of R81: a push is enabled exactly while INQ holds fewer words than IN_CAP and appends its word; a pop
exactly while OUTQ is not empty, and takes its head; a STATUS read always, and changes nothing; a RESET always. -/
def Obligations.HostEvents : Prop :=
  (∀ (s t : State) (w : Word), fire (.push w) s = some t ↔
    (s.inRoom 1 = true ∧ t = { s with inq := s.inq ++ [w] })) ∧
  (∀ s t : State, fire .pop s = some t ↔ ∃ w rest, s.outq = w :: rest ∧ t = { s with outq := rest }) ∧
  (∀ (s : State) (w : Word) (rest : List Word), s.outq = w :: rest → poppedBy .pop s = [w]) ∧
  (∀ s : State, fire .readStatus s = some s ∧ s.readStatus = s.status ∧ (fire .reset s).isSome = true) ∧
  (∀ (s : State) (e : Nat), Config.inCapExtra = some e → (s.inRoom 1 = true ↔ s.inq.length < 13 + e)) ∧
  (∀ s : State, Config.inCapExtra = none → s.inRoom 1 = true)

/-- In HALTED nothing but RESET has an effect on MODE, STATUS or what is in INQ: words pushed are kept in order behind those
left there and are not consumed, pops drain OUTQ and nothing is appended to it (R204). A push is not enabled once INQ holds
IN_CAP words, and RESET discards what is in INQ. -/
def Obligations.HaltedUntilReset : Prop :=
  ∀ (s t : State) (es : List Event) (ws : List Word), s.mode = .halted → Event.reset ∉ es →
    runEvents es s = some (t, ws) →
    t.mode = .halted ∧ t.status = s.status ∧ t.inq = s.inq ++ pushedWords es ∧ s.outq = ws ++ t.outq ∧
    (∀ (w : Word) (e : Nat), Config.inCapExtra = some e → t.inq.length = 13 + e → fire (.push w) t = none) ∧
    (∃ r, fire .reset t = some r ∧ r.inq = [] ∧ r.mode = .ready)

/-- Words are never lost, reordered or duplicated: the words INQ held and the words pushed, in order, are the words of the
commands that the block steps took, followed by those left in INQ; the words OUTQ held and those of the block steps'
responses, in order, are the words popped, followed by those left in OUTQ. Without a block step nothing is taken from
INQ and nothing is put into OUTQ (R37, R38). -/
def Obligations.QueuesAreFifo : Prop :=
  ∀ (s t : State) (es : List Event) (popped : List Word), Event.reset ∉ es →
    runEvents es s = some (t, popped) →
    s.inq ++ pushedWords es = traceOf takenBy es s ++ t.inq ∧
    s.outq ++ traceOf givenBy es s = popped ++ t.outq ∧
    (Event.block ∉ es → t.inq = s.inq ++ pushedWords es ∧ s.outq = popped ++ t.outq)

/-- The response stream does not depend on the interleaving (R82): of two runs from reset, where the words pushed in one are
the first words pushed in the other, one run's stream (the words popped, then those still in OUTQ) is the beginning of the
other's. -/
def Obligations.StreamIndependentOfInterleaving : Prop :=
  ∀ (es₁ es₂ : List Event) (t₁ t₂ : State) (ws₁ ws₂ : List Word),
    Event.reset ∉ es₁ → Event.reset ∉ es₂ → pushedWords es₁ <+: pushedWords es₂ →
    runEvents es₁ State.reset = some (t₁, ws₁) → runEvents es₂ State.reset = some (t₂, ws₂) →
    (ws₁ ++ t₁.outq) <+: (ws₂ ++ t₂.outq) ∨ (ws₂ ++ t₂.outq) <+: (ws₁ ++ t₁.outq)

/-- On a weakly fair run a block step, once enabled, happens unless the host resets first (R82). -/
def Obligations.FairBlockProgress : Prop :=
  ∀ (states : Nat → State) (events : Nat → Event), IsRun states events → WeaklyFair states events →
    ∀ n, BlockEnabled (states n) → ∃ m, n ≤ m ∧ (events m = .block ∨ events m = .reset)

/-! ## Bit-field codec -/

/-- FITSU (R91): for a width up to 64, 1 exactly when `n ≤ 2^w − 1`. (Wider: FieldRange.) -/
def Obligations.FitsuResult : Prop :=
  ∀ (w : Nat) (n : DWord), w ≤ 64 → Answers (.fitsu w n) [0x00001000, if n.toNat ≤ 2 ^ w - 1 then 1 else 0]

/-- FITSS (R92): for a width up to 64, 1 exactly when `−2^(w−1) ≤ n ≤ 2^(w−1) − 1`, the bounds exact rationals, so that nothing
fits width 0. (Wider: FieldRange.) -/
def Obligations.FitssResult : Prop :=
  ∀ (w : Nat) (n : DWord), w ≤ 64 → Answers (.fitss w n)
    [0x00001100,
     if -(2 : ℚ) ^ ((w : ℤ) - 1) ≤ (n.toInt : ℚ) ∧ (n.toInt : ℚ) ≤ (2 : ℚ) ^ ((w : ℤ) - 1) - 1 then 1 else 0]

/-- GETU (R93), bit by bit: bit `k` of the result is bit `l + k` of the word for `k < w`, and 0 above. -/
def Obligations.GetuResult : Prop :=
  ∀ (w l : Nat) (word : DWord), w + l ≤ 64 → ∃ v : DWord,
    (∀ k, v.getLsbD k = (decide (k < w) && word.getLsbD (l + k))) ∧
    Answers (.getu w l word) [0x00001200, v.extractLsb' 32 32, v.extractLsb' 0 32]

/-- GETS (R94), bit by bit: as GETU below bit `w`, and the field's bit `w − 1` in every bit from `w` up; 0 when `w = 0`. -/
def Obligations.GetsResult : Prop :=
  ∀ (w l : Nat) (word : DWord), w + l ≤ 64 → ∃ v : DWord,
    (∀ k, v.getLsbD k = (decide (k < 64) && decide (0 < w) && word.getLsbD (l + min k (w - 1)))) ∧
    Answers (.gets w l word) [0x00001300, v.extractLsb' 32 32, v.extractLsb' 0 32]

/-- NEWU (R95): when the value is at most `2^w − 1`, its bits replace the field's and every other bit is the word's;
otherwise the OVERFLOW response with field 0. -/
def Obligations.NewuResult : Prop :=
  ∀ (w l : Nat) (word value : DWord), w + l ≤ 64 →
    (value.toNat ≤ 2 ^ w - 1 → ∃ v : DWord,
      (∀ k, v.getLsbD k = if l ≤ k ∧ k < l + w then value.getLsbD (k - l) else word.getLsbD k) ∧
      Answers (.newu w l word value) [0x00001400, v.extractLsb' 32 32, v.extractLsb' 0 32]) ∧
    (2 ^ w - 1 < value.toNat → Answers (.newu w l word value) [0x00001411, 0, 0])

/-- NEWS (R96): when the value fits in `w` signed bits, its low `w` bits replace the field's and every other bit is the
word's; otherwise (always, when `w = 0`) the OVERFLOW response with field 0. -/
def Obligations.NewsResult : Prop :=
  ∀ (w l : Nat) (word value : DWord), w + l ≤ 64 →
    (0 < w → -2 ^ (w - 1) ≤ value.toInt → value.toInt ≤ 2 ^ (w - 1) - 1 → ∃ v : DWord,
      (∀ k, v.getLsbD k = if l ≤ k ∧ k < l + w then value.getLsbD (k - l) else word.getLsbD k) ∧
      Answers (.news w l word value) [0x00001500, v.extractLsb' 32 32, v.extractLsb' 0 32]) ∧
    ((w = 0 ∨ value.toInt < -2 ^ (w - 1) ∨ 2 ^ (w - 1) ≤ value.toInt) →
      Answers (.news w l word value) [0x00001511, 0, 0])

/-- FIELD_RANGE (R97): FITSU and FITSS take it exactly when `w > 64`, GETU, GETS, NEWU and NEWS exactly when `w + l > 64`,
NEWU and NEWS before their fit test; a command word encodes `w` and `l` up to 127, and FITSU and FITSS leave bits 21:15
reserved. -/
def Obligations.FieldRange : Prop :=
  (∀ (w : Nat) (n : DWord), (64 < w ↔ FaultsWith (.fitsu w n) 0x10 4) ∧ (64 < w ↔ FaultsWith (.fitss w n) 0x11 4)) ∧
  (∀ (w l : Nat) (word value : DWord),
    (64 < w + l ↔ FaultsWith (.getu w l word) 0x12 4) ∧ (64 < w + l ↔ FaultsWith (.gets w l word) 0x13 4) ∧
    (64 < w + l ↔ FaultsWith (.newu w l word value) 0x14 4) ∧ (64 < w + l ↔ FaultsWith (.news w l word value) 0x15 4)) ∧
  (∀ w l : Nat, w ≤ 127 → l ≤ 127 → ∃ cmd : Word,
    opcField cmd = 0x12 ∧ cmd &&& 0xFFC00000 = 0 ∧ widthField cmd = w ∧ lsbField cmd = l) ∧
  (∀ cmd : Word, widthField cmd ≤ 127 ∧ lsbField cmd ≤ 127) ∧
  Opcode.fitsu.format.reservedMask &&& 0x003F8000 = 0x003F8000 ∧
  Opcode.fitss.format.reservedMask &&& 0x003F8000 = 0x003F8000

/-- Field disjointness (R99): an OK result of NEWU or NEWS has the word's bits outside `mask(w, l) = (2^w − 1) × 2^l`; so GETU of
a field whose mask does not meet it answers as before (R102). -/
def Obligations.FieldDisjointness : Prop :=
  (∀ (w l : Nat) (word value : DWord) (hi lo : Word), w + l ≤ 64 →
    (Answers (.newu w l word value) [0x00001400, hi, lo] ∨ Answers (.news w l word value) [0x00001500, hi, lo]) →
    join64 hi lo &&& ~~~(BitVec.ofNat 64 ((2 ^ w - 1) * 2 ^ l)) =
      word &&& ~~~(BitVec.ofNat 64 ((2 ^ w - 1) * 2 ^ l))) ∧
  (∀ (w₁ l₁ w₂ l₂ : Nat) (word value : DWord) (hi lo : Word), w₁ + l₁ ≤ 64 → w₂ + l₂ ≤ 64 →
    ((2 ^ w₁ - 1) * 2 ^ l₁) &&& ((2 ^ w₂ - 1) * 2 ^ l₂) = 0 →
    (Answers (.newu w₂ l₂ word value) [0x00001400, hi, lo] ∨ Answers (.news w₂ l₂ word value) [0x00001500, hi, lo]) →
    ∃ ws, Answers (.getu w₁ l₁ word) ws ∧ Answers (.getu w₁ l₁ (join64 hi lo)) ws)

/-- Round trips: GETU after NEWU gives back every value that FITSU says fits (R100), and GETS after NEWS every value that FITSS
says fits (R101), for every starting word; at width 0 FITSS says it of none. -/
def Obligations.FieldRoundTrips : Prop :=
  (∀ (w l : Nat) (word v : DWord), w + l ≤ 64 → Answers (.fitsu w v) [0x00001000, 1] →
    ∃ hi lo : Word, Answers (.newu w l word v) [0x00001400, hi, lo] ∧
      Answers (.getu w l (join64 hi lo)) [0x00001200, v.extractLsb' 32 32, v.extractLsb' 0 32]) ∧
  (∀ (w l : Nat) (word v : DWord), w + l ≤ 64 → Answers (.fitss w v) [0x00001100, 1] →
    ∃ hi lo : Word, Answers (.news w l word v) [0x00001500, hi, lo] ∧
      Answers (.gets w l (join64 hi lo)) [0x00001300, v.extractLsb' 32 32, v.extractLsb' 0 32]) ∧
  (∀ v : DWord, ¬ Answers (.fitss 0 v) [0x00001100, 1])

/-- Unsigned and signed views (R104): GETS is GETU where the field's top bit is 0, and GETU − 2^w where it is 1; NEWS of a
fitting value stores what NEWU stores of the value modulo 2^w. -/
def Obligations.SignedAndUnsignedViews : Prop :=
  (∀ (w l : Nat) (word : DWord), 0 < w → w + l ≤ 64 → ∃ u g : DWord,
    Answers (.getu w l word) [0x00001200, u.extractLsb' 32 32, u.extractLsb' 0 32] ∧
    Answers (.gets w l word) [0x00001300, g.extractLsb' 32 32, g.extractLsb' 0 32] ∧
    g.toInt = if word.getLsbD (l + w - 1) then (u.toNat : Int) - 2 ^ w else (u.toNat : Int)) ∧
  (∀ (w l : Nat) (word v : DWord), w + l ≤ 64 → Answers (.fitss w v) [0x00001100, 1] →
    ∃ hi lo : Word, Answers (.news w l word v) [0x00001500, hi, lo] ∧
      Answers (.newu w l word (BitVec.ofInt 64 (v.toInt % 2 ^ w))) [0x00001400, hi, lo])

/-! ## Binary32 arithmetic -/

/-- `fl(q)` (R11): the finite result is a binary32 value nearest `q`, and where another is equally near its fraction is even;
the result is ±∞ exactly from `2^128 − 2^103` on, half a spacing beyond the largest finite value. -/
def Obligations.RoundingIsNearestEven : Prop :=
  ∀ q : ℚ,
    (|q| < 2 ^ 128 - 2 ^ 103 → isFinite (flRat q) = true ∧ ∀ v : Word, isFinite v = true →
      |toRat (flRat q) - q| ≤ |toRat v - q| ∧
      (|toRat v - q| = |toRat (flRat q) - q| → toRat v ≠ toRat (flRat q) → (flRat q).getLsbD 0 = false)) ∧
    (2 ^ 128 - 2 ^ 103 ≤ |q| → flRat q = if q < 0 then 0xFF800000 else 0x7F800000)

/-- The operators before their check (R12): the exact sum, difference, product and quotient of finite operands, rounded once;
an exact zero sum is +0 unless both operands are −0; an exact zero difference is +0 unless it is (−0) ⊖ (+0), where it is
one of the two zeros (which one is log entry 6); a zero product or quotient has the exclusive-or of the signs. -/
def Obligations.OperatorsRoundOnce : Prop :=
  ∀ x y : Word, isFinite x = true → isFinite y = true →
    (toRat x + toRat y ≠ 0 → addRaw x y = flRat (toRat x + toRat y)) ∧
    (toRat x + toRat y = 0 → addRaw x y = if x = 0x80000000 ∧ y = 0x80000000 then 0x80000000 else 0x00000000) ∧
    (toRat x - toRat y ≠ 0 → subRaw x y = flRat (toRat x - toRat y)) ∧
    (toRat x - toRat y = 0 → (subRaw x y = 0x00000000 ∨ subRaw x y = 0x80000000) ∧
      (¬(x = 0x80000000 ∧ y = 0x00000000) → subRaw x y = 0x00000000)) ∧
    (toRat x * toRat y ≠ 0 → mulRaw x y = flRat (toRat x * toRat y)) ∧
    (toRat x * toRat y = 0 → mulRaw x y = if (signBit x != signBit y) then 0x80000000 else 0x00000000) ∧
    (toRat x ≠ 0 → toRat y ≠ 0 → divRaw x y = flRat (toRat x / toRat y)) ∧
    (toRat x = 0 → toRat y ≠ 0 → divRaw x y = if (signBit x != signBit y) then 0x80000000 else 0x00000000)

/-- `cvt(n)` is `fl(n)`, exact for `|n| ≤ 2^24` (R13); `rha(x)` of a finite word is `sign(x) × ⌊|x| + 1/2⌋`, with the examples of
R16. -/
def Obligations.IntegerConversions : Prop :=
  (∀ n : Int, cvt n = flRat n ∧ (|n| ≤ 2 ^ 24 → isFinite (cvt n) = true ∧ toRat (cvt n) = n)) ∧
  (∀ x : Word, isFinite x = true → rha x = (if toRat x < 0 then -1 else 1) * ⌊|toRat x| + 1 / 2⌋) ∧
  rha 0x40200000 = 3 ∧ rha 0xC0200000 = -3 ∧ rha 0x3EFFFFFF = 0 ∧ rha 0x80000000 = 0

/-- Every command that reads F32 operands takes NON_FINITE (cause 7) when one of them is NaN or infinite, that is, when bits
30:23 of its word are 0xFF (R10), before any other check of its own (R172, R173); and `isFinite` of the other statements
says that they are not. -/
def Obligations.NonFiniteOperandFaults : Prop :=
  (∀ x : Word, isFinite x = true ↔ x.extractLsb' 23 8 ≠ 0xFF) ∧
  (∀ (p : YppPixel) (den : Word), (∃ x ∈ [p.y, p.pb, p.pr], x.extractLsb' 23 8 = 0xFF) →
    FaultsWith (.ypp2rgb p den) 0x21 7) ∧
  (∀ p1 p2 p3 p4 : YppPixel,
    (∃ x ∈ [p1.y, p1.pb, p1.pr, p2.y, p2.pb, p2.pr, p3.y, p3.pb, p3.pr, p4.y, p4.pb, p4.pr], x.extractLsb' 23 8 = 0xFF) →
    FaultsWith (.dctf p1 p2 p3 p4) 0x30 7) ∧
  (∀ t : TransformBlock, (∃ x ∈ [t.a, t.b, t.c, t.d, t.avgPb, t.avgPr], x.extractLsb' 23 8 = 0xFF) →
    FaultsWith (.dcti t) 0x31 7 ∧ FaultsWith (.quant t) 0x40 7) ∧
  (∀ x : Word, x.extractLsb' 23 8 = 0xFF → FaultsWith (.chridx x) 0x42 7)

/-! ## Colour transform -/

/-- RGB2YPP (R112, R113): for every legal pixel it answers the unclamped values of the three matrix rows, so that no clamp
changes a value and no intermediate is non-finite; Y lies in [0, 1], Pb and Pr in [−0.5, 0.5], none is −0, and the
extreme sums of the coefficients are exact. -/
def Obligations.RgbToYppResult : Prop :=
  (∀ (p : RgbPixel) (den : Word), 1 ≤ den.toNat → den.toNat ≤ 65535 →
    p.r.toNat ≤ den.toNat → p.g.toNat ≤ den.toNat → p.b.toNat ≤ den.toNat →
    let dn := cvt den.toNat
    let r := divRaw (cvt p.r.toNat) dn
    let g := divRaw (cvt p.g.toNat) dn
    let b := divRaw (cvt p.b.toNat) dn
    let y := addRaw (addRaw (mulRaw 0x3E991687 r) (mulRaw 0x3F1645A2 g)) (mulRaw 0x3DE978D5 b)
    let pb := addRaw (addRaw (mulRaw 0xBE2CC921 r) (mulRaw 0xBEA99B6F g)) (mulRaw 0x3F000000 b)
    let pr := addRaw (addRaw (mulRaw 0x3F000000 r) (mulRaw 0xBED65E46 g)) (mulRaw 0xBDA686E8 b)
    Answers (.rgb2ypp p den) [0x00002000, y, pb, pr] ∧
    0 ≤ toRat y ∧ toRat y ≤ 1 ∧ |toRat pb| ≤ 1 / 2 ∧ |toRat pr| ≤ 1 / 2 ∧
    y ≠ 0x80000000 ∧ pb ≠ 0x80000000 ∧ pr ≠ 0x80000000) ∧
  addRaw (addRaw 0x3E991687 0x3F1645A2) 0x3DE978D5 = 0x3F800000 ∧
  addRaw 0xBE2CC921 0xBEA99B6F = 0xBF000000 ∧ addRaw 0xBED65E46 0xBDA686E8 = 0xBF000000 ∧
  addRaw (addRaw 0xBE2CC921 0xBEA99B6F) 0x3F000000 = 0x00000000 ∧
  addRaw (addRaw 0x3F000000 0xBED65E46) 0xBDA686E8 = 0x00000000

/-- RGB2YPP's faults (R112, R172): DENOMINATOR (5) for den = 0 or den > 65535, whatever the samples; SAMPLE_RANGE (6) for a
legal den and a sample above it. -/
def Obligations.RgbToYppFaults : Prop :=
  ∀ (p : RgbPixel) (den : Word),
    (den.toNat = 0 ∨ 65535 < den.toNat → FaultsWith (.rgb2ypp p den) 0x20 5) ∧
    (1 ≤ den.toNat → den.toNat ≤ 65535 →
      (den.toNat < p.r.toNat ∨ den.toNat < p.g.toNat ∨ den.toNat < p.b.toNat) →
      FaultsWith (.rgb2ypp p den) 0x20 6)

/-- YPP2RGB (R114, R115): for finite operands and a legal den it answers the three rounded samples when every intermediate
is finite, and takes NON_FINITE (7) otherwise; an illegal den is DENOMINATOR (5). Operands of magnitude at most 2^126
keep every intermediate finite, and each sample is at most den. -/
def Obligations.YppToRgbResult : Prop :=
  ∀ (p : YppPixel) (den : Word), isFinite p.y = true → isFinite p.pb = true → isFinite p.pr = true →
    (den.toNat = 0 ∨ 65535 < den.toNat → FaultsWith (.ypp2rgb p den) 0x21 5) ∧
    (1 ≤ den.toNat → den.toNat ≤ 65535 →
      let r := addRaw p.y (mulRaw 0x3FB374BC p.pr)
      let g := subRaw (subRaw p.y (mulRaw 0x3EB03298 p.pb)) (mulRaw 0x3F36D19E p.pr)
      let b := addRaw p.y (mulRaw 0x3FE2D0E5 p.pb)
      let steps := [mulRaw 0x3FB374BC p.pr, r, mulRaw 0x3EB03298 p.pb, subRaw p.y (mulRaw 0x3EB03298 p.pb),
        mulRaw 0x3F36D19E p.pr, g, mulRaw 0x3FE2D0E5 p.pb, b]
      let sample := fun x => rha (mulRaw (clamp x 0x00000000 0x3F800000) (cvt den.toNat))
      (allFinite steps = true →
        Answers (.ypp2rgb p den) [0x00002100, BitVec.ofInt 32 (sample r), BitVec.ofInt 32 (sample g), BitVec.ofInt 32 (sample b)] ∧
        ∀ x ∈ [r, g, b], 0 ≤ sample x ∧ sample x ≤ den.toNat) ∧
      (allFinite steps = false → FaultsWith (.ypp2rgb p den) 0x21 7) ∧
      (|toRat p.y| ≤ 2 ^ 126 → |toRat p.pb| ≤ 2 ^ 126 → |toRat p.pr| ≤ 2 ^ 126 → allFinite steps = true))

/-- The colour round trip (R118): for every legal pixel and den, YPP2RGB of RGB2YPP differs from the pixel by at most 2 in
each channel. -/
def Obligations.ColourRoundTrip : Prop :=
  ∀ (p : RgbPixel) (den : Word), 1 ≤ den.toNat → den.toNat ≤ 65535 →
    p.r.toNat ≤ den.toNat → p.g.toNat ≤ den.toNat → p.b.toNat ≤ den.toNat →
    ∃ y pb pr r g b : Word, Answers (.rgb2ypp p den) [0x00002000, y, pb, pr] ∧
      Answers (.ypp2rgb ⟨y, pb, pr⟩ den) [0x00002100, r, g, b] ∧
      |(r.toNat : Int) - p.r.toNat| ≤ 2 ∧ |(g.toNat : Int) - p.g.toNat| ≤ 2 ∧ |(b.toNat : Int) - p.b.toNat| ≤ 2

/-! ## Block transform -/

/-- The partial results of `h (g (f x1 x2) x3) x4`, in evaluation order. -/
def Sys2Proof.chain4 (f g h : Word → Word → Word) (x1 x2 x3 x4 : Word) : List Word :=
  [f x1 x2, g (f x1 x2) x3, h (g (f x1 x2) x3) x4]

/-- The last of the partial results. -/
def Sys2Proof.chain4Last (f g h : Word → Word → Word) (x1 x2 x3 x4 : Word) : Word := h (g (f x1 x2) x3) x4

/-- DCTF (R127): with finite operands it answers the six quotients by 4 of the sums in the order the rule shows, when every
partial sum is finite, and takes NON_FINITE (7) otherwise. -/
def Obligations.DctfResult : Prop :=
  ∀ p1 p2 p3 p4 : YppPixel, allFinite (p1.words ++ p2.words ++ p3.words ++ p4.words) = true →
    let sums := chain4 addRaw addRaw addRaw p1.y p2.y p3.y p4.y ++ chain4 addRaw subRaw subRaw p4.y p3.y p2.y p1.y ++
      chain4 subRaw addRaw subRaw p4.y p3.y p2.y p1.y ++ chain4 subRaw subRaw addRaw p4.y p3.y p2.y p1.y ++
      chain4 addRaw addRaw addRaw p1.pb p2.pb p3.pb p4.pb ++ chain4 addRaw addRaw addRaw p1.pr p2.pr p3.pr p4.pr
    (allFinite sums = true → Answers (.dctf p1 p2 p3 p4)
      [0x00003000,
       divRaw (chain4Last addRaw addRaw addRaw p1.y p2.y p3.y p4.y) 0x40800000,
       divRaw (chain4Last addRaw subRaw subRaw p4.y p3.y p2.y p1.y) 0x40800000,
       divRaw (chain4Last subRaw addRaw subRaw p4.y p3.y p2.y p1.y) 0x40800000,
       divRaw (chain4Last subRaw subRaw addRaw p4.y p3.y p2.y p1.y) 0x40800000,
       divRaw (chain4Last addRaw addRaw addRaw p1.pb p2.pb p3.pb p4.pb) 0x40800000,
       divRaw (chain4Last addRaw addRaw addRaw p1.pr p2.pr p3.pr p4.pr) 0x40800000]) ∧
    (allFinite sums = false → FaultsWith (.dctf p1 p2 p3 p4) 0x30 7)

/-- DCTI (R129): with finite operands it answers the four pixels, the chroma words being the operand words bit for bit, when
every partial sum is finite, and takes NON_FINITE (7) otherwise. -/
def Obligations.DctiResult : Prop :=
  ∀ t : TransformBlock, allFinite t.words = true →
    let sums := chain4 subRaw subRaw addRaw t.a t.b t.c t.d ++ chain4 subRaw addRaw subRaw t.a t.b t.c t.d ++
      chain4 addRaw subRaw subRaw t.a t.b t.c t.d ++ chain4 addRaw addRaw addRaw t.a t.b t.c t.d
    (allFinite sums = true → Answers (.dcti t)
      [0x00003100,
       chain4Last subRaw subRaw addRaw t.a t.b t.c t.d, t.avgPb, t.avgPr,
       chain4Last subRaw addRaw subRaw t.a t.b t.c t.d, t.avgPb, t.avgPr,
       chain4Last addRaw subRaw subRaw t.a t.b t.c t.d, t.avgPb, t.avgPr,
       chain4Last addRaw addRaw addRaw t.a t.b t.c t.d, t.avgPb, t.avgPr]) ∧
    (allFinite sums = false → FaultsWith (.dcti t) 0x31 7)

/-- Operands of magnitude at most 2^125 keep every partial sum of DCTF and DCTI finite, so both complete on them (R127, R129). -/
def Obligations.TransformsComplete : Prop :=
  (∀ p1 p2 p3 p4 : YppPixel,
    (∀ x ∈ p1.words ++ p2.words ++ p3.words ++ p4.words, isFinite x = true ∧ |toRat x| ≤ 2 ^ 125) →
    ∃ ws, Answers (.dctf p1 p2 p3 p4) (0x00003000 :: ws)) ∧
  (∀ t : TransformBlock, (∀ x ∈ t.words, isFinite x = true ∧ |toRat x| ≤ 2 ^ 125) →
    ∃ ws, Answers (.dcti t) (0x00003100 :: ws))

/-- DCTF ranges (R128): luma in [0, 1] and chroma in [−0.5, 0.5] give a in [0, 1], b, c, d in [−0.5, 0.5] and the chroma
averages in [−0.5, 0.5]. -/
def Obligations.DctfRanges : Prop :=
  ∀ p1 p2 p3 p4 : YppPixel,
    (∀ p ∈ [p1, p2, p3, p4], allFinite p.words = true ∧ 0 ≤ toRat p.y ∧ toRat p.y ≤ 1 ∧
      |toRat p.pb| ≤ 1 / 2 ∧ |toRat p.pr| ≤ 1 / 2) →
    ∃ t : TransformBlock, Answers (.dctf p1 p2 p3 p4) (0x00003000 :: t.words) ∧ allFinite t.words = true ∧
      0 ≤ toRat t.a ∧ toRat t.a ≤ 1 ∧ |toRat t.b| ≤ 1 / 2 ∧ |toRat t.c| ≤ 1 / 2 ∧ |toRat t.d| ≤ 1 / 2 ∧
      |toRat t.avgPb| ≤ 1 / 2 ∧ |toRat t.avgPr| ≤ 1 / 2

/-- Chroma is averaged, not transformed (R132): DCTI of DCTF's results gives every pixel the tile's mean chroma, the sums of
the four values in index order divided by 4. -/
def Obligations.ChromaIsAveraged : Prop :=
  ∀ (p1 p2 p3 p4 q1 q2 q3 q4 : YppPixel) (t : TransformBlock),
    Answers (.dctf p1 p2 p3 p4) (0x00003000 :: t.words) →
    Answers (.dcti t) (0x00003100 :: (q1.words ++ q2.words ++ q3.words ++ q4.words)) →
    t.avgPb = divRaw (addRaw (addRaw (addRaw p1.pb p2.pb) p3.pb) p4.pb) 0x40800000 ∧
    t.avgPr = divRaw (addRaw (addRaw (addRaw p1.pr p2.pr) p3.pr) p4.pr) 0x40800000 ∧
    ∀ q ∈ [q1, q2, q3, q4], q.pb = t.avgPb ∧ q.pr = t.avgPr

/-- The exact case of R131: where the four luma values are multiples of one power of two with numerators of at most 21 bits,
every sum is exact and DCTI(DCTF(tile)) has the tile's luma values. -/
def Obligations.DyadicTileRoundTrip : Prop :=
  ∀ (m : Nat) (n : Fin 4 → Nat) (p1 p2 p3 p4 : YppPixel), m ≤ 120 → (∀ k, n k ≤ 2 ^ 21) →
    allFinite (p1.words ++ p2.words ++ p3.words ++ p4.words) = true →
    (∀ p ∈ [p1, p2, p3, p4], |toRat p.pb| ≤ 1 / 2 ∧ |toRat p.pr| ≤ 1 / 2) →
    toRat p1.y = n 0 / 2 ^ m → toRat p2.y = n 1 / 2 ^ m → toRat p3.y = n 2 / 2 ^ m → toRat p4.y = n 3 / 2 ^ m →
    ∃ (t : TransformBlock) (q1 q2 q3 q4 : YppPixel), Answers (.dctf p1 p2 p3 p4) (0x00003000 :: t.words) ∧
      Answers (.dcti t) (0x00003100 :: (q1.words ++ q2.words ++ q3.words ++ q4.words)) ∧
      toRat q1.y = toRat p1.y ∧ toRat q2.y = toRat p2.y ∧ toRat q3.y = toRat p3.y ∧ toRat q4.y = toRat p4.y

/-! ## Quantizer and chroma table -/

/-- QUANT (R137): finite operands with a in [0, 1] answer the two rounded operations and `rha` of each coefficient, and the
chroma indices CHRIDX answers; finite operands take LUMA_RANGE (8) exactly when a is below 0 or above 1, so −0 passes. -/
def Obligations.QuantResult : Prop :=
  ∀ t : TransformBlock, allFinite t.words = true →
    let diff := fun x =>
      BitVec.ofInt 32 (rha (divRaw (mulRaw (clamp x 0xBE99999A 0x3E99999A) 0x41700000) 0x3E99999A))
    (0 ≤ toRat t.a → toRat t.a ≤ 1 → ∃ i j : Fin 16,
      Answers (.quant t) [0x00004000, BitVec.ofInt 32 (rha (mulRaw t.a 0x43FF8000)), diff t.b, diff t.c, diff t.d,
        BitVec.ofNat 32 i.val, BitVec.ofNat 32 j.val] ∧
      Answers (.chridx t.avgPb) [0x00004200, BitVec.ofNat 32 i.val] ∧
      Answers (.chridx t.avgPr) [0x00004200, BitVec.ofNat 32 j.val]) ∧
    ((toRat t.a < 0 ∨ 1 < toRat t.a) ↔ FaultsWith (.quant t) 0x40 8)

/-- QUANT's result ranges (R138): codes in [0, 511], [−15, 15] and [0, 15], the extreme quotient being 14.999999, so that PACK
of a QUANT result never overflows. -/
def Obligations.QuantRanges : Prop :=
  (∀ (t : TransformBlock) (q : QuantBlock), Answers (.quant t) (0x00004000 :: q.words) →
    q.qa.toNat ≤ 511 ∧ (∀ x ∈ [q.qb, q.qc, q.qd], -15 ≤ x.toInt ∧ x.toInt ≤ 15) ∧
    q.qpb.toNat ≤ 15 ∧ q.qpr.toNat ≤ 15 ∧ ∃ w, Answers (.pack q) [0x00005000, w]) ∧
  divRaw (mulRaw 0x3E99999A 0x41700000) 0x3E99999A = 0x416FFFFF ∧ rha 0x416FFFFF = 15 ∧
  divRaw (mulRaw 0xBE99999A 0x41700000) 0x3E99999A = 0xC16FFFFF ∧ rha 0xC16FFFFF = -15

/-- The examples of R139: the code is `rha` of the binary32 result. 0.01f gives 0.49999994 and 0; 0.03f gives 1.4999999 and 1;
a = 0.5 gives 255.5 and 256. -/
def Obligations.QuantExamples : Prop :=
  divRaw (mulRaw 0x3C23D70A 0x41700000) 0x3E99999A = 0x3EFFFFFE ∧
  divRaw (mulRaw 0x3CF5C28F 0x41700000) 0x3E99999A = 0x3FBFFFFF ∧
  mulRaw 0x3F000000 0x43FF8000 = 0x437F8000 ∧
  ∃ i j : Word, Answers (.quant ⟨0x3F000000, 0x3C23D70A, 0x3CF5C28F, 0, 0, 0⟩) [0x00004000, 256, 0, 1, 0, i, j]

/-- DEQUANT (R140, R141): it accepts exactly qa in [0, 511], qb, qc, qd in [−16, 15] and qpb, qpr in [0, 15], and answers the
rounded law and the two table levels; any other code is CODE_RANGE (9). Every UNPACK result is accepted. -/
def Obligations.DequantResult : Prop :=
  (∀ q : QuantBlock,
    let legal := q.qa.toNat ≤ 511 ∧ (∀ x ∈ [q.qb, q.qc, q.qd], -16 ≤ x.toInt ∧ x.toInt ≤ 15) ∧
      q.qpb.toNat ≤ 15 ∧ q.qpr.toNat ≤ 15
    let diff := fun x : Word => divRaw (mulRaw (cvt x.toInt) 0x3E99999A) 0x41700000
    (legal → ∃ i j : Fin 16, q.qpb.toNat = i.val ∧ q.qpr.toNat = j.val ∧
      Answers (.dequant q) [0x00004100, divRaw (cvt q.qa.toNat) 0x43FF8000, diff q.qb, diff q.qc, diff q.qd,
        chromaLut i, chromaLut j]) ∧
    (¬ legal → FaultsWith (.dequant q) 0x41 9)) ∧
  (∀ (word : Word) (q : QuantBlock), Answers (.unpack word) (0x00005100 :: q.words) →
    ∃ t : TransformBlock, Answers (.dequant q) (0x00004100 :: t.words))

/-- Idempotence (R144): QUANT(DEQUANT(QUANT(x))) = QUANT(x); and for every code a word can hold, QUANT(DEQUANT(q)) gives the
code back, but −15 for −16. -/
def Obligations.QuantIdempotent : Prop :=
  (∀ (t : TransformBlock) (q : QuantBlock), Answers (.quant t) (0x00004000 :: q.words) →
    ∃ t' : TransformBlock, Answers (.dequant q) (0x00004100 :: t'.words) ∧ Answers (.quant t') (0x00004000 :: q.words)) ∧
  (∀ q : QuantBlock, q.qa.toNat ≤ 511 → (∀ x ∈ [q.qb, q.qc, q.qd], -16 ≤ x.toInt ∧ x.toInt ≤ 15) →
    q.qpb.toNat ≤ 15 → q.qpr.toNat ≤ 15 →
    ∃ (t : TransformBlock) (q' : QuantBlock), Answers (.dequant q) (0x00004100 :: t.words) ∧
      Answers (.quant t) (0x00004000 :: q'.words) ∧ q'.qa = q.qa ∧ q'.qpb = q.qpb ∧ q'.qpr = q.qpr ∧
      q'.qb.toInt = max (-15) q.qb.toInt ∧ q'.qc.toInt = max (-15) q.qc.toInt ∧ q'.qd.toInt = max (-15) q.qd.toInt)

/-- CHRIDX (R142, R145): for a finite value, the index of a level at the least exact distance, and the lowest such index. -/
def Obligations.ChridxNearestLevel : Prop :=
  ∀ x : Word, isFinite x = true → ∃ i : Fin 16, Answers (.chridx x) [0x00004200, BitVec.ofNat 32 i.val] ∧
    ∀ j : Fin 16, |toRat x - toRat (chromaLut i)| ≤ |toRat x - toRat (chromaLut j)| ∧
      (|toRat x - toRat (chromaLut i)| = |toRat x - toRat (chromaLut j)| → i ≤ j)

/-- CHROMA_LUT meets the constraints of R146, whatever table the hardware was built with, hence CHRIDX of a level is its index;
CHRVAL of an index is the table's level, bit for bit (R143, R147), and CODE_RANGE (9) above 15. -/
def Obligations.ChromaTableIsLegal : Prop :=
  (∀ i : Fin 16, isFinite (chromaLut i) = true) ∧
  (∀ i j : Fin 16, i < j → toRat (chromaLut i) < toRat (chromaLut j)) ∧
  (∀ i : Fin 16, Answers (.chridx (chromaLut i)) [0x00004200, BitVec.ofNat 32 i.val]) ∧
  (∀ i : Fin 16, Answers (.chrval (BitVec.ofNat 32 i.val)) [0x00004300, chromaLut i]) ∧
  (∀ index : Word, 15 < index.toNat → FaultsWith (.chrval index) 0x43 9)

/-! ## Packer and serializer -/

/-- The code word layout (R160): a in bits 31:23, b in 22:18, c in 17:13, d in 12:8, avgPb in 7:4, avgPr in 3:0. PACK (R161) of
six codes in range answers that word, and otherwise the OVERFLOW response names the lowest field that does not fit; UNPACK
(R162) answers the unsigned fields zero-extended and the signed ones sign-extended. -/
def Obligations.CodeWordLayout : Prop :=
  (∀ q : QuantBlock,
    let fits : List Bool := [q.qa.toNat ≤ 511, -16 ≤ q.qb.toInt ∧ q.qb.toInt ≤ 15, -16 ≤ q.qc.toInt ∧ q.qc.toInt ≤ 15,
      -16 ≤ q.qd.toInt ∧ q.qd.toInt ≤ 15, q.qpb.toNat ≤ 15, q.qpr.toNat ≤ 15]
    (fits.all id = true → Answers (.pack q)
      [0x00005000, BitVec.ofInt 32 (q.qa.toNat * 2 ^ 23 + q.qb.toInt % 32 * 2 ^ 18 + q.qc.toInt % 32 * 2 ^ 13 +
        q.qd.toInt % 32 * 2 ^ 8 + q.qpb.toNat * 2 ^ 4 + q.qpr.toNat)]) ∧
    (∀ f : Fin 6, (∀ k < f.val, fits.getD k false = true) → fits.getD f.val false = false →
      Answers (.pack q) [BitVec.ofNat 32 (f.val * 65536 + 0x00005011), 0])) ∧
  (∀ w : Word, Answers (.unpack w)
    [0x00005100, (w.extractLsb' 23 9).setWidth 32, (w.extractLsb' 18 5).signExtend 32,
     (w.extractLsb' 13 5).signExtend 32, (w.extractLsb' 8 5).signExtend 32,
     (w.extractLsb' 4 4).setWidth 32, (w.extractLsb' 0 4).setWidth 32])

/-- PACK and UNPACK are inverse (R163): UNPACK of PACK gives any in-range codes back, and PACK of UNPACK gives any word back. -/
def Obligations.PackUnpackInverse : Prop :=
  (∀ q : QuantBlock, q.qa.toNat ≤ 511 → (∀ x ∈ [q.qb, q.qc, q.qd], -16 ≤ x.toInt ∧ x.toInt ≤ 15) →
    q.qpb.toNat ≤ 15 → q.qpr.toNat ≤ 15 →
    ∃ w, Answers (.pack q) [0x00005000, w] ∧ Answers (.unpack w) (0x00005100 :: q.words)) ∧
  (∀ w : Word, ∃ q : QuantBlock, Answers (.unpack w) (0x00005100 :: q.words) ∧ Answers (.pack q) [0x00005000, w])

/-- Big-endian serialization (R52): byte k of a word is `w[31−8k : 24−8k]`; SERBE answers the four in emission order, and
DESERBE of bytes joins them in that order and takes CODE_RANGE (9) when one is above 255; each undoes the other (R166). -/
def Obligations.BigEndianBytes : Prop :=
  (∀ w : Word, Answers (.serbe w)
    [0x00005200, (w.extractLsb' 24 8).setWidth 32, (w.extractLsb' 16 8).setWidth 32,
     (w.extractLsb' 8 8).setWidth 32, (w.extractLsb' 0 8).setWidth 32]) ∧
  (∀ b0 b1 b2 b3 : Word,
    (b0.toNat ≤ 255 → b1.toNat ≤ 255 → b2.toNat ≤ 255 → b3.toNat ≤ 255 →
      ∃ w : Word, w.toNat = b0.toNat * 2 ^ 24 + b1.toNat * 2 ^ 16 + b2.toNat * 2 ^ 8 + b3.toNat ∧
        Answers (.deserbe b0 b1 b2 b3) [0x00005300, w] ∧ Answers (.serbe w) [0x00005200, b0, b1, b2, b3]) ∧
    (255 < b0.toNat ∨ 255 < b1.toNat ∨ 255 < b2.toNat ∨ 255 < b3.toNat →
      FaultsWith (.deserbe b0 b1 b2 b3) 0x53 9)) ∧
  (∀ w : Word, ∃ b0 b1 b2 b3 : Word, Answers (.serbe w) [0x00005200, b0, b1, b2, b3] ∧
    Answers (.deserbe b0 b1 b2 b3) [0x00005300, w])

/-- The faults that cannot occur (R174), in no state: NON_FINITE in RGB2YPP, in QUANT of finite operands and in DEQUANT;
FIELD_RANGE in PACK, UNPACK, SERBE and DESERBE; Overflow of PACK on a QUANT result. -/
def Obligations.ImpossibleFaults : Prop :=
  (∀ (p : RgbPixel) (den : Word), NeverFaultsWith (.rgb2ypp p den) 0x20 7) ∧
  (∀ t : TransformBlock, allFinite t.words = true → NeverFaultsWith (.quant t) 0x40 7) ∧
  (∀ q : QuantBlock, NeverFaultsWith (.dequant q) 0x41 7) ∧
  (∀ q : QuantBlock, NeverFaultsWith (.pack q) 0x50 4) ∧
  (∀ w : Word, NeverFaultsWith (.unpack w) 0x51 4 ∧ NeverFaultsWith (.serbe w) 0x52 4) ∧
  (∀ b0 b1 b2 b3 : Word, NeverFaultsWith (.deserbe b0 b1 b2 b3) 0x53 4) ∧
  (∀ (t : TransformBlock) (q : QuantBlock) (f : Nat), f < 6 → Answers (.quant t) (0x00004000 :: q.words) →
    ∀ s s' : State, exec (.pack q) s = .next s' →
      s'.outq ≠ s.outq ++ [BitVec.ofNat 32 (f * 65536 + 0x00005011), 0])

/-! ## The host's stream -/

/-- Stream length (R210): a compressed image has one code word for each tile of the trimmed image, and four bytes for each code
word; a 2×2 image gives one word and a 4×2 image two words, 8 bytes. -/
def Obligations.StreamLength : Prop :=
  (∀ (L : ChromaTable) (den : Word) (width height : Nat) (px : Nat → Nat → RgbPixel) (ws bytes : List Word),
    compressWords L den width height px = .ok ws → compressBytes L den width height px = .ok bytes →
    ws.length = (width / 2) * (height / 2) ∧ bytes.length = 4 * ((width / 2) * (height / 2))) ∧
  (tileOrder 2 2).length = 1 ∧ (tileOrder 4 2).length = 2
end

