-- ==== Sys2Proof/Laws/Binary32.lean ====
section
/-! SUPPORT. The rounding of Machine/Binary32.lean in exact integers: what `nearestEven` is, that the rounded bits grow with the
value, and which value the rounded word denotes. -/

namespace Sys2Proof.Machine.Binary32

/-! ## `nearestEven` -/

/-- `nearestEven num den` is within half of `den`. -/
theorem nearestEven_bound (num den : Nat) (h : 0 < den) :
    2 * num ≤ (2 * nearestEven num den + 1) * den ∧ (2 * nearestEven num den) * den ≤ 2 * num + den := by
  have hdiv := Nat.div_add_mod num den
  have hmod := Nat.mod_lt num h
  unfold nearestEven
  simp only
  set q := num / den
  set r := num % den
  have hq : den * q = q * den := Nat.mul_comm _ _
  split
  · rename_i hc
    have : 2 * r ≤ den := by omega
    constructor <;> nlinarith
  · rename_i hc
    have : den ≤ 2 * r := by omega
    constructor <;> nlinarith

/-- Half a `den` away on either side, the even integer is taken. -/
theorem nearestEven_tie (num den : Nat) (h : 0 < den)
    (htie : 2 * num = (2 * nearestEven num den + 1) * den ∨ 2 * num + den = 2 * nearestEven num den * den) :
    nearestEven num den % 2 = 0 := by
  have hdiv := Nat.div_add_mod num den
  have hmod := Nat.mod_lt num h
  unfold nearestEven at htie ⊢
  simp only at htie ⊢
  set q := num / den
  set r := num % den
  have hq : den * q = q * den := Nat.mul_comm _ _
  split at htie
  · rename_i hc
    rw [if_pos hc]
    rcases hc with hc | ⟨hc, he⟩
    · rcases htie with ht | ht <;> nlinarith
    · exact he
  · rename_i hc
    rw [if_neg hc]
    push Not at hc
    rcases htie with ht | ht
    · nlinarith
    · have : 2 * r = den := by nlinarith
      have := hc.2 this
      omega

theorem nearestEven_mono {m n den : Nat} (h : m ≤ n) (hd : 0 < den) : nearestEven m den ≤ nearestEven n den := by
  have hm := nearestEven_bound m den hd
  have hn := nearestEven_bound n den hd
  by_contra hlt
  push Not at hlt
  have h1 : nearestEven n den + 1 ≤ nearestEven m den := hlt
  have h2 : 2 * (nearestEven n den + 1) * den ≤ 2 * nearestEven m den * den := by
    apply Nat.mul_le_mul_right; omega
  have h3 : 2 * m = 2 * n := by nlinarith
  have : m = n := by omega
  subst this
  omega

/-- A number of whole `den`s is taken as it is. -/
theorem nearestEven_mul (k den : Nat) (hd : 0 < den) : nearestEven (k * den) den = k := by
  simp [nearestEven, Nat.mul_div_cancel _ hd, hd]

theorem nearestEven_scale (num den c : Nat) (hc : 0 < c) :
    nearestEven (num * c) (den * c) = nearestEven num den := by
  unfold nearestEven
  simp only [Nat.mul_div_mul_right _ _ hc, Nat.mul_mod_mul_right]
  have h1 : (2 * (num % den * c) < den * c) ↔ (2 * (num % den) < den) := by
    rw [← Nat.mul_assoc]; exact Nat.mul_lt_mul_right hc
  have h2 : (2 * (num % den * c) = den * c) ↔ (2 * (num % den) = den) := by
    rw [← Nat.mul_assoc]; exact Nat.mul_left_inj (by omega)
  simp only [h1, h2]

/-- Rounding depends on the quotient alone. -/
theorem fl_scale (neg : Bool) (num den c : Nat) (hc : 0 < c) : fl neg (num * c) (den * c) = fl neg num den := by
  have h : ∀ k, nearestEven (num * c) (den * c * 2 ^ k) = nearestEven num (den * 2 ^ k) := by
    intro k
    rw [show den * c * 2 ^ k = den * 2 ^ k * c by ring]
    exact nearestEven_scale _ _ _ hc
  simp only [fl, nearestBits, ulpExp, Nat.mul_div_mul_right _ _ hc, h]

/-! ## The fields of a word given by its bits -/

theorem toNat_ofBits (neg : Bool) {m : Nat} (h : m < 2 ^ 31) :
    (ofBits neg m).toNat = (if neg then 2 ^ 31 else 0) + m := by
  unfold ofBits
  rw [BitVec.toNat_ofNat]
  apply Nat.mod_eq_of_lt
  split <;> omega

theorem signBit_ofBits (neg : Bool) {m : Nat} (h : m < 2 ^ 31) : signBit (ofBits neg m) = neg := by
  unfold signBit
  rw [BitVec.getLsbD, toNat_ofBits neg h, Nat.testBit_eq_decide_div_mod_eq]
  cases neg <;> simp <;> omega

theorem expField_ofBits (neg : Bool) {m : Nat} (h : m < 2 ^ 31) : expField (ofBits neg m) = m / 2 ^ 23 := by
  unfold expField
  rw [BitVec.extractLsb'_toNat, toNat_ofBits neg h, Nat.shiftRight_eq_div_pow]
  cases neg <;> simp <;> omega

theorem fracField_ofBits (neg : Bool) {m : Nat} (h : m < 2 ^ 31) : fracField (ofBits neg m) = m % 2 ^ 23 := by
  unfold fracField
  rw [BitVec.extractLsb'_toNat, toNat_ofBits neg h, Nat.shiftRight_eq_div_pow]
  cases neg <;> simp
  omega

theorem isFinite_ofBits (neg : Bool) {m : Nat} (h : m < 2 ^ 31) :
    isFinite (ofBits neg m) = true ↔ m < infBits := by
  unfold isFinite infBits
  rw [expField_ofBits neg h, bne_iff_ne]
  omega

/-- The magnitude whose bits 30:0 are `m`. -/
def magOfBits (m : Nat) : Nat :=
  if m / 2 ^ 23 = 0 then m % 2 ^ 23 else (2 ^ 23 + m % 2 ^ 23) * 2 ^ (m / 2 ^ 23 - 1)

theorem magnitude_ofBits (neg : Bool) {m : Nat} (h : m < 2 ^ 31) : magnitude (ofBits neg m) = magOfBits m := by
  unfold magnitude magOfBits
  rw [expField_ofBits neg h, fracField_ofBits neg h]

/-- The bits of `k` whole spacings above the bottom of binade `e`. -/
theorem magOfBits_add {e k : Nat} (hk : k ≤ 2 ^ 24) (he : e = 0 ∨ 2 ^ 23 ≤ k) :
    magOfBits (e * 2 ^ 23 + k) = k * 2 ^ e := by
  unfold magOfBits
  by_cases h24 : k = 2 ^ 24
  · subst h24
    have h1 : (e * 2 ^ 23 + 2 ^ 24) / 2 ^ 23 = e + 2 := by omega
    have h2 : (e * 2 ^ 23 + 2 ^ 24) % 2 ^ 23 = 0 := by omega
    rw [h1, h2, if_neg (by omega), show e + 2 - 1 = e + 1 by omega, Nat.pow_succ]
    ring
  · by_cases h23 : k < 2 ^ 23
    · have : e = 0 := by omega
      subst this
      have h1 : (0 * 2 ^ 23 + k) / 2 ^ 23 = 0 := by omega
      have h2 : (0 * 2 ^ 23 + k) % 2 ^ 23 = k := by omega
      rw [h1, h2]; simp
    · have h1 : (e * 2 ^ 23 + k) / 2 ^ 23 = e + 1 := by omega
      have h2 : (e * 2 ^ 23 + k) % 2 ^ 23 = k - 2 ^ 23 := by omega
      rw [h1, h2, if_neg (by omega), show e + 1 - 1 = e by omega, Nat.add_sub_cancel' (by omega)]

/-! ## The spacing, and the rounded word -/

/-- Above the lowest binade the quotient has at least 24 bits: `2^23` spacings or more. -/
theorem pow_le_of_ulpExp_pos {num den : Nat} (h : 0 < ulpExp num den) :
    2 ^ 23 * (den * 2 ^ ulpExp num den) ≤ num := by
  have hq : num / den ≠ 0 := by
    intro h0
    simp [ulpExp, h0] at h
  have hlog : Nat.log2 (num / den) = ulpExp num den + 23 := by unfold ulpExp at *; omega
  have h1 : 2 ^ (ulpExp num den + 23) ≤ num / den := hlog ▸ Nat.log2_self_le hq
  have h2 := Nat.mul_le_of_le_div _ _ _ h1
  calc 2 ^ 23 * (den * 2 ^ ulpExp num den) = 2 ^ (ulpExp num den + 23) * den := by ring
    _ ≤ num := h2

/-- The quotient is below `2^24` spacings. -/
theorem lt_of_ulpExp {num den : Nat} (hd : 0 < den) : num < 2 ^ 24 * (den * 2 ^ ulpExp num den) := by
  have h1 : num / den < 2 ^ (Nat.log2 (num / den) + 1) := Nat.lt_log2_self
  have h2 : num / den < 2 ^ (24 + ulpExp num den) := by
    refine lt_of_lt_of_le h1 (Nat.pow_le_pow_right (by norm_num) ?_)
    unfold ulpExp; omega
  have h3 := (Nat.div_lt_iff_lt_mul hd).mp h2
  calc num < 2 ^ (24 + ulpExp num den) * den := h3
    _ = 2 ^ 24 * (den * 2 ^ ulpExp num den) := by ring

/-- How many spacings the rounded value has. -/
theorem nearestEven_range {num den : Nat} (hd : 0 < den) :
    nearestEven num (den * 2 ^ ulpExp num den) ≤ 2 ^ 24 ∧
    (ulpExp num den = 0 ∨ 2 ^ 23 ≤ nearestEven num (den * 2 ^ ulpExp num den)) := by
  have hpos : 0 < den * 2 ^ ulpExp num den := by positivity
  constructor
  · have h := nearestEven_mono (le_of_lt (lt_of_ulpExp (num := num) hd)) hpos
    rwa [nearestEven_mul _ _ hpos] at h
  · rcases Nat.eq_zero_or_pos (ulpExp num den) with h0 | h0
    · exact .inl h0
    · right
      have h := nearestEven_mono (pow_le_of_ulpExp_pos h0) hpos
      rwa [nearestEven_mul _ _ hpos] at h

/-- The magnitude the rounded bits denote, when they do not overflow: the nearest whole number of spacings. -/
theorem magOfBits_nearestBits {num den : Nat} (hd : 0 < den) :
    magOfBits (nearestBits num den) = nearestEven num (den * 2 ^ ulpExp num den) * 2 ^ ulpExp num den := by
  obtain ⟨h1, h2⟩ := nearestEven_range (num := num) hd
  exact magOfBits_add h1 h2

theorem min_infBits_lt (m : Nat) : min m infBits < 2 ^ 31 :=
  lt_of_le_of_lt (min_le_right _ _) (by norm_num [infBits])

@[simp] theorem signBit_fl (neg : Bool) (num den : Nat) : signBit (fl neg num den) = neg :=
  signBit_ofBits neg (min_infBits_lt _)

theorem isFinite_fl {neg : Bool} {num den : Nat} : isFinite (fl neg num den) = true ↔ nearestBits num den < infBits := by
  unfold fl
  rw [isFinite_ofBits neg (min_infBits_lt _)]
  simp

/-- What a rounded word that is finite denotes. -/
theorem magnitude_fl {neg : Bool} {num den : Nat} (hd : 0 < den) (h : isFinite (fl neg num den) = true) :
    magnitude (fl neg num den) = nearestEven num (den * 2 ^ ulpExp num den) * 2 ^ ulpExp num den := by
  have hb := isFinite_fl.mp h
  unfold fl
  rw [magnitude_ofBits neg (min_infBits_lt _), min_eq_left (le_of_lt hb), magOfBits_nearestBits hd]

/-- The rounding error: at most half a spacing. -/
theorem magnitude_fl_error {neg : Bool} {num den : Nat} (hd : 0 < den) (h : isFinite (fl neg num den) = true) :
    2 * num ≤ (2 * magnitude (fl neg num den) + 2 ^ ulpExp num den) * den ∧
    2 * magnitude (fl neg num den) * den ≤ 2 * num + den * 2 ^ ulpExp num den := by
  have hpos : 0 < den * 2 ^ ulpExp num den := by positivity
  obtain ⟨h1, h2⟩ := nearestEven_bound num (den * 2 ^ ulpExp num den) hpos
  rw [magnitude_fl hd h]
  constructor <;> nlinarith

@[simp] theorem signBit_negate (u : Word) : signBit (negate u) = !signBit u := by
  simp [signBit, negate]

@[simp] theorem expField_negate (u : Word) : expField (negate u) = expField u := by
  unfold expField negate
  congr 1
  ext k hk
  simp only [BitVec.getElem_extractLsb', BitVec.getLsbD_xor]
  have : (0x80000000#32).getLsbD (23 + k) = false := by interval_cases k <;> rfl
  simp [this]

@[simp] theorem fracField_negate (u : Word) : fracField (negate u) = fracField u := by
  unfold fracField negate
  congr 1
  ext k hk
  simp only [BitVec.getElem_extractLsb', BitVec.getLsbD_xor]
  have : (0x80000000#32).getLsbD k = false := by interval_cases k <;> rfl
  simp [this]

@[simp] theorem magnitude_negate (u : Word) : magnitude (negate u) = magnitude u := by
  simp [magnitude]

@[simp] theorem isFinite_negate (u : Word) : isFinite (negate u) = isFinite u := by
  simp [isFinite]

@[simp] theorem scaled_negate (u : Word) : scaled (negate u) = -scaled u := by
  unfold scaled
  rw [signBit_negate, magnitude_negate]
  cases signBit u <;> simp

end Sys2Proof.Machine.Binary32
end

