-- ==== Sys2Proof/Laws/Decode.lean ====
section
/-! SUPPORT. The opcode map and the operand words: what the decoder's parts do, each said once. -/

namespace Sys2Proof

@[simp] theorem ofCode_code (op : Opcode) : Opcode.ofCode op.code = some op := by
  cases op <;> rfl

theorem code_of_ofCode {b : OpcByte} {op : Opcode} (h : Opcode.ofCode b = some op) : op.code = b := by
  have := List.find?_some h
  simpa using this

theorem ofCode_eq_some_iff {b : OpcByte} {op : Opcode} : Opcode.ofCode b = some op ↔ op.code = b :=
  ⟨code_of_ofCode, fun h => h ▸ ofCode_code op⟩

@[simp] theorem join64_words (v : DWord) : join64 (hiWord v) (loWord v) = v := by
  ext k hk
  simp only [join64, hiWord, loWord, BitVec.getElem_or, BitVec.getElem_shiftLeft, BitVec.getElem_setWidth,
    BitVec.getLsbD_extractLsb']
  by_cases h : k < 32
  · simp [h, BitVec.getLsbD_eq_getElem hk]
  · have h1 : 32 + (k - 32) = k := by omega
    have h3 : k - 32 < 32 := by omega
    simp [h, h1, h3, BitVec.getLsbD_eq_getElem hk]

@[simp] theorem hiWord_join64 (hi lo : Word) : hiWord (join64 hi lo) = hi := by
  ext k hk
  simp [join64, hiWord, hk, BitVec.getLsbD_eq_getElem, show 32 + k < 64 by omega]

@[simp] theorem loWord_join64 (hi lo : Word) : loWord (join64 hi lo) = lo := by
  ext k hk
  simp [join64, loWord, hk, BitVec.getLsbD_eq_getElem, show k < 64 by omega]

@[simp] theorem buildInstr_opcode (op : Opcode) (w l : Nat) (o : Nat → Word) :
    (buildInstr op w l o).opcode = op := by
  cases op <;> rfl

/-- The operands are missing exactly when there are fewer than N_in words. -/
theorem decodeOperands_none_iff {op : Opcode} {w l : Nat} {ws : List Word} :
    decodeOperands op w l ws = none ↔ ws.length < op.nIn := by
  unfold decodeOperands
  split <;> simp_all

/-- The operands of an opcode make an instruction of that opcode, and take exactly N_in words. -/
theorem decodeOperands_some {op : Opcode} {w l : Nat} {ws rest : List Word} {i : Instr}
    (h : decodeOperands op w l ws = some (i, rest)) :
    i.opcode = op ∧ ws.length = op.nIn + rest.length ∧ rest = ws.drop op.nIn := by
  unfold decodeOperands at h
  split at h
  · simp at h
  · rename_i hlen
    simp only [Option.some.injEq, Prod.mk.injEq] at h
    obtain ⟨rfl, rfl⟩ := h
    exact ⟨buildInstr_opcode .., by rw [List.length_drop]; omega, rfl⟩

/-- What a decoded command says of the words at the head. -/
theorem decode_ok_cases {ws rest : List Word} {i : Instr} (h : decode ws = .ok (i, rest)) :
    ∃ cmd tail op, ws = cmd :: tail ∧ Opcode.ofCode (opcField cmd) = some op ∧
      cmd &&& op.format.reservedMask = 0#32 ∧
      decodeOperands op (widthField cmd) (lsbField cmd) tail = some (i, rest) ∧ i.opcode = op := by
  unfold decode at h
  split at h
  · simp at h
  · rename_i cmd tail
    split at h
    · simp at h
    · rename_i op hop
      split at h
      · rename_i hres
        split at h
        · simp at h
        · rename_i r hd
          simp only [Except.ok.injEq] at h
          subst h
          exact ⟨cmd, tail, op, rfl, hop, hres, hd, (decodeOperands_some hd).1⟩
      · simp at h

end Sys2Proof
end

