-- ==== Sys2Proof/Laws/State.lean ====
section
/-! SUPPORT. One lemma per field per update of State, each true by definition, so that no proof unfolds a record update. -/

namespace Sys2Proof.Machine

@[simp] theorem respond_mode (s : State) (ws : List Word) : (s.respond ws).mode = s.mode := rfl
@[simp] theorem respond_status (s : State) (ws : List Word) : (s.respond ws).status = s.status := rfl
@[simp] theorem respond_inq (s : State) (ws : List Word) : (s.respond ws).inq = s.inq := rfl
@[simp] theorem respond_outq (s : State) (ws : List Word) : (s.respond ws).outq = s.outq ++ ws := rfl

@[simp] theorem withInq_mode (s : State) (ws : List Word) : (s.withInq ws).mode = s.mode := rfl
@[simp] theorem withInq_status (s : State) (ws : List Word) : (s.withInq ws).status = s.status := rfl
@[simp] theorem withInq_inq (s : State) (ws : List Word) : (s.withInq ws).inq = ws := rfl
@[simp] theorem withInq_outq (s : State) (ws : List Word) : (s.withInq ws).outq = s.outq := rfl

@[simp] theorem takeFault_mode (opc : OpcByte) (c : Cause) (s : State) : (takeFault opc c s).mode = .halted := rfl
@[simp] theorem takeFault_status (opc : OpcByte) (c : Cause) (s : State) :
    (takeFault opc c s).status = faultStatus opc c := rfl
@[simp] theorem takeFault_inq (opc : OpcByte) (c : Cause) (s : State) : (takeFault opc c s).inq = s.inq := rfl
@[simp] theorem takeFault_outq (opc : OpcByte) (c : Cause) (s : State) :
    (takeFault opc c s).outq = s.outq ++ faultResponse opc c := rfl

@[simp] theorem placeWords_mode (s : State) (ws : List Word) : (s.placeWords ws).mode = s.mode := rfl
@[simp] theorem placeWords_status (s : State) (ws : List Word) : (s.placeWords ws).status = s.status := rfl
@[simp] theorem placeWords_outq (s : State) (ws : List Word) : (s.placeWords ws).outq = s.outq := rfl
@[simp] theorem placeWords_inq (s : State) (ws : List Word) :
    (s.placeWords ws).inq = ws ++ s.inq.drop ws.length := rfl

@[simp] theorem reset_mode : State.reset.mode = .ready := rfl
@[simp] theorem reset_status : State.reset.status = 0 := rfl
@[simp] theorem reset_inq : State.reset.inq = [] := rfl
@[simp] theorem reset_outq : State.reset.outq = [] := rfl

@[simp] theorem assertReset_eq (s : State) : assertReset s = State.reset := rfl

@[simp] theorem respond_respond (s : State) (ws vs : List Word) :
    (s.respond ws).respond vs = s.respond (ws ++ vs) := by
  simp [State.respond, List.append_assoc]

@[simp] theorem readStatus_eq (s : State) : s.readStatus = s.status := rfl

end Sys2Proof.Machine
end

