-- ==== Sys2Proof/Laws/Ops.lean ====
section
/-! SUPPORT. One lemma per shared operation that says what it can do: capacities, ending a command, the step's inversion. -/

namespace Sys2Proof.Machine

/-! ## Capacities -/

theorem withinCapacity_of_le {extra : Option Nat} {n : Nat} (h : n ≤ 13) : withinCapacity extra n = true := by
  have h' : n ≤ Config.minCapacity := h
  simp [withinCapacity, h']

theorem withinCapacity_iff (extra : Option Nat) (n : Nat) :
    withinCapacity extra n = true ↔ ∀ e, extra = some e → n ≤ 13 + e := by
  cases extra with
  | none => simp [withinCapacity]
  | some e =>
    have h : Config.minCapacity = 13 := rfl
    simp only [withinCapacity, Bool.or_eq_true, decide_eq_true_eq, Option.some.injEq, forall_eq', h]
    omega

theorem withinCapacity_mono {extra : Option Nat} {m n : Nat} (h : m ≤ n) (hn : withinCapacity extra n = true) :
    withinCapacity extra m = true := by
  rw [withinCapacity_iff] at *
  intro e he
  exact le_trans h (hn e he)

/-- Room for `n` words depends on OUTQ only through its length, and more room is there when OUTQ is shorter. -/
theorem outRoom_mono {s t : State} {m n : Nat} (h : t.outq.length + m ≤ s.outq.length + n)
    (hs : s.outRoom n = true) : t.outRoom m = true :=
  withinCapacity_mono h hs

theorem inRoom_mono {s t : State} {m n : Nat} (h : t.inq.length + m ≤ s.inq.length + n)
    (hs : s.inRoom n = true) : t.inRoom m = true :=
  withinCapacity_mono h hs

/-- An empty OUTQ has room for every response, whatever OUT_CAP is. -/
theorem outRoom_of_empty {s : State} {n : Nat} (hs : s.outq = []) (hn : n ≤ 13) : s.outRoom n = true :=
  withinCapacity_of_le (by simpa [hs] using hn)

/-! ## The fields of a status word (R75) -/

@[simp] theorem statusWord_result (r c : BitVec 4) (opc : OpcByte) (f : BitVec 3) :
    (statusWord r c opc f).extractLsb' 0 4 = r := by
  ext k hk
  simp [statusWord, show k < 16 by omega, show k < 8 by omega, show k < 4 by omega, show k < 32 by omega]

@[simp] theorem statusWord_cause (r c : BitVec 4) (opc : OpcByte) (f : BitVec 3) :
    (statusWord r c opc f).extractLsb' 4 4 = c := by
  ext k hk
  simp [statusWord, show 4 + k < 16 by omega, show 4 + k < 8 by omega, show 4 + k < 32 by omega,
    BitVec.getLsbD_eq_getElem hk]

@[simp] theorem statusWord_opc (r c : BitVec 4) (opc : OpcByte) (f : BitVec 3) :
    (statusWord r c opc f).extractLsb' 8 8 = opc := by
  ext k hk
  simp [statusWord, show 8 + k < 16 by omega, show 8 + k < 32 by omega, show 8 + k - 4 = 4 + k by omega,
    BitVec.getLsbD_of_ge r (8 + k) (by omega), BitVec.getLsbD_eq_getElem hk]

@[simp] theorem statusWord_field (r c : BitVec 4) (opc : OpcByte) (f : BitVec 3) :
    (statusWord r c opc f).extractLsb' 16 3 = f := by
  ext k hk
  simp [statusWord, show 16 + k < 32 by omega, show 16 + k - 4 = 12 + k by omega, show 16 + k - 8 = 8 + k by omega,
    BitVec.getLsbD_of_ge r (16 + k) (by omega), BitVec.getLsbD_of_ge c (12 + k) (by omega),
    BitVec.getLsbD_eq_getElem hk]

/-- A cause is its code. -/
theorem Cause.code_inj {c d : Cause} (h : c.code = d.code) : c = d := by
  cases c <;> cases d <;> first | rfl | exact absurd h (by decide)

/-! ## Ending a command -/

@[simp] theorem finish_ok (op : Opcode) (res : List Word) (s : State) :
    finish op (.ok res) s = s.respond (okResponse op res) := rfl

@[simp] theorem finish_overflow (op : Opcode) (f : Fin 6) (s : State) :
    finish op (.error (.overflow f)) s = s.respond (overflowResponse op f) := rfl

@[simp] theorem finish_fault (op : Opcode) (c : Cause) (s : State) :
    finish op (.error (.fault c)) s = takeFault op.code c s := rfl

/-- Ending a command leaves INQ alone. -/
@[simp] theorem finish_inq (op : Opcode) (a : Answer) (s : State) : (finish op a s).inq = s.inq := by
  rcases a with ((c | f) | res) <;> rfl

/-- Everything the end of a command can do. -/
theorem finish_cases (op : Opcode) (a : Answer) (s : State) :
    (∃ res, a = .ok res ∧ finish op a s = s.respond (okResponse op res)) ∨
    (∃ f, a = .error (.overflow f) ∧ finish op a s = s.respond (overflowResponse op f)) ∨
    (∃ c, a = .error (.fault c) ∧ finish op a s = takeFault op.code c s) := by
  rcases a with ((c | f) | res)
  · exact .inr (.inr ⟨c, rfl, rfl⟩)
  · exact .inr (.inl ⟨f, rfl, rfl⟩)
  · exact .inl ⟨res, rfl, rfl⟩

/-! ## Field updates -/

theorem newUnsigned_ok_iff {f : Fin 6} {word r : DWord} {w l v : Nat} :
    newUnsigned f word w l v = .ok r ↔ fitsUnsigned v w = true ∧ r = setField word w l v := by
  by_cases h : fitsUnsigned v w = true <;> simp [newUnsigned, overflow, h, eq_comm]

theorem newSigned_ok_iff {f : Fin 6} {word r : DWord} {w l : Nat} {v : Int} :
    newSigned f word w l v = .ok r ↔
      fitsSigned v w = true ∧ r = setField word w l (v % 2 ^ w).toNat := by
  by_cases h : fitsSigned v w = true <;> simp [newSigned, overflow, h, eq_comm]

/-! ## Checked arithmetic -/

theorem chk_ok_iff {v z : Word} : chk v = .ok z ↔ Binary32.isFinite v = true ∧ z = v := by
  by_cases h : Binary32.isFinite v = true <;> simp [chk, raise, h, eq_comm]

theorem chk_of_finite {v : Word} (h : Binary32.isFinite v = true) : chk v = .ok v := by
  simp [chk, h]

theorem chk_of_not_finite {v : Word} (h : Binary32.isFinite v = false) : chk v = .error (.fault .nonFinite) := by
  simp [chk, raise, h]

theorem fadd_ok_iff {x y z : Word} :
    fadd x y = .ok z ↔ Binary32.isFinite (Binary32.addRaw x y) = true ∧ z = Binary32.addRaw x y := chk_ok_iff

theorem fsub_ok_iff {x y z : Word} :
    fsub x y = .ok z ↔ Binary32.isFinite (Binary32.subRaw x y) = true ∧ z = Binary32.subRaw x y := chk_ok_iff

theorem fmul_ok_iff {x y z : Word} :
    fmul x y = .ok z ↔ Binary32.isFinite (Binary32.mulRaw x y) = true ∧ z = Binary32.mulRaw x y := chk_ok_iff

theorem fdiv_ok_iff {x y z : Word} :
    fdiv x y = .ok z ↔ Binary32.isFinite (Binary32.divRaw x y) = true ∧ z = Binary32.divRaw x y := chk_ok_iff

/-! ## The fetch and the step -/

/-- Everything a block step that has a next state can have fetched. -/
theorem step_cases {s s' : State} (h : step s = .next s') :
    s.mode = .ready ∧
    ((∃ opc c, fetch s = .badCommand opc c (s.withInq (s.inq.drop 1)) ∧ s.outRoom 1 = true ∧
        s' = takeFault opc c (s.withInq (s.inq.drop 1))) ∨
     (∃ i rest, decode s.inq = .ok (i, rest) ∧ s.outRoom (1 + i.opcode.nOut) = true ∧
        exec i (s.withInq rest) = .next s')) := by
  have bad : ∀ opc c, fetch s = fetchBad opc c s → s.outRoom 1 = true →
      fetch s = .badCommand opc c (s.withInq (s.inq.drop 1)) := by
    intro opc c hf hr
    simp [hf, fetchBad, hr]
  have stepBad : ∀ opc c, fetch s = fetchBad opc c s → s.outRoom 1 = true ∧
      s' = takeFault opc c (s.withInq (s.inq.drop 1)) := by
    intro opc c hf
    unfold step at h
    rw [hf] at h
    unfold fetchBad at h
    split at h
    · rename_i heq
      split at heq <;> simp_all
    · rename_i heq
      split at heq <;> simp_all
    · rename_i heq
      split at heq <;> simp_all
  cases hm : s.mode with
  | halted => simp [step, fetch, hm] at h
  | ready =>
    refine ⟨rfl, ?_⟩
    cases hd : decode s.inq with
    | ok r =>
      obtain ⟨i, rest⟩ := r
      right
      refine ⟨i, rest, rfl, ?_⟩
      simp only [step, fetch, hm, hd] at h
      by_cases hr : s.outRoom (1 + i.opcode.nOut) = true
      · simp [hr] at h ⊢; exact h
      · simp [hr] at h
    | error e =>
      cases e with
      | noWord => simp [step, fetch, hm, hd] at h
      | missingOperands op => simp [step, fetch, hm, hd] at h
      | illegalOpcode opc =>
        left
        have hf : fetch s = fetchBad opc .illegalOpcode s := by simp [fetch, hm, hd]
        obtain ⟨hr, hs⟩ := stepBad _ _ hf
        exact ⟨_, _, bad _ _ hf hr, hr, hs⟩
      | reservedBits opc =>
        left
        have hf : fetch s = fetchBad opc .reservedBits s := by simp [fetch, hm, hd]
        obtain ⟨hr, hs⟩ := stepBad _ _ hf
        exact ⟨_, _, bad _ _ hf hr, hr, hs⟩

end Sys2Proof.Machine
end

