-- ==== Sys2Proof/Laws/Exec.lean ====
section
/-! SUPPORT. Every meaning has one shape: the command's rule gives an answer that does not look at the state, and `finish`
delivers it. -/

namespace Sys2Proof.Machine

/-- The rule of an instruction, `EXEC_m` of R80. -/
def answerOf : Instr → Answer
  | .fitsu width n => fitsuAnswer width n
  | .fitss width n => fitssAnswer width n
  | .getu width lsb word => getuAnswer width lsb word
  | .gets width lsb word => getsAnswer width lsb word
  | .newu width lsb word value => newuAnswer width lsb word value
  | .news width lsb word value => newsAnswer width lsb word value
  | .rgb2ypp p den => rgb2yppAnswer p den
  | .ypp2rgb p den => ypp2rgbAnswer p den
  | .dctf p1 p2 p3 p4 => dctfAnswer p1 p2 p3 p4
  | .dcti t => dctiAnswer t
  | .quant t => quantAnswer chromaLut t
  | .dequant q => dequantAnswer chromaLut q
  | .chridx x => chridxAnswer chromaLut x
  | .chrval index => chrvalAnswer chromaLut index
  | .pack q => packAnswer q
  | .unpack word => unpackAnswer word
  | .serbe word => serbeAnswer word
  | .deserbe b0 b1 b2 b3 => deserbeAnswer b0 b1 b2 b3

/-- `exec` delivers the answer of the instruction's rule. -/
theorem exec_eq_finish (i : Instr) (s : State) : exec i s = .next (finish i.opcode (answerOf i) s) := by
  cases i <;> rfl

/-- `exec` leaves INQ alone. -/
theorem exec_inq {i : Instr} {s t : State} (h : exec i s = .next t) : t.inq = s.inq := by
  rw [exec_eq_finish] at h
  cases h
  exact finish_inq _ _ _

/-! ## From the answer of a rule to what the command answers -/

/-- A rule that answers OK: the command appends its OK response. -/
theorem answers_of_ok {i : Instr} {res : List Word} (h : answerOf i = .ok res) :
    Answers i (okResponse i.opcode res) := by
  intro s
  rw [exec_eq_finish, h]
  rfl

/-- A rule that overflows: the command appends its OVERFLOW response. -/
theorem answers_of_overflow {i : Instr} {f : Fin 6} (h : answerOf i = .error (.overflow f)) :
    Answers i (overflowResponse i.opcode f) := by
  intro s
  rw [exec_eq_finish, h]
  rfl

/-- The fault status word as a number. -/
theorem faultResponse_eq (opc : OpcByte) (c : Cause) :
    faultResponse opc c = [BitVec.ofNat 32 (opc.toNat * 256 + c.code.toNat * 16 + 2)] := by
  cases c <;> revert opc <;> decide +kernel

/-- What a fatal fault leaves in STATUS as a number. -/
theorem faultStatus_eq (opc : OpcByte) (c : Cause) :
    faultStatus opc c = BitVec.ofNat 32 (opc.toNat * 256 + c.code.toNat * 16 + 1) := by
  cases c <;> revert opc <;> decide +kernel

/-- A rule that raises a cause: the command takes the fatal fault of that cause. -/
theorem faultsWith_of_fault {i : Instr} {c : Cause} (h : answerOf i = .error (.fault c)) :
    FaultsWith i i.opcode.code.toNat c.code.toNat := by
  intro s
  rw [exec_eq_finish, h, finish_fault]
  simp only [takeFault, State.respond, faultResponse_eq, faultStatus_eq]

/-- The one thing a command's next state tells: two commands' worth of appended words are one. -/
theorem Answers.unique {i : Instr} {ws vs : List Word} (h : Answers i ws) (g : Answers i vs) : ws = vs := by
  have hs := h State.reset
  rw [g State.reset] at hs
  simp only [Host.Outcome.next.injEq, State.mk.injEq, List.append_cancel_left_eq] at hs
  exact hs.2.2.2.symm

/-- What a command answers is what its rule gives. -/
theorem answers_iff {i : Instr} {ws : List Word} :
    Answers i ws ↔ (∃ res, answerOf i = .ok res ∧ ws = okResponse i.opcode res) ∨
      (∃ f, answerOf i = .error (.overflow f) ∧ ws = overflowResponse i.opcode f) := by
  constructor
  · intro h
    rcases ha : answerOf i with ((c | f) | res)
    · have hs := h State.reset
      rw [exec_eq_finish, ha, finish_fault] at hs
      simp [takeFault] at hs
    · exact .inr ⟨f, rfl, h.unique (answers_of_overflow ha)⟩
    · exact .inl ⟨res, rfl, h.unique (answers_of_ok ha)⟩
  · rintro (⟨res, ha, rfl⟩ | ⟨f, ha, rfl⟩)
    · exact answers_of_ok ha
    · exact answers_of_overflow ha

end Sys2Proof.Machine
end

