-- ==== Sys2Proof/Laws/PerInstr.lean ====
section
/-! SUPPORT. Facts about the syntax of every instruction, one lemma per constructor of `Instr`.
EncodedLength: an encoded command has `1 + N_in` words (R65, R71). -/

namespace Sys2Proof.Laws.EncodedLength

/-- The encoding of an instruction has one command word and N_in operand words. -/
def Statement (i : Instr) : Prop := (encode i).length = 1 + i.opcode.nIn

theorem fitsu (width : Nat) (n : DWord) : Statement (.fitsu width n) := rfl
theorem fitss (width : Nat) (n : DWord) : Statement (.fitss width n) := rfl
theorem getu (width lsb : Nat) (word : DWord) : Statement (.getu width lsb word) := rfl
theorem gets (width lsb : Nat) (word : DWord) : Statement (.gets width lsb word) := rfl
theorem newu (width lsb : Nat) (word value : DWord) : Statement (.newu width lsb word value) := rfl
theorem news (width lsb : Nat) (word value : DWord) : Statement (.news width lsb word value) := rfl
theorem rgb2ypp (p : RgbPixel) (den : Word) : Statement (.rgb2ypp p den) := rfl
theorem ypp2rgb (p : YppPixel) (den : Word) : Statement (.ypp2rgb p den) := rfl
theorem dctf (p1 p2 p3 p4 : YppPixel) : Statement (.dctf p1 p2 p3 p4) := rfl
theorem dcti (t : TransformBlock) : Statement (.dcti t) := rfl
theorem quant (t : TransformBlock) : Statement (.quant t) := rfl
theorem dequant (q : QuantBlock) : Statement (.dequant q) := rfl
theorem chridx (x : Word) : Statement (.chridx x) := rfl
theorem chrval (index : Word) : Statement (.chrval index) := rfl
theorem pack (q : QuantBlock) : Statement (.pack q) := rfl
theorem unpack (word : Word) : Statement (.unpack word) := rfl
theorem serbe (word : Word) : Statement (.serbe word) := rfl
theorem deserbe (b0 b1 b2 b3 : Word) : Statement (.deserbe b0 b1 b2 b3) := rfl

end Sys2Proof.Laws.EncodedLength
end

