-- ==== Sys2Proof/Laws/Safety.lean ====
section
/-! SUPPORT. The small lemmas of the terms of Safety.lean: what an event takes and gives, a trace along a run, and from a rule's
answer to the faults it never takes. -/

namespace Sys2Proof.Machine

/-! ## Traces -/

@[simp] theorem takenBy_block (s : State) : takenBy .block s = s.inq.take (commandLength s.inq) := rfl
@[simp] theorem takenBy_push (s : State) (w : Word) : takenBy (.push w) s = [] := rfl
@[simp] theorem takenBy_pop (s : State) : takenBy .pop s = [] := rfl
@[simp] theorem takenBy_readStatus (s : State) : takenBy .readStatus s = [] := rfl
@[simp] theorem givenBy_push (s : State) (w : Word) : givenBy (.push w) s = [] := rfl
@[simp] theorem givenBy_pop (s : State) : givenBy .pop s = [] := rfl
@[simp] theorem givenBy_readStatus (s : State) : givenBy .readStatus s = [] := rfl
@[simp] theorem traceOf_nil (f : Event → State → List Word) (s : State) : traceOf f [] s = [] := rfl

/-- A block step gives what stands in OUTQ behind the words that stood there before. -/
theorem givenBy_block {s t : State} {ws : List Word} (h : blockEvent s = some t) (ht : t.outq = s.outq ++ ws) :
    givenBy .block s = ws := by
  simp [givenBy, h, ht]

theorem traceOf_cons {f : Event → State → List Word} {e : Event} {es : List Event} {s t : State}
    (h : fire e s = some t) : traceOf f (e :: es) s = f e s ++ traceOf f es t := by
  simp [traceOf, h]

/-- A run of one event and more: its first event is enabled, and the rest runs from the state after it. -/
theorem runEvents_cons {e : Event} {es : List Event} {s t : State} {ws : List Word}
    (h : runEvents (e :: es) s = some (t, ws)) :
    ∃ s' vs, fire e s = some s' ∧ runEvents es s' = some (t, vs) ∧ ws = poppedBy e s ++ vs := by
  rw [runEvents] at h
  split at h
  · cases h
  · rename_i s' hs
    split at h
    · cases h
    · rename_i t' vs hv
      cases h
      exact ⟨s', vs, hs, hv, rfl⟩

/-- A decoded command takes as many words as `commandLength` says. -/
theorem commandLength_of_decode {ws rest : List Word} {i : Instr} (h : decode ws = .ok (i, rest)) :
    commandLength ws = 1 + i.opcode.nIn ∧ ws = ws.take (commandLength ws) ++ rest := by
  obtain ⟨cmd, tail, op, rfl, hop, hres, hd, rfl⟩ := decode_ok_cases h
  obtain ⟨-, -, rfl⟩ := decodeOperands_some hd
  have hlen : commandLength (cmd :: tail) = 1 + i.opcode.nIn := by simp [commandLength, hop, hres]
  refine ⟨hlen, ?_⟩
  rw [hlen, Nat.add_comm, List.take_succ_cons, List.cons_append, List.take_append_drop]

/-! ## Faults never taken -/

/-- A command whose rule does not raise a cause takes its fault in no state. -/
theorem neverFaultsWith_of_ne {i : Instr} {c : Cause} (h : answerOf i ≠ .error (.fault c)) :
    NeverFaultsWith i i.opcode.code.toNat c.code.toNat := by
  intro s t ht he
  rw [exec_eq_finish] at ht
  cases ht
  rw [← faultResponse_eq] at he
  obtain ⟨res, ha, hf⟩ | ⟨f, ha, hf⟩ | ⟨c', ha, hf⟩ := finish_cases i.opcode (answerOf i) s
  · rw [hf, respond_outq, List.append_cancel_left_eq] at he
    have := congrArg (BitVec.extractLsb' 0 4) (List.cons.inj he).1
    simp [resultOk, resultFault] at this
  · rw [hf, respond_outq, List.append_cancel_left_eq] at he
    have := congrArg (BitVec.extractLsb' 0 4) (List.cons.inj he).1
    simp [resultOverflow, resultFault] at this
  · rw [hf, takeFault_outq, List.append_cancel_left_eq] at he
    have := congrArg (BitVec.extractLsb' 4 4) (List.cons.inj he).1
    simp only [statusWord_cause] at this
    exact h (Cause.code_inj this ▸ ha)

end Sys2Proof.Machine
end

