-- ==== Sys2Proof/Tests/Slice0.lean ====
section
/-! SUPPORT. Tests of the model, each a named theorem. Expected words are those of spec/95_test_vectors.md (vector V-x named at
each test), 30_encoding.md R70, R79 or 44_block_quantizer.md; none is the model's own answer. The second half shows, for every
statement of Certificates/Slice0/Obligations.lean that has hypotheses, values that meet them. -/

namespace Sys2Proof.Tests

-- One theorem after another: each kernel evaluation waits for the checks before it, and hundreds of waiting threads cost memory.
set_option Elab.async false

open Sys2Proof.Machine Sys2Proof.Machine.Binary32

/-! ## Helpers -/

/-- The reset state after the host has pushed `inq`. -/
def ready (inq : List Word) : State := { mode := .ready, status := 0, inq := inq, outq := [] }

/-- A READY block whose OUTQ holds `outq`. -/
def answered (outq : List Word) : State := { mode := .ready, status := 0, inq := [], outq := outq }

/-- A HALTED block with the given STATUS, the words left in INQ and one fault word in OUTQ. -/
def faulted (status : Word) (left : List Word) (response : Word) : State :=
  { mode := .halted, status := status, inq := left, outq := [response] }

/-- LUT_T, the test table of 95_test_vectors.md section 1. -/
def lutT : ChromaTable := fun i =>
  [0xBEB33333, 0xBE4CCCCD, 0xBE19999A, 0xBDCCCCCD, 0xBD9DB22D, 0xBD6147AE, 0xBD072B02, 0xBC343958,
   0x3C343958, 0x3D072B02, 0x3D6147AE, 0x3D9DB22D, 0x3DCCCCCD, 0x3E19999A, 0x3E4CCCCD, 0x3EB33333].getD i.val 0

/-- The words a rule answers, where it answers OK. -/
def results (a : Answer) : Option (List Word) :=
  match a with
  | .ok ws => some ws
  | .error _ => none

theorem step_of_blockEvent {s t : State} (h : blockEvent s = some t) : step s = .next t := by
  unfold blockEvent at h
  split at h <;> simp_all

theorem answers_of_rule {i : Instr} {res ws : List Word} (h : results (answerOf i) = some res)
    (hw : okResponse i.opcode res = ws) : Answers i ws := by
  subst hw
  refine answers_of_ok ?_
  unfold results at h
  split at h <;> simp_all

/-! ## Well-formedness: an ill-formed term for each check, which the check refuses (R66, R67) -/

theorem test_fitsu_width_ill_formed : (Instr.fitsu 128 0).wellFormed = false := by decide
theorem test_fitss_width_ill_formed : (Instr.fitss 128 0).wellFormed = false := by decide
theorem test_getu_width_ill_formed : (Instr.getu 128 0 0).wellFormed = false := by decide
theorem test_getu_lsb_ill_formed : (Instr.getu 0 128 0).wellFormed = false := by decide
theorem test_gets_width_ill_formed : (Instr.gets 128 0 0).wellFormed = false := by decide
theorem test_gets_lsb_ill_formed : (Instr.gets 0 128 0).wellFormed = false := by decide
theorem test_newu_width_ill_formed : (Instr.newu 128 0 0 0).wellFormed = false := by decide
theorem test_newu_lsb_ill_formed : (Instr.newu 0 128 0 0).wellFormed = false := by decide
theorem test_news_width_ill_formed : (Instr.news 128 0 0 0).wellFormed = false := by decide
theorem test_news_lsb_ill_formed : (Instr.news 0 128 0 0).wellFormed = false := by decide
theorem test_widest_immediates_well_formed : (Instr.newu 127 127 0 0).wellFormed = true := by decide

/-! ## Decoding: each opcode's word written out bit by bit from R66 and R70, with its operand words -/

/-- WIDTH 1000000 in bits 14:8, OPC 00010000. -/
theorem test_decode_fitsu : decode [0b00000000000000000100000000010000, 1, 2] =
    .ok (.fitsu 64 0x0000000100000002, []) := by decide +kernel

/-- WIDTH 0000101, OPC 00010001. -/
theorem test_decode_fitss : decode [0b00000000000000000000010100010001, 1, 2] =
    .ok (.fitss 5 0x0000000100000002, []) := by decide +kernel

/-- LSB 0111000 in bits 21:15, WIDTH 0001000, OPC 00010010: the first word of R79, 0x001C0812. -/
theorem test_decode_getu : decode [0b00000000000111000000100000010010, 1, 2] =
    .ok (.getu 8 56 0x0000000100000002, []) := by decide +kernel

/-- LSB 0010100, WIDTH 0001100, OPC 00010011. -/
theorem test_decode_gets : decode [0b00000000000010100000110000010011, 1, 2] =
    .ok (.gets 12 20 0x0000000100000002, []) := by decide +kernel

/-- LSB 1111111, WIDTH 1111111, OPC 00010100: the largest immediates. -/
theorem test_decode_newu : decode [0b00000000001111111111111100010100, 1, 2, 3, 4] =
    .ok (.newu 127 127 0x0000000100000002 0x0000000300000004, []) := by decide +kernel

/-- LSB 0010010, WIDTH 0000101, OPC 00010101: the second word of R79, 0x00090515. -/
theorem test_decode_news : decode [0b00000000000010010000010100010101, 1, 2, 3, 4] =
    .ok (.news 5 18 0x0000000100000002 0x0000000300000004, []) := by decide +kernel

theorem test_decode_rgb2ypp : decode [0b00000000000000000000000000100000, 1, 2, 3, 4] =
    .ok (.rgb2ypp ⟨1, 2, 3⟩ 4, []) := by decide +kernel
theorem test_decode_ypp2rgb : decode [0b00000000000000000000000000100001, 1, 2, 3, 4] =
    .ok (.ypp2rgb ⟨1, 2, 3⟩ 4, []) := by decide +kernel
theorem test_decode_dctf : decode [0b00000000000000000000000000110000, 1, 2, 3, 4, 5, 6, 7, 8, 9, 10, 11, 12, 13] =
    .ok (.dctf ⟨1, 2, 3⟩ ⟨4, 5, 6⟩ ⟨7, 8, 9⟩ ⟨10, 11, 12⟩, [13]) := by decide +kernel
theorem test_decode_dcti : decode [0b00000000000000000000000000110001, 1, 2, 3, 4, 5, 6, 7] =
    .ok (.dcti ⟨1, 2, 3, 4, 5, 6⟩, [7]) := by decide +kernel
theorem test_decode_quant : decode [0b00000000000000000000000001000000, 1, 2, 3, 4, 5, 6] =
    .ok (.quant ⟨1, 2, 3, 4, 5, 6⟩, []) := by decide +kernel
theorem test_decode_dequant : decode [0b00000000000000000000000001000001, 1, 2, 3, 4, 5, 6] =
    .ok (.dequant ⟨1, 2, 3, 4, 5, 6⟩, []) := by decide +kernel
theorem test_decode_chridx : decode [0b00000000000000000000000001000010, 1] = .ok (.chridx 1, []) := by decide +kernel
theorem test_decode_chrval : decode [0b00000000000000000000000001000011, 1] = .ok (.chrval 1, []) := by decide +kernel
theorem test_decode_pack : decode [0b00000000000000000000000001010000, 1, 2, 3, 4, 5, 6] =
    .ok (.pack ⟨1, 2, 3, 4, 5, 6⟩, []) := by decide +kernel
theorem test_decode_unpack : decode [0b00000000000000000000000001010001, 1] = .ok (.unpack 1, []) := by decide +kernel
theorem test_decode_serbe : decode [0b00000000000000000000000001010010, 1] = .ok (.serbe 1, []) := by decide +kernel
theorem test_decode_deserbe : decode [0b00000000000000000000000001010011, 1, 2, 3, 4] =
    .ok (.deserbe 1 2 3 4, []) := by decide +kernel

/-- A command word with too few operand words is not a command yet (R80). -/
theorem test_decode_waits : decode [0x00000051] = .error (.missingOperands .unpack) := by decide +kernel

/-- A table word of R70 (format F, WIDTH 8, LSB 56) reads as its row, and runs as the first command after reset. -/
theorem test_table_word : decodeTableWord 32 0x001C0812 = some (.getu 8 56 0) := by decide +kernel

/-- GETU of the zero word answers 0. -/
theorem test_fetch_word_runs : (blockEvent (State.reset.withFetchWord 32 0x001C0812)).map (·.outq) =
    some [0x00001200, 0, 0] := by decide +kernel

/-- The encoder writes the words of V-B44: high word first (R53). -/
theorem test_encode_news : encode (.news 5 18 0x0123456789ABCDEF 0xFFFFFFFFFFFFFFF0) =
    [0x00090515, 0x01234567, 0x89ABCDEF, 0xFFFFFFFF, 0xFFFFFFF0] := by decide +kernel

/-! ## Constants of R111 and R136: each is `fl` of the decimal in its comment -/

theorem test_forward_coefficients :
    [flRat 0.299, flRat 0.587, flRat 0.114, flRat (-0.168736), flRat (-0.331264), flRat 0.5, flRat (-0.418688), flRat (-0.081312)] =
      [kyr, kyg, kyb, kbr, kbg, kbb, krg, krb] ∧ krr = kbb := by decide +kernel
theorem test_inverse_coefficients : [flRat 1.402, flRat 0.344136, flRat 0.714136, flRat 1.772] = [krv, kgu, kgv, kbu] := by
  decide +kernel
theorem test_quantizer_constants : [flRat 511, flRat 15, flRat 0.3, flRat (-0.3)] = [al, ql, qm, negQm] := by
  decide +kernel

/-! ## One step each: the words of spec/95_test_vectors.md -/

/-- V-B7. -/
theorem test_fitsu_width_64 :
    blockEvent (ready [0x00004010, 0xFFFFFFFF, 0xFFFFFFFF]) =
      some (answered [0x00001000, 0x00000001]) := by decide +kernel

/-- V-B8. -/
theorem test_fitsu_width_65 :
    blockEvent (ready [0x00004110, 0x00000000, 0x00000000]) =
      some (faulted 0x00001041 [] 0x00001042) := by decide +kernel

/-- V-B9. -/
theorem test_fitss_width_0 :
    blockEvent (ready [0x00000011, 0x00000000, 0x00000000]) =
      some (answered [0x00001100, 0x00000000]) := by decide +kernel

/-- V-B14. -/
theorem test_fitss_least :
    blockEvent (ready [0x00000511, 0xFFFFFFFF, 0xFFFFFFF0]) =
      some (answered [0x00001100, 0x00000001]) := by decide +kernel

/-- V-B21. -/
theorem test_getu_top_byte :
    blockEvent (ready [0x001C0812, 0x01234567, 0x89ABCDEF]) =
      some (answered [0x00001200, 0x00000000, 0x00000001]) := by decide +kernel

/-- V-B28. -/
theorem test_getu_width_0_lsb_65 :
    blockEvent (ready [0x00208012, 0x01234567, 0x89ABCDEF]) =
      some (faulted 0x00001241 [] 0x00001242) := by decide +kernel

/-- V-B34. -/
theorem test_gets_sign_extends :
    blockEvent (ready [0x000A0C13, 0x01234567, 0x89ABCDEF]) =
      some (answered [0x00001300, 0xFFFFFFFF, 0xFFFFF89A]) := by decide +kernel

/-- V-B31. -/
theorem test_gets_width_0 :
    blockEvent (ready [0x00000013, 0x01234567, 0x89ABCDEF]) =
      some (answered [0x00001300, 0x00000000, 0x00000000]) := by decide +kernel

/-- V-B42. -/
theorem test_newu_bits_39_24 :
    blockEvent (ready [0x000C1014, 0x01234567, 0x89ABCDEF, 0x00000000, 0x0000BEEF]) =
      some (answered [0x00001400, 0x012345BE, 0xEFABCDEF]) := by decide +kernel

/-- V-B37. -/
theorem test_newu_overflow :
    blockEvent (ready [0x00040814, 0x01234567, 0x89ABCDEF, 0x00000000, 0x00000100]) =
      some (answered [0x00001411, 0x00000000, 0x00000000]) := by decide +kernel

/-- V-B44. -/
theorem test_news_minus_16 :
    blockEvent (ready [0x00090515, 0x01234567, 0x89ABCDEF, 0xFFFFFFFF, 0xFFFFFFF0]) =
      some (answered [0x00001500, 0x01234567, 0x89C3CDEF]) := by decide +kernel

/-- V-B47. -/
theorem test_news_overflow :
    blockEvent (ready [0x00090515, 0x01234567, 0x89ABCDEF, 0xFFFFFFFF, 0xFFFFFFEF]) =
      some (answered [0x00001511, 0x00000000, 0x00000000]) := by decide +kernel

/-- V-C7. -/
theorem test_rgb2ypp_colour :
    blockEvent (ready [0x00000020, 0x0000000A, 0x000000C8, 0x0000001E, 0x000000FF]) =
      some (answered [0x00002000, 0x3EF89750, 0xBE549750, 0xBEA2FD99]) := by decide +kernel

/-- V-C14. -/
theorem test_rgb2ypp_den_before_sample :
    blockEvent (ready [0x00000020, 0x0000012C, 0x00000000, 0x00000000, 0x00000000]) =
      some (faulted 0x00002051 [] 0x00002052) := by decide +kernel

/-- V-C19. -/
theorem test_ypp2rgb_colour :
    blockEvent (ready [0x00000021, 0x3F000000, 0x3E800000, 0xBE800000, 0x000000FF]) =
      some (answered [0x00002100, 0x00000026, 0x00000097, 0x000000F0]) := by decide +kernel

/-- V-C29. -/
theorem test_ypp2rgb_finite_before_den :
    blockEvent (ready [0x00000021, 0x7FC00000, 0x00000000, 0x00000000, 0x00000000]) =
      some (faulted 0x00002171 [] 0x00002172) := by decide +kernel

/-- V-D2. -/
theorem test_dctf_ramp :
    blockEvent (ready [0x00000030, 0x00000000, 0x3DCCCCCD, 0xBF000000, 0x3E800000, 0x3E4CCCCD, 0x3F000000, 0x3F000000, 0x3E99999A, 0x00000000, 0x3F800000, 0x3ECCCCCD, 0x00000000]) =
      some (answered [0x00003000, 0x3EE00000, 0x3EA00000, 0x3E400000, 0x3D800000, 0x3E800000, 0x00000000]) := by decide +kernel

/-- V-D5. -/
theorem test_dctf_sum_overflows :
    blockEvent (ready [0x00000030, 0x7F61B1E6, 0x00000000, 0x00000000, 0x7F61B1E6, 0x00000000, 0x00000000, 0x00000000, 0x00000000, 0x00000000, 0x00000000, 0x00000000, 0x00000000]) =
      some (faulted 0x00003071 [] 0x00003072) := by decide +kernel

/-- V-D8. -/
theorem test_dcti_no_clamp :
    blockEvent (ready [0x00000031, 0x3F800000, 0x3E99999A, 0x3E99999A, 0x3E99999A, 0x3C343958, 0xBC343958]) =
      some (answered [0x00003100, 0x3F333333, 0x3C343958, 0xBC343958, 0x3F333333, 0x3C343958, 0xBC343958, 0x3F333332, 0x3C343958, 0xBC343958, 0x3FF33332, 0x3C343958, 0xBC343958]) := by decide +kernel

/-- V-D9. -/
theorem test_dcti_difference_overflows :
    blockEvent (ready [0x00000031, 0x7F61B1E6, 0xFF61B1E6, 0x00000000, 0x00000000, 0x00000000, 0x00000000]) =
      some (faulted 0x00003171 [] 0x00003172) := by decide +kernel

/-- V-Q10. -/
theorem test_quant_finite_before_luma :
    blockEvent (ready [0x00000040, 0x40000000, 0x7FC00000, 0x00000000, 0x00000000, 0x00000000, 0x00000000]) =
      some (faulted 0x00004071 [] 0x00004072) := by decide +kernel

/-- V-Q7. -/
theorem test_quant_luma_above_1 :
    blockEvent (ready [0x00000040, 0x3F800001, 0x00000000, 0x00000000, 0x00000000, 0x00000000, 0x00000000]) =
      some (faulted 0x00004081 [] 0x00004082) := by decide +kernel

/-- V-Q16. -/
theorem test_dequant_qa_512 :
    blockEvent (ready [0x00000041, 0x00000200, 0x00000000, 0x00000000, 0x00000000, 0x00000000, 0x00000000]) =
      some (faulted 0x00004191 [] 0x00004192) := by decide +kernel

/-- V-Q18. -/
theorem test_dequant_qpb_16 :
    blockEvent (ready [0x00000041, 0x00000000, 0x00000000, 0x00000000, 0x00000000, 0x00000010, 0x00000000]) =
      some (faulted 0x00004191 [] 0x00004192) := by decide +kernel

/-- V-Q29. -/
theorem test_chridx_nan :
    blockEvent (ready [0x00000042, 0x7FC00000]) =
      some (faulted 0x00004271 [] 0x00004272) := by decide +kernel

/-- V-Q34. -/
theorem test_chrval_16 :
    blockEvent (ready [0x00000043, 0x00000010]) =
      some (faulted 0x00004391 [] 0x00004392) := by decide +kernel

/-- V-P3. -/
theorem test_pack_least :
    blockEvent (ready [0x00000050, 0x000001FF, 0xFFFFFFF0, 0xFFFFFFF0, 0xFFFFFFF0, 0x0000000F, 0x0000000F]) =
      some (answered [0x00005000, 0xFFC210FF]) := by decide +kernel

/-- V-P8. -/
theorem test_pack_overflow_field_3 :
    blockEvent (ready [0x00000050, 0x00000000, 0x00000000, 0x00000000, 0xFFFFFFEF, 0x00000000, 0x00000000]) =
      some (answered [0x00035011, 0x00000000]) := by decide +kernel

/-- V-P15. -/
theorem test_unpack_signs :
    blockEvent (ready [0x00000051, 0x00C27834]) =
      some (answered [0x00005100, 0x00000001, 0xFFFFFFF0, 0xFFFFFFF3, 0xFFFFFFF8, 0x00000003, 0x00000004]) := by decide +kernel

/-- V-P13. -/
theorem test_unpack_all_ones :
    blockEvent (ready [0x00000051, 0xFFFFFFFF]) =
      some (answered [0x00005100, 0x000001FF, 0xFFFFFFFF, 0xFFFFFFFF, 0xFFFFFFFF, 0x0000000F, 0x0000000F]) := by decide +kernel

/-- V-E3. -/
theorem test_illegal_opcode :
    blockEvent (ready [0x00000016]) =
      some (faulted 0x00001621 [] 0x00001622) := by decide +kernel

/-- V-E4. -/
theorem test_reserved_bit :
    blockEvent (ready [0x00000120]) =
      some (faulted 0x00002031 [] 0x00002032) := by decide +kernel

/-- V-E5. -/
theorem test_reserved_bit_leaves_operands :
    blockEvent (ready [0x00008810, 0x00000000, 0x00000000]) =
      some (faulted 0x00001031 [0x00000000, 0x00000000] 0x00001032) := by decide +kernel

/-- V-P18. -/
theorem test_serbe : blockEvent (ready [0x00000052, 0x12345678]) =
    some (answered [0x00005200, 0x00000012, 0x00000034, 0x00000056, 0x00000078]) := by decide +kernel

/-- V-P20. -/
theorem test_deserbe : blockEvent (ready [0x00000053, 0x00000080, 0x00000080, 0x00000000, 0x00000088]) =
    some (answered [0x00005300, 0x80800088]) := by decide +kernel

/-- V-P22. -/
theorem test_deserbe_byte_above_255 :
    blockEvent (ready [0x00000053, 0x00000012, 0x00000034, 0x00000100, 0x00000078]) =
      some (faulted 0x00005391 [] 0x00005392) := by decide +kernel

/-! Rules that read the chroma table, on LUT_T. -/

/-- V-Q3. -/
theorem test_quant : results (quantAnswer lutT ⟨0x00000000, 0x3C23D70A, 0x3CF5C28F, 0xBDCCCCCD, 0x3CA3D70A, 0xBCB020C5⟩) =
    some [0x00000000, 0x00000000, 0x00000001, 0xFFFFFFFB, 0x00000008, 0x00000007] := by decide +kernel

/-- V-Q12. -/
theorem test_dequant : results (dequantAnswer lutT ⟨0x000001FF, 0x0000000F, 0xFFFFFFF1, 0xFFFFFFF0, 0, 0x0000000F⟩) =
    some [0x3F800000, 0x3E99999A, 0xBE99999A, 0xBEA3D70B, 0xBEB33333, 0x3EB33333] := by decide +kernel

/-- V-Q22: the exact midpoint of two levels has the lower index. -/
theorem test_chridx_tie : results (chridxAnswer lutT 0x3CB43958) = some [8] := by decide +kernel

/-- V-Q27. -/
theorem test_chridx_below_midpoint : results (chridxAnswer lutT 0x3E8CCCCC) = some [14] := by decide +kernel

/-- V-Q31. -/
theorem test_chrval : results (chrvalAnswer lutT 7) = some [0xBC343958] := by decide +kernel

/-- LUT_T and the fallback table meet R146. -/
theorem test_tables_ok : lutT.ok = true ∧ chromaFallback.ok = true := by decide +kernel

/-- W9: the first tile of the 4×2 image compresses to 0x48E0E038. -/
theorem test_compress_tile :
    (compressTile lutT 255 ⟨255, 0, 0⟩ ⟨0, 255, 0⟩ ⟨0, 0, 0⟩ ⟨64, 64, 64⟩).toOption = some 0x48E0E038 := by decide +kernel

/-- P5: and decompresses to the four pixels listed there. -/
theorem test_decompress_tile : (decompressTile lutT 255 0x48 0xE0 0xE0 0x38).toOption =
    some [[81, 84, 32], [153, 156, 104], [0, 3, 0], [71, 74, 22]] := by decide +kernel

/-- W10: 5×3 is trimmed to 4×2, two tiles, left one first. -/
theorem test_trim : headerText "TAG" 5 3 = "TAG\n4 2\n" ∧ tileOrder 5 3 = [(0, 0), (1, 0)] := by decide +kernel

/-! ## Values that meet the hypotheses of the statements -/

/-- An opcode, an immediate at its largest value. -/
theorem witness_DecodeInvertsEncode : (Instr.newu 127 127 0x0123456789ABCDEF 1).wellFormed = true := by decide

theorem witness_EncodeInvertsDecode : decode [0x00090515, 1, 2, 3, 4, 7] =
    .ok (.news 5 18 0x0000000100000002 0x0000000300000004, [7]) := by decide +kernel

theorem witness_EncodingExamples :
    (ready [0x00000120]).mode = .ready ∧ (ready [0x00000120]).outRoom 1 = true ∧ (ready [0x00000120]).inq = 0x00000120 :: [] ∧
    (ready [0x00008810, 0, 0]).mode = .ready ∧ (ready [0x00008810, 0, 0]).outRoom 1 = true ∧
    (ready [0x00008810, 0, 0]).inq = 0x00008810 :: [0, 0] := by decide +kernel

/-- The all-zero word, and the value after the last assigned one. -/
theorem witness_IllegalOpcodes :
    (ready [0x00000000, 5]).mode = .ready ∧ Opcode.ofCode (opcField 0x00000000) = none ∧
    (ready [0x00000000, 5]).outRoom 1 = true ∧ Opcode.ofCode (opcField 0x00000054) = none := by decide +kernel

/-- The lowest reserved bit of each format, and bit 31. -/
theorem witness_ReservedBits :
    (ready [0x00000143]).mode = .ready ∧ (ready [0x00000143]).outRoom 1 = true ∧
    Opcode.chrval.code = opcField 0x00000143 ∧ (0x00000143 : Word).getLsbD 8 = true ∧ Opcode.chrval.format = .n ∧
    Opcode.fitsu.code = opcField 0x00008810 ∧ (0x00008810 : Word).getLsbD 15 = true ∧ Opcode.fitsu.format = .w ∧
    Opcode.getu.code = opcField 0x00400012 ∧ (0x00400012 : Word).getLsbD 22 = true ∧ Opcode.getu.format = .f ∧
    Opcode.pack.code = opcField 0x80000050 ∧ (0x80000050 : Word).getLsbD 31 = true := by decide +kernel

theorem witness_StepRunsDecodedCommand :
    (ready [0x00000043, 16, 7]).mode = .ready ∧ decode (ready [0x00000043, 16, 7]).inq = .ok (.chrval 16, [7]) ∧
    (ready [0x00000043, 16, 7]).outRoom (1 + (Instr.chrval 16).opcode.nOut) = true := by decide +kernel

/-- HALTED; INQ empty; operand words missing. -/
theorem witness_NoStepByName :
    (faulted 0x21 [] 0x22).mode = .halted ∧ (ready []).inq = [] ∧ (ready []).mode = .ready ∧
    decode (ready [0x00000052]).inq = .error (.missingOperands .serbe) := by decide +kernel

/-- No room in OUTQ: with a bounded OUT_CAP, a full OUTQ. (Where OUT_CAP is unbounded there is always room: log entry 3.) -/
theorem witness_NoStepByName_full (e : Nat) (h : Config.outCapExtra = some e) :
    let s : State := { ready [0x00000052, 0] with outq := List.replicate (13 + e) 0 }
    s.mode = .ready ∧ decode s.inq = .ok (.serbe 0, []) ∧ s.outRoom (1 + (Instr.serbe 0).opcode.nOut) = false := by
  have hd : decode [0x00000052, 0] = .ok (.serbe 0, []) := by decide +kernel
  refine ⟨rfl, hd, ?_⟩
  simp [State.outRoom, withinCapacity, h, Config.minCapacity, Instr.opcode, Opcode.nOut]
  omega

/-- And the same OUTQ before an illegal opcode and before a reserved bit (the words of V-E1 and V-E4). -/
theorem witness_NoStepByName_full_bad (e : Nat) (h : Config.outCapExtra = some e) :
    let s : State := { ready [0x00000000] with outq := List.replicate (13 + e) 0 }
    let s' : State := { ready [0x00000120] with outq := List.replicate (13 + e) 0 }
    s.mode = .ready ∧ Opcode.ofCode (opcField 0x00000000) = none ∧ s.outRoom 1 = false ∧
    s'.mode = .ready ∧ Opcode.ofCode (opcField 0x00000120) = some .rgb2ypp ∧
    0x00000120 &&& Opcode.rgb2ypp.format.reservedMask ≠ 0 ∧ s'.outRoom 1 = false := by
  have room : ∀ inq, State.outRoom { ready inq with outq := List.replicate (13 + e) 0 } 1 = false := by
    intro inq
    simp [State.outRoom, withinCapacity, h, Config.minCapacity]
  exact ⟨rfl, by decide, room _, rfl, by decide, by decide, room _⟩

/-- A step that answers and one that faults. -/
theorem witness_OneResponsePerStep :
    step (ready [0x00000052, 0x12345678]) = .next (answered [0x00005200, 0x12, 0x34, 0x56, 0x78]) ∧
    step (ready [0x00000016]) = .next (faulted 0x00001621 [] 0x00001622) :=
  ⟨step_of_blockEvent test_serbe, step_of_blockEvent test_illegal_opcode⟩

/-- An OK response, an OVERFLOW of PACK in field 3, and a fault of each of the causes 2, 3 and 4. -/
theorem witness_StatusWordFields :
    step (ready [0x00000052, 0x12345678]) = .next (answered [0x00005200, 0x12, 0x34, 0x56, 0x78]) ∧
    step (ready [0x00000050, 0, 0, 0, 0xFFFFFFEF, 0, 0]) = .next (answered [0x00035011, 0]) ∧
    step (ready [0x00000016]) = .next (faulted 0x00001621 [] 0x00001622) ∧
    step (ready [0x00008810, 0, 0]) = .next (faulted 0x00001031 [0, 0] 0x00001032) ∧
    step (ready [0x00208012, 0x01234567, 0x89ABCDEF]) = .next (faulted 0x00001241 [] 0x00001242) :=
  ⟨step_of_blockEvent test_serbe, step_of_blockEvent test_pack_overflow_field_3, step_of_blockEvent test_illegal_opcode,
    step_of_blockEvent test_reserved_bit_leaves_operands, step_of_blockEvent test_getu_width_0_lsb_65⟩

/-- An illegal opcode, a reserved bit, and a fault of the command's own rule: the three ways words are consumed. -/
theorem witness_FatalFaultTaken :
    step (ready [0x00000016]) = .next (faulted 0x00001621 [] 0x00001622) ∧
    step (ready [0x00008810, 0, 0]) = .next (faulted 0x00001031 [0, 0] 0x00001032) ∧
    step (ready [0x00208012, 0x01234567, 0x89ABCDEF]) = .next (faulted 0x00001241 [] 0x00001242) ∧
    (faulted 0x00001241 [] 0x00001242).mode = .halted :=
  ⟨step_of_blockEvent test_illegal_opcode, step_of_blockEvent test_reserved_bit_leaves_operands,
    step_of_blockEvent test_getu_width_0_lsb_65, rfl⟩

theorem answers_serbe : Answers (.serbe 0xCAFEF00D) [0x00005200, 0xCA, 0xFE, 0xF0, 0x0D] :=
  answers_of_rule (res := [0xCA, 0xFE, 0xF0, 0x0D]) (by decide +kernel) (by decide +kernel)

theorem answers_unpack : Answers (.unpack 0x00C27834) [0x00005100, 1, 0xFFFFFFF0, 0xFFFFFFF3, 0xFFFFFFF8, 3, 4] :=
  answers_of_rule (res := [1, 0xFFFFFFF0, 0xFFFFFFF3, 0xFFFFFFF8, 3, 4]) (by decide +kernel) (by decide +kernel)

/-- Two commands of program P6, with a third command's first word behind them. -/
theorem witness_BackToBackCommands :
    List.Forall₂ Answers [.serbe 0xCAFEF00D, .unpack 0x00C27834]
      [[0x00005200, 0xCA, 0xFE, 0xF0, 0x0D], [0x00005100, 1, 0xFFFFFFF0, 0xFFFFFFF3, 0xFFFFFFF8, 3, 4]] ∧
    (∀ i ∈ [Instr.serbe 0xCAFEF00D, .unpack 0x00C27834], i.wellFormed = true) ∧
    (ready [0x00000052, 0xCAFEF00D, 0x00000051, 0x00C27834, 0x00000043]).inq =
      [Instr.serbe 0xCAFEF00D, .unpack 0x00C27834].flatMap encode ++ [0x00000043] ∧
    (ready [0x00000052, 0xCAFEF00D, 0x00000051, 0x00C27834, 0x00000043]).outRoom 12 = true :=
  ⟨.cons answers_serbe (.cons answers_unpack .nil), by decide, by decide +kernel, by decide +kernel⟩

theorem witness_DrainedBlockNeverStuck :
    (ready [0x00000043, 16]).mode = .ready ∧ (ready [0x00000043, 16]).outq = [] ∧
    decode (ready [0x00000043, 16]).inq = .ok (.chrval 16, []) := by decide +kernel

theorem witness_StepKeepsLegal :
    (ready [0x00000016]).legal = true ∧ step (ready [0x00000016]) = .next (faulted 0x00001621 [] 0x00001622) :=
  ⟨by decide +kernel, step_of_blockEvent test_illegal_opcode⟩

/-- The reset state, and a HALTED state: one push, one block step. -/
theorem witness_ReachableStatesAreLegal :
    Reachable State.reset ∧ Reachable (faulted 0x00001621 [] 0x00001622) := by
  refine ⟨.reset, ?_⟩
  have h1 : fire (.push 0x00000016) State.reset = some (ready [0x00000016]) := by decide +kernel
  exact .fire .block (.fire _ .reset h1) test_illegal_opcode

theorem witness_HostEvents :
    (ready []).inRoom 1 = true ∧ fire (.push 5) (ready []) = some (ready [5]) ∧ (answered [5, 6]).outq = 5 :: [6] ∧
    fire .pop (answered [5, 6]) = some (answered [6]) := by decide +kernel

theorem witness_HaltedUntilReset :
    (faulted 0x21 [9] 0x22).mode = .halted ∧ Event.reset ∉ [Event.push 5, .pop, .readStatus] ∧
    runEvents [.push 5, .pop, .readStatus] (faulted 0x21 [9] 0x22) =
      some ({ mode := .halted, status := 0x21, inq := [9, 5], outq := [] }, [0x22]) := by decide +kernel

theorem witness_QueuesAreFifo :
    Event.reset ∉ [Event.push 0x52, .push 0x12345678, .block, .pop] ∧
    runEvents [.push 0x52, .push 0x12345678, .block, .pop] State.reset =
      some (answered [0x12, 0x34, 0x56, 0x78], [0x00005200]) := by decide +kernel

/-- What two block steps take and give in one run: a whole command, and then a bad command word alone, whatever stands behind it. -/
theorem test_traces :
    traceOf takenBy [.push 0x52, .push 0x12345678, .block, .push 0x00008810, .push 9, .pop, .block] State.reset =
      [0x52, 0x12345678, 0x00008810] ∧
    traceOf givenBy [.push 0x52, .push 0x12345678, .block, .push 0x00008810, .push 9, .pop, .block] State.reset =
      [0x00005200, 0x12, 0x34, 0x56, 0x78, 0x00001032] := by decide +kernel

/-- One host pops early and pushes more, the other pushes both words first and pops nothing. -/
theorem witness_StreamIndependentOfInterleaving :
    Event.reset ∉ [Event.push 0x52, .push 0x12345678, .block] ∧
    Event.reset ∉ [Event.push 0x52, .push 0x12345678, .block, .pop, .push 0, .block] ∧
    pushedWords [.push 0x52, .push 0x12345678, .block] <+:
      pushedWords [.push 0x52, .push 0x12345678, .block, .pop, .push 0, .block] ∧
    runEvents [.push 0x52, .push 0x12345678, .block] State.reset =
      some (answered [0x00005200, 0x12, 0x34, 0x56, 0x78], []) ∧
    runEvents [.push 0x52, .push 0x12345678, .block, .pop, .push 0, .block] State.reset =
      some ({ mode := .halted, status := 0x21, inq := [], outq := [0x12, 0x34, 0x56, 0x78, 0x22] }, [0x00005200]) := by
  decide +kernel

/-- A run: the host pushes the all-zero word, the block faults, and the host reads STATUS for ever. -/
def runStates : Nat → State
  | 0 => State.reset
  | 1 => ready [0]
  | _ + 2 => faulted 0x21 [] 0x22

/-- The events of that run. -/
def runEvent : Nat → Event
  | 0 => .push 0
  | 1 => .block
  | _ + 2 => .readStatus

theorem witness_FairBlockProgress :
    IsRun runStates runEvent ∧ WeaklyFair runStates runEvent ∧ BlockEnabled (runStates 1) := by
  refine ⟨⟨rfl, ?_⟩, ?_, ?_⟩
  · intro n
    match n with
    | 0 => decide +kernel
    | 1 => decide +kernel
    | _ + 2 => rfl
  · intro n h
    obtain ⟨t, ht⟩ := h (n + 2) (by omega)
    have : step (runStates (n + 2)) = .fault .halted := rfl
    rw [this] at ht
    cases ht
  · exact ⟨_, step_of_blockEvent (t := faulted 0x21 [] 0x22) (by decide +kernel)⟩

/-! Codec. -/

/-- Widths 0 and 64, and fields that end at bit 63 or are empty at bit 64. -/
theorem witness_FitsuResult : (0 : Nat) ≤ 64 ∧ (64 : Nat) ≤ 64 := by decide
theorem witness_FitssResult : (0 : Nat) ≤ 64 ∧ (64 : Nat) ≤ 64 := by decide
theorem witness_GetuResult : 0 + 64 ≤ 64 ∧ 64 + 0 ≤ 64 ∧ 8 + 56 ≤ 64 := by decide
theorem witness_GetsResult : 0 + 64 ≤ 64 ∧ 64 + 0 ≤ 64 ∧ 8 + 56 ≤ 64 := by decide

/-- The largest value that fits eight bits, and the least that does not. -/
theorem witness_NewuResult :
    8 + 56 ≤ 64 ∧ (255 : DWord).toNat ≤ 2 ^ 8 - 1 ∧ 2 ^ 8 - 1 < (256 : DWord).toNat := by decide

/-- −16 and 15 fit five bits, −17 and 16 do not, and nothing fits none. -/
theorem witness_NewsResult :
    5 + 18 ≤ 64 ∧ 0 < 5 ∧ -(2 : Int) ^ (5 - 1) ≤ (15 : DWord).toInt ∧ (15 : DWord).toInt ≤ 2 ^ (5 - 1) - 1 ∧
    -(2 : Int) ^ (5 - 1) ≤ (0xFFFFFFFFFFFFFFF0 : DWord).toInt ∧ (0xFFFFFFFFFFFFFFF0 : DWord).toInt ≤ 2 ^ (5 - 1) - 1 ∧
    (0xFFFFFFFFFFFFFFEF : DWord).toInt < -(2 : Int) ^ (5 - 1) ∧ (2 : Int) ^ (5 - 1) ≤ (16 : DWord).toInt ∧
    0 + 64 ≤ 64 := by decide +kernel

theorem witness_FieldRange : 64 < 65 ∧ 64 < 0 + 65 ∧ (127 : Nat) ≤ 127 ∧ (0 : Nat) ≤ 127 := by decide

/-- V-B36 and V-B44, and a field beside each. -/
theorem witness_FieldDisjointness :
    Answers (.newu 8 8 0x0123456789ABCDEF 0xAA) [0x00001400, 0x01234567, 0x89ABAAEF] ∧
    Answers (.news 5 18 0x0123456789ABCDEF 0xFFFFFFFFFFFFFFF0) [0x00001500, 0x01234567, 0x89C3CDEF] ∧
    ((2 ^ 8 - 1) * 2 ^ 0) &&& ((2 ^ 8 - 1) * 2 ^ 8) = 0 ∧ ((2 ^ 41 - 1) * 2 ^ 23) &&& ((2 ^ 5 - 1) * 2 ^ 18) = 0 :=
  ⟨answers_of_rule (res := [0x01234567, 0x89ABAAEF]) (by decide +kernel) (by decide +kernel),
    answers_of_rule (res := [0x01234567, 0x89C3CDEF]) (by decide +kernel) (by decide +kernel),
    by decide +kernel, by decide +kernel⟩

theorem answers_fitss_least : Answers (.fitss 5 0xFFFFFFFFFFFFFFF0) [0x00001100, 1] :=
  answers_of_rule (res := [1]) (by decide +kernel) (by decide +kernel)

/-- W1 and W2: 0xAA in eight bits, all ones in 64, nothing but 0 in none; −16 in five. -/
theorem witness_FieldRoundTrips :
    Answers (.fitsu 8 0xAA) [0x00001000, 1] ∧ Answers (.fitsu 64 0xFFFFFFFFFFFFFFFF) [0x00001000, 1] ∧
    Answers (.fitsu 0 0) [0x00001000, 1] ∧ Answers (.fitss 5 0xFFFFFFFFFFFFFFF0) [0x00001100, 1] :=
  ⟨answers_of_rule (res := [1]) (by decide +kernel) (by decide +kernel),
    answers_of_rule (res := [1]) (by decide +kernel) (by decide +kernel),
    answers_of_rule (res := [1]) (by decide +kernel) (by decide +kernel), answers_fitss_least⟩

theorem witness_SignedAndUnsignedViews :
    0 < 1 ∧ 1 + 63 ≤ 64 ∧ 5 + 18 ≤ 64 ∧ Answers (.fitss 5 0xFFFFFFFFFFFFFFF0) [0x00001100, 1] :=
  ⟨by decide, by decide, by decide, answers_fitss_least⟩

/-! Binary32. -/

/-- A rational between two binary32 values, the first one that overflows, and its negative. -/
theorem witness_RoundingIsNearestEven :
    |(1 / 10 : ℚ)| < 2 ^ 128 - 2 ^ 103 ∧ (2 : ℚ) ^ 128 - 2 ^ 103 ≤ |2 ^ 128 - 2 ^ 103| ∧
    (2 : ℚ) ^ 128 - 2 ^ 103 ≤ |-(2 ^ 128 - 2 ^ 103)| := by norm_num

/-- 1 and −1 (an exact zero sum), −0 and −0, 1 and 0, and the two zeros as a product and as a quotient. -/
theorem witness_OperatorsRoundOnce :
    isFinite 0x3F800000 = true ∧ isFinite 0xBF800000 = true ∧ isFinite 0x80000000 = true ∧ isFinite 0x00000000 = true ∧
    toRat 0x3F800000 + toRat 0x3F800000 ≠ 0 ∧ toRat 0x3F800000 + toRat 0xBF800000 = 0 ∧
    toRat 0x80000000 + toRat 0x80000000 = 0 ∧ toRat 0x3F800000 - toRat 0xBF800000 ≠ 0 ∧
    toRat 0x3F800000 * toRat 0xBF800000 ≠ 0 ∧ toRat 0x80000000 * toRat 0x3F800000 = 0 ∧
    toRat 0x3F800000 - toRat 0x3F800000 = 0 ∧ toRat 0x80000000 - toRat 0x00000000 = 0 ∧
    toRat 0x00000000 - toRat 0x80000000 = 0 ∧ toRat 0x80000000 - toRat 0x80000000 = 0 ∧
    toRat 0x3F800000 ≠ 0 ∧ toRat 0x80000000 = 0 := by decide +kernel

theorem witness_IntegerConversions :
    |(16777216 : Int)| ≤ 2 ^ 24 ∧ |(-16777216 : Int)| ≤ 2 ^ 24 ∧ isFinite 0x7F7FFFFF = true := by decide +kernel

/-- A quiet NaN, the two infinities and a NaN of the least fraction, each in another operand; and a finite word. -/
theorem witness_NonFiniteOperandFaults :
    (∃ x ∈ [(0x3F000000 : Word), 0x7FC00000, 0], x.extractLsb' 23 8 = 0xFF) ∧
    (∃ x ∈ [(0 : Word), 0, 0, 0, 0, 0, 0, 0, 0, 0, 0, 0xFF800000], x.extractLsb' 23 8 = 0xFF) ∧
    (∃ x ∈ [(0 : Word), 0, 0, 0, 0, 0x7F800000], x.extractLsb' 23 8 = 0xFF) ∧
    (0x7F800001 : Word).extractLsb' 23 8 = 0xFF ∧ (0x7F7FFFFF : Word).extractLsb' 23 8 ≠ 0xFF :=
  ⟨⟨0x7FC00000, by simp, by decide⟩, ⟨0xFF800000, by simp, by decide⟩, ⟨0x7F800000, by simp, by decide⟩,
    by decide, by decide⟩

/-! Colour. -/

/-- The largest and the smallest denominator, with a sample at it and one at 0. -/
theorem witness_RgbToYppResult :
    1 ≤ (65535 : Word).toNat ∧ (65535 : Word).toNat ≤ 65535 ∧ (65535 : Word).toNat ≤ (65535 : Word).toNat ∧
    (0 : Word).toNat ≤ (65535 : Word).toNat ∧ 1 ≤ (1 : Word).toNat ∧ (1 : Word).toNat ≤ 65535 := by decide

/-- Denominators 0 and 65536, and a sample one above the denominator. -/
theorem witness_RgbToYppFaults :
    (0 : Word).toNat = 0 ∧ 65535 < (65536 : Word).toNat ∧ 1 ≤ (255 : Word).toNat ∧ (255 : Word).toNat ≤ 65535 ∧
    (255 : Word).toNat < (256 : Word).toNat := by decide

/-- The intermediates of YPP2RGB, as YppToRgbResult lists them. -/
def yppSteps (y pb pr : Word) : List Word :=
  [mulRaw 0x3FB374BC pr, addRaw y (mulRaw 0x3FB374BC pr), mulRaw 0x3EB03298 pb, subRaw y (mulRaw 0x3EB03298 pb),
    mulRaw 0x3F36D19E pr, subRaw (subRaw y (mulRaw 0x3EB03298 pb)) (mulRaw 0x3F36D19E pr), mulRaw 0x3FE2D0E5 pb,
    addRaw y (mulRaw 0x3FE2D0E5 pb)]

/-- V-C19 (finite), V-C26 (1.402 × Pr overflows), operands of magnitude 2^126, and the two illegal denominators. -/
theorem witness_YppToRgbResult :
    isFinite 0x3F000000 = true ∧ isFinite 0x3E800000 = true ∧ isFinite 0xBE800000 = true ∧ isFinite 0x7F61B1E6 = true ∧
    allFinite (yppSteps 0x3F000000 0x3E800000 0xBE800000) = true ∧
    allFinite (yppSteps 0x3F000000 0x00000000 0x7F61B1E6) = false ∧
    isFinite 0x7E800000 = true ∧ |toRat 0x7E800000| ≤ 2 ^ 126 ∧
    (0 : Word).toNat = 0 ∧ 65535 < (65536 : Word).toNat ∧ 1 ≤ (255 : Word).toNat ∧ (255 : Word).toNat ≤ 65535 := by
  decide +kernel

theorem witness_ColourRoundTrip :
    1 ≤ (65535 : Word).toNat ∧ (65535 : Word).toNat ≤ 65535 ∧ (32768 : Word).toNat ≤ (65535 : Word).toNat ∧
    1 ≤ (1 : Word).toNat ∧ (0 : Word).toNat ≤ (1 : Word).toNat := by decide

/-! Block transform. -/

/-- The luma sums of a tile, in the order DctfResult lists them. -/
def lumaSums (y1 y2 y3 y4 : Word) : List Word :=
  chain4 addRaw addRaw addRaw y1 y2 y3 y4 ++ chain4 addRaw subRaw subRaw y4 y3 y2 y1 ++
    chain4 subRaw addRaw subRaw y4 y3 y2 y1 ++ chain4 subRaw subRaw addRaw y4 y3 y2 y1

/-- V-D2's luma (every sum is finite) and V-D5's (the first is not), all of them finite operands. -/
theorem witness_DctfResult :
    allFinite [0x00000000, 0x3E800000, 0x3F000000, 0x3F800000, 0x7F61B1E6] = true ∧
    allFinite (lumaSums 0x00000000 0x3E800000 0x3F000000 0x3F800000 ++
      chain4 addRaw addRaw addRaw 0x3DCCCCCD 0x3E4CCCCD 0x3E99999A 0x3ECCCCCD ++
      chain4 addRaw addRaw addRaw 0xBF000000 0x3F000000 0 0) = true ∧
    allFinite (lumaSums 0x7F61B1E6 0x7F61B1E6 0 0 ++ chain4 addRaw addRaw addRaw 0 0 0 0 ++
      chain4 addRaw addRaw addRaw 0 0 0 0) = false := by decide +kernel

/-- The sums of DctiResult. -/
def blockSums (a b c d : Word) : List Word :=
  chain4 subRaw subRaw addRaw a b c d ++ chain4 subRaw addRaw subRaw a b c d ++
    chain4 addRaw subRaw subRaw a b c d ++ chain4 addRaw addRaw addRaw a b c d

/-- V-D7 and V-D9. -/
theorem witness_DctiResult :
    allFinite (TransformBlock.words ⟨0x3EE00000, 0x3EA00000, 0x3E400000, 0x3D800000, 0x3E800000, 0⟩) = true ∧
    allFinite (blockSums 0x3EE00000 0x3EA00000 0x3E400000 0x3D800000) = true ∧
    allFinite (TransformBlock.words ⟨0x7F61B1E6, 0xFF61B1E6, 0, 0, 0, 0⟩) = true ∧
    allFinite (blockSums 0x7F61B1E6 0xFF61B1E6 0 0) = false := by decide +kernel

/-- 2^125 and its negative. -/
theorem witness_TransformsComplete :
    isFinite 0x7E000000 = true ∧ |toRat 0x7E000000| ≤ 2 ^ 125 ∧ isFinite 0xFE000000 = true ∧
    |toRat 0xFE000000| ≤ 2 ^ 125 := by decide +kernel

/-- A pixel at the ends of its ranges, and one at the others. -/
theorem witness_DctfRanges :
    ∀ p ∈ [(⟨0x3F800000, 0xBF000000, 0x3F000000⟩ : YppPixel), ⟨0, 0x3F000000, 0xBF000000⟩],
      allFinite p.words = true ∧ 0 ≤ toRat p.y ∧ toRat p.y ≤ 1 ∧ |toRat p.pb| ≤ 1 / 2 ∧ |toRat p.pr| ≤ 1 / 2 := by
  decide +kernel

/-- V-D2 and V-D7. -/
theorem witness_ChromaIsAveraged :
    Answers (.dctf ⟨0, 0x3DCCCCCD, 0xBF000000⟩ ⟨0x3E800000, 0x3E4CCCCD, 0x3F000000⟩ ⟨0x3F000000, 0x3E99999A, 0⟩
      ⟨0x3F800000, 0x3ECCCCCD, 0⟩)
      (0x00003000 :: TransformBlock.words ⟨0x3EE00000, 0x3EA00000, 0x3E400000, 0x3D800000, 0x3E800000, 0⟩) ∧
    Answers (.dcti ⟨0x3EE00000, 0x3EA00000, 0x3E400000, 0x3D800000, 0x3E800000, 0⟩)
      (0x00003100 :: (YppPixel.words ⟨0, 0x3E800000, 0⟩ ++ YppPixel.words ⟨0x3E800000, 0x3E800000, 0⟩ ++
        YppPixel.words ⟨0x3F000000, 0x3E800000, 0⟩ ++ YppPixel.words ⟨0x3F800000, 0x3E800000, 0⟩)) :=
  ⟨answers_of_rule (res := [0x3EE00000, 0x3EA00000, 0x3E400000, 0x3D800000, 0x3E800000, 0])
      (by decide +kernel) (by decide +kernel),
    answers_of_rule (res := [0, 0x3E800000, 0, 0x3E800000, 0x3E800000, 0, 0x3F000000, 0x3E800000, 0, 0x3F800000, 0x3E800000, 0])
      (by decide +kernel) (by decide +kernel)⟩

/-- The luma of V-D2: 0, 1, 2 and 4 quarters. -/
theorem witness_DyadicTileRoundTrip :
    2 ≤ 120 ∧ (∀ k : Fin 4, (![0, 1, 2, 4] : Fin 4 → Nat) k ≤ 2 ^ 21) ∧ toRat 0x00000000 = (0 : Nat) / 2 ^ 2 ∧
    toRat 0x3E800000 = (1 : Nat) / 2 ^ 2 ∧ toRat 0x3F000000 = (2 : Nat) / 2 ^ 2 ∧ toRat 0x3F800000 = (4 : Nat) / 2 ^ 2 ∧
    |toRat 0x3F000000| ≤ 1 / 2 ∧ allFinite [0, 0x3E800000, 0x3F000000, 0x3F800000] = true := by decide +kernel

/-! Quantizer. -/

/-- What QUANT answers when its two indices are left as the table gives them. -/
theorem quant_ok {t : TransformBlock} {a b c d : Int} (hf : allFinite t.words = true)
    (hr : (lt t.a zero || lt one t.a) = false) (ha : quantizeA t.a = .ok a) (hb : quantizeDiff t.b = .ok b)
    (hc : quantizeDiff t.c = .ok c) (hd : quantizeDiff t.d = .ok d) :
    Answers (.quant t) (0x00004000 :: QuantBlock.words ⟨u32 a, u32 b, u32 c, u32 d,
      indexWord (ioc chromaLut t.avgPb), indexWord (ioc chromaLut t.avgPr)⟩) := by
  have hw : statusWord resultOk 0 Opcode.quant.code 0 = 0x00004000 := by decide +kernel
  have h : answerOf (.quant t) = .ok (QuantBlock.words ⟨u32 a, u32 b, u32 c, u32 d,
      indexWord (ioc chromaLut t.avgPb), indexWord (ioc chromaLut t.avgPr)⟩) := by
    simp only [answerOf, quantAnswer, hf, hr, ha, hb, hc, hd]
    rfl
  have := answers_of_ok h
  rwa [okResponse, show (Instr.quant t).opcode = .quant from rfl, hw] at this

/-- The block of V-Q3, whatever the chroma table is. -/
theorem answers_quant : ∃ i j : Word, Answers (.quant ⟨0, 0x3C23D70A, 0x3CF5C28F, 0xBDCCCCCD, 0x3CA3D70A, 0xBCB020C5⟩)
    (0x00004000 :: QuantBlock.words ⟨0, 0, 1, 0xFFFFFFFB, i, j⟩) :=
  ⟨_, _, quant_ok (a := 0) (b := 0) (c := 1) (d := -5) (by decide +kernel) (by decide +kernel) (by decide +kernel)
    (by decide +kernel) (by decide +kernel) (by decide +kernel)⟩

/-- a = −0 and a = 1 are in range; the least value above 1 and −0.001 are not (V-Q6, V-Q2, V-Q7, V-Q8). -/
theorem witness_QuantResult :
    allFinite (TransformBlock.words ⟨0x80000000, 0, 0, 0, 0, 0⟩) = true ∧ 0 ≤ toRat 0x80000000 ∧ toRat 0x80000000 ≤ 1 ∧
    0 ≤ toRat 0x3F800000 ∧ toRat 0x3F800000 ≤ 1 ∧ 1 < toRat 0x3F800001 ∧ toRat 0xBA83126F < 0 ∧
    allFinite (TransformBlock.words ⟨0x3F800001, 0, 0, 0, 0, 0⟩) = true := by decide +kernel

theorem codes_in_range : ∀ x ∈ [(15 : Word), 0xFFFFFFF0, 0], -16 ≤ x.toInt ∧ x.toInt ≤ 15 := by
  intro x hx
  simp only [List.mem_cons, List.not_mem_nil, or_false] at hx
  rcases hx with rfl | rfl | rfl <;> decide +kernel

theorem witness_QuantRanges : ∃ q : QuantBlock,
    Answers (.quant ⟨0, 0x3C23D70A, 0x3CF5C28F, 0xBDCCCCCD, 0x3CA3D70A, 0xBCB020C5⟩) (0x00004000 :: q.words) :=
  answers_quant.elim fun _ h => h.elim fun _ h => ⟨_, h⟩

/-- Codes at the ends of their ranges, one outside each end, and an UNPACK result. -/
theorem witness_DequantResult :
    (511 : Word).toNat ≤ 511 ∧ (∀ x ∈ [(15 : Word), 0xFFFFFFF0, 0], -16 ≤ x.toInt ∧ x.toInt ≤ 15) ∧ (15 : Word).toNat ≤ 15 ∧
    ¬ (512 : Word).toNat ≤ 511 ∧ ¬ (16 : Word).toInt ≤ 15 ∧ ¬ -16 ≤ (0xFFFFFFEF : Word).toInt ∧ ¬ (16 : Word).toNat ≤ 15 ∧
    Answers (.unpack 0x00C27834) (0x00005100 :: QuantBlock.words ⟨1, 0xFFFFFFF0, 0xFFFFFFF3, 0xFFFFFFF8, 3, 4⟩) :=
  ⟨by decide, codes_in_range, by decide, by decide, by decide +kernel, by decide +kernel, by decide, answers_unpack⟩

/-- A QUANT result, and codes with −16 among them. -/
theorem witness_QuantIdempotent : (∃ q : QuantBlock,
    Answers (.quant ⟨0, 0x3C23D70A, 0x3CF5C28F, 0xBDCCCCCD, 0x3CA3D70A, 0xBCB020C5⟩) (0x00004000 :: q.words)) ∧
    (511 : Word).toNat ≤ 511 ∧ (∀ x ∈ [(15 : Word), 0xFFFFFFF0, 0], -16 ≤ x.toInt ∧ x.toInt ≤ 15) ∧ (15 : Word).toNat ≤ 15 :=
  ⟨witness_QuantRanges, by decide, codes_in_range, by decide⟩

theorem witness_ChridxNearestLevel : isFinite 0x00000000 = true ∧ isFinite 0xFF7FFFFF = true := by decide

theorem witness_ChromaTableIsLegal : (0 : Fin 16) < 15 ∧ 15 < (16 : Word).toNat ∧ 15 < (0xFFFFFFFF : Word).toNat := by decide

/-! Packer. -/

/-- Which of a block's codes fit, in field order. -/
def codesFit (q : QuantBlock) : List Bool :=
  [q.qa.toNat ≤ 511, -16 ≤ q.qb.toInt ∧ q.qb.toInt ≤ 15, -16 ≤ q.qc.toInt ∧ q.qc.toInt ≤ 15,
    -16 ≤ q.qd.toInt ∧ q.qd.toInt ≤ 15, q.qpb.toNat ≤ 15, q.qpr.toNat ≤ 15]

/-- V-P3's codes all fit, and for each field codes of which the earlier ones fit and it does not (V-P10, V-P7, V-P8, V-P9). -/
theorem witness_CodeWordLayout :
    (codesFit ⟨511, 0xFFFFFFF0, 0xFFFFFFF0, 15, 15, 15⟩).all id = true ∧
    ∀ f : Fin 6,
      let q := [(⟨600, 16, 0, 0, 0, 0⟩ : QuantBlock), ⟨0, 16, 0, 0, 0, 0⟩, ⟨0, 0, 0xFFFFFFEF, 0, 0, 0⟩,
        ⟨0, 0, 0, 0xFFFFFFEF, 0, 0⟩, ⟨0, 0, 0, 0, 16, 0⟩, ⟨0, 0, 0, 0, 0, 16⟩].getD f.val ⟨0, 0, 0, 0, 0, 0⟩
      (∀ k < f.val, (codesFit q).getD k false = true) ∧ (codesFit q).getD f.val false = false := by decide +kernel

theorem witness_PackUnpackInverse :
    (511 : Word).toNat ≤ 511 ∧ (∀ x ∈ [(15 : Word), 0xFFFFFFF0, 0], -16 ≤ x.toInt ∧ x.toInt ≤ 15) ∧ (15 : Word).toNat ≤ 15 :=
  ⟨by decide, codes_in_range, by decide⟩

theorem witness_BigEndianBytes :
    (255 : Word).toNat ≤ 255 ∧ (0 : Word).toNat ≤ 255 ∧ 255 < (256 : Word).toNat := by decide

theorem witness_ImpossibleFaults :
    allFinite (TransformBlock.words ⟨0x40000000, 0, 0, 0, 0, 0⟩) = true ∧ 5 < 6 ∧ ∃ q : QuantBlock,
    Answers (.quant ⟨0, 0x3C23D70A, 0x3CF5C28F, 0xBDCCCCCD, 0x3CA3D70A, 0xBCB020C5⟩) (0x00004000 :: q.words) :=
  ⟨by decide +kernel, by decide, witness_QuantRanges⟩

/-- W8 and W9: the grey 2×2 image with LUT_T. -/
theorem witness_StreamLength :
    (compressWords lutT 255 2 2 (fun _ _ => ⟨128, 128, 128⟩)).toOption = some [0x80800088] ∧
    (compressBytes lutT 255 2 2 (fun _ _ => ⟨128, 128, 128⟩)).toOption = some [0x80, 0x80, 0x00, 0x88] := by decide +kernel

end Sys2Proof.Tests
end

/-! Binary32 rounding and the integer conversions (R11, R13, R16): overflow, exactness and nearness are shown of the
magnitudes that `fl` rounds, in integers, and then carried to the rationals of `flRat`. -/

namespace Sys2Proof.Machine.Binary32

/-! ## Overflow, exact results, and the nearest magnitude -/

/-- At an even `j`, the tie halfway below `j` is rounded up to it. -/
theorem nearestEven_lt_iff_of_even {num den j : Nat} (hd : 0 < den) (hj : j % 2 = 0) (hpos : 0 < j) :
    nearestEven num den < j ↔ 2 * num < (2 * j - 1) * den := by
  obtain ⟨hlow, hhigh⟩ := nearestEven_bound num den hd
  have htie := nearestEven_tie num den hd
  set k := nearestEven num den
  constructor
  · intro hk
    rcases Nat.lt_or_ge (k + 1) j with hlt | hge
    · have : (2 * k + 1 + 1) * den ≤ (2 * j - 1) * den := Nat.mul_le_mul_right _ (by omega)
      nlinarith
    · have hkj : 2 * j - 1 = 2 * k + 1 := by omega
      rw [hkj]
      refine lt_of_le_of_ne hlow fun heq => ?_
      have := htie (.inl heq)
      omega
  · intro hnum
    by_contra hk
    have : (2 * j - 1) * den ≤ (2 * k - 1) * den := Nat.mul_le_mul_right _ (by omega)
    have : (2 * k - 1) * den + den = 2 * k * den := by
      rw [← Nat.succ_mul]; congr 1; omega
    omega

/-- The rounded bits overflow exactly from half a spacing beyond the largest finite value on: `2^277 − 2^252` units
of `2^−149` (R11). -/
theorem nearestBits_lt_infBits_iff {num den : Nat} (hd : 0 < den) :
    nearestBits num den < infBits ↔ num < (2 ^ 25 - 1) * 2 ^ 252 * den := by
  obtain ⟨hk24, hk23⟩ := nearestEven_range (num := num) hd
  have hupper := lt_of_ulpExp (num := num) hd
  have hlower := pow_le_of_ulpExp_pos (num := num) (den := den)
  unfold nearestBits infBits
  generalize ulpExp num den = e at *
  rcases Nat.lt_trichotomy e 253 with he | rfl | he
  · have : den * 2 ^ e ≤ den * 2 ^ 252 := by gcongr <;> omega
    omega
  · have hhalf := nearestEven_lt_iff_of_even (num := num) (den := den * 2 ^ 253) (j := 2 ^ 24)
      (by positivity) (by norm_num) (by norm_num)
    omega
  · have := hlower (by omega)
    have : den * 2 ^ 254 ≤ den * 2 ^ e := by gcongr <;> omega
    omega

theorem isFinite_fl_iff {neg : Bool} {num den : Nat} (hd : 0 < den) :
    isFinite (fl neg num den) = true ↔ num < (2 ^ 25 - 1) * 2 ^ 252 * den :=
  isFinite_fl.trans (nearestBits_lt_infBits_iff hd)

/-- A value of at most 24 bits at the spacing `2^e` is a whole number of the spacings it is rounded with: those are `2^e` or
finer, but for `2^24` of them, which begin the next binade. -/
theorem pow_ulpExp_dvd {m e den : Nat} (hd : 0 < den) (hm : m ≤ 2 ^ 24) :
    2 ^ ulpExp (m * 2 ^ e * den) den ∣ m * 2 ^ e := by
  have hlower := pow_le_of_ulpExp_pos (num := m * 2 ^ e * den) (den := den)
  generalize ulpExp (m * 2 ^ e * den) den = u at *
  rcases Nat.le_total u e with hue | hue
  · exact Dvd.dvd.mul_left (pow_dvd_pow 2 hue) m
  rcases hue.eq_or_lt with rfl | hlt
  · exact Nat.dvd_mul_left _ m
  have hu : 2 ^ 23 * 2 ^ u ≤ m * 2 ^ e := Nat.le_of_mul_le_mul_right (by linarith [hlower (by omega)]) hd
  have hm24 : m = 2 ^ 24 := by
    refine le_antisymm hm (Nat.le_of_mul_le_mul_right ?_ (Nat.two_pow_pos e))
    calc 2 ^ 24 * 2 ^ e = 2 ^ 23 * 2 ^ (e + 1) := by ring
      _ ≤ 2 ^ 23 * 2 ^ u := by gcongr <;> omega
      _ ≤ m * 2 ^ e := hu
  have hpow : 2 ^ u ≤ 2 ^ (e + 1) := by
    rw [hm24] at hu
    rw [pow_succ]
    omega
  have hue : u ≤ 24 + e := by
    have := (Nat.pow_le_pow_iff_right (by norm_num)).mp hpow
    omega
  rw [hm24, ← pow_add]
  exact pow_dvd_pow 2 hue

/-- A value of at most 24 bits at a binade's spacing is a binary32 value, and rounding leaves it. -/
theorem magnitude_fl_exact (neg : Bool) {m e den : Nat} (hd : 0 < den) (hm : m ≤ 2 ^ 24) (he : e ≤ 252) :
    isFinite (fl neg (m * 2 ^ e * den) den) = true ∧ magnitude (fl neg (m * 2 ^ e * den) den) = m * 2 ^ e := by
  have hfin : isFinite (fl neg (m * 2 ^ e * den) den) = true := by
    rw [isFinite_fl_iff hd]
    have : m * 2 ^ e * den ≤ 2 ^ 24 * 2 ^ 252 * den := by gcongr; norm_num
    omega
  refine ⟨hfin, ?_⟩
  rw [magnitude_fl hd hfin]
  obtain ⟨c, hc⟩ := pow_ulpExp_dvd hd hm
  generalize ulpExp (m * 2 ^ e * den) den = u at *
  rw [hc, show 2 ^ u * c * den = c * (den * 2 ^ u) by ring, nearestEven_mul _ _ (by positivity), Nat.mul_comm]

/-- No multiple of `den` is nearer `num` than `nearestEven num den` of them, and where another is equally near, that
number is even. -/
theorem nearestEven_nearest (num : Nat) {den : Nat} (hd : 0 < den) (j : Nat) :
    |(nearestEven num den * den : Int) - num| ≤ |(j * den : Int) - num| ∧
    (|(j * den : Int) - num| = |(nearestEven num den * den : Int) - num| → j ≠ nearestEven num den →
      nearestEven num den % 2 = 0) := by
  obtain ⟨hlow, hhigh⟩ := nearestEven_bound num den hd
  have htie := nearestEven_tie num den hd
  set k := nearestEven num den
  simp only [Nat.add_mul, Nat.mul_assoc, Nat.one_mul] at hlow hhigh htie
  zify at hlow hhigh htie
  simp only [Int.abs_eq_natAbs]
  rcases Nat.lt_trichotomy j k with hlt | rfl | hgt
  · have hstep : (j + 1) * den ≤ k * den := Nat.mul_le_mul_right _ hlt
    rw [Nat.add_mul] at hstep
    zify at hstep
    exact ⟨by omega, fun h _ => by exact_mod_cast htie (by omega)⟩
  · simp
  · have hstep : (k + 1) * den ≤ j * den := Nat.mul_le_mul_right _ hgt
    rw [Nat.add_mul] at hstep
    zify at hstep
    exact ⟨by omega, fun h _ => by exact_mod_cast htie (by omega)⟩

/-- Every binary32 magnitude is a whole number of spacings of binade `e`, or lies below that binade. -/
theorem magnitude_dvd_or_lt (v : Word) (e : Nat) : 2 ^ e ∣ magnitude v ∨ magnitude v < 2 ^ 23 * 2 ^ e := by
  have hfrac : fracField v < 2 ^ 23 := (v.extractLsb' 0 23).isLt
  unfold magnitude
  split
  · right
    calc fracField v < 2 ^ 23 * 1 := by omega
      _ ≤ 2 ^ 23 * 2 ^ e := by gcongr; exact Nat.one_le_two_pow
  · rcases Nat.lt_or_ge (expField v - 1) e with he | he
    · right
      calc (2 ^ 23 + fracField v) * 2 ^ (expField v - 1)
          < 2 ^ 24 * 2 ^ (expField v - 1) := by gcongr; omega
        _ = 2 ^ 23 * 2 ^ (expField v - 1 + 1) := by ring
        _ ≤ 2 ^ 23 * 2 ^ e := by gcongr <;> omega
    · exact .inl (Dvd.dvd.mul_left (pow_dvd_pow 2 he) _)

/-- The fraction's last bit is the parity of the number of spacings. -/
theorem getLsbD_zero_fl {neg : Bool} {num den : Nat} (h : isFinite (fl neg num den) = true) :
    (fl neg num den).getLsbD 0 = decide (nearestEven num (den * 2 ^ ulpExp num den) % 2 = 1) := by
  have hb := isFinite_fl.mp h
  unfold fl
  rw [BitVec.getLsbD, toNat_ofBits neg (min_infBits_lt _), min_eq_left (le_of_lt hb), Nat.testBit_zero]
  unfold nearestBits
  cases neg <;> simp <;> omega

/-- R11 for magnitudes: no binary32 magnitude is nearer `num / den` than the rounded one, and where another is equally
near, the rounded fraction is even. -/
theorem magnitude_fl_nearest {neg : Bool} {num den : Nat} (hd : 0 < den) (h : isFinite (fl neg num den) = true)
    (v : Word) :
    |(magnitude (fl neg num den) * den : Int) - num| ≤ |(magnitude v * den : Int) - num| ∧
    (|(magnitude v * den : Int) - num| = |(magnitude (fl neg num den) * den : Int) - num| →
      magnitude v ≠ magnitude (fl neg num den) → (fl neg num den).getLsbD 0 = false) := by
  rw [magnitude_fl hd h, getLsbD_zero_fl h]
  have hpos : 0 < den * 2 ^ ulpExp num den := by positivity
  have hnear := nearestEven_nearest num hpos
  have hlower := pow_le_of_ulpExp_pos (num := num) (den := den)
  have hgrid := magnitude_dvd_or_lt v (ulpExp num den)
  generalize ulpExp num den = e at *
  set k := nearestEven num (den * 2 ^ e)
  have hk : ((k * 2 ^ e : Nat) * den : Int) = k * (den * 2 ^ e : Nat) := by push_cast; ring
  rw [hk]
  by_cases hdvd : 2 ^ e ∣ magnitude v
  · obtain ⟨j, hj⟩ := hdvd
    obtain ⟨hle, htie⟩ := hnear j
    have hjv : (magnitude v * den : Int) = j * (den * 2 ^ e : Nat) := by rw [hj]; push_cast; ring
    rw [hjv]
    refine ⟨hle, fun heq hne => ?_⟩
    have := htie heq (fun hjk => hne (by rw [hj, hjk, Nat.mul_comm]))
    simp [this]
  · have hv : magnitude v < 2 ^ 23 * 2 ^ e := hgrid.resolve_left hdvd
    have he : 0 < e := Nat.pos_of_ne_zero fun h0 => hdvd (by simp [h0])
    have hvden : magnitude v * den < 2 ^ 23 * (den * 2 ^ e) := by
      calc magnitude v * den < 2 ^ 23 * 2 ^ e * den := by gcongr
        _ = 2 ^ 23 * (den * 2 ^ e) := by ring
    have hbottom := hlower he
    obtain ⟨hle, -⟩ := hnear (2 ^ 23)
    zify at hvden hbottom
    push_cast at hle ⊢
    have hlt : |(k * (den * 2 ^ e) : Int) - num| < |(magnitude v * den : Int) - num| := by
      refine hle.trans_lt ?_
      rw [abs_of_nonpos (by linarith), abs_of_neg (by linarith)]
      linarith
    exact ⟨hlt.le, fun heq _ => absurd heq hlt.ne'⟩

/-! ## The value of a word -/

theorem abs_toRat (u : Word) : |toRat u| = magnitude u / 2 ^ 149 := by
  unfold toRat scaled
  rw [abs_div, abs_of_pos (by positivity : (0 : ℚ) < 2 ^ 149)]
  cases signBit u <;> simp

theorem toRat_of_signBit {u : Word} (h : signBit u = false) : toRat u = magnitude u / 2 ^ 149 := by
  simp [toRat, scaled, h]

theorem toRat_of_signBit_neg {u : Word} (h : signBit u = true) : toRat u = -(magnitude u / 2 ^ 149) := by
  simp [toRat, scaled, h, neg_div]

theorem toRat_neg_iff (u : Word) : toRat u < 0 ↔ signBit u = true ∧ magnitude u ≠ 0 := by
  cases h : signBit u
  · simp [toRat_of_signBit h]; positivity
  · simp [toRat_of_signBit_neg h, Nat.pos_iff_ne_zero]

/-! ## Rounding a rational -/

/-- The rounded rational does not depend on how its units of `2^−149` are written as a fraction. -/
theorem flRat_eq_fl {q : ℚ} {z : Int} {den : Nat} (hd : 0 < den) (h : q * 2 ^ 149 = z / den) :
    flRat q = fl (decide (z < 0)) z.natAbs den := by
  obtain ⟨c, hz, hden⟩ := Rat.exists_eq_mul_div_num_and_eq_mul_div_den z (d := den) (by exact_mod_cast hd.ne')
  rw [Int.cast_natCast, ← h] at hz hden
  have hc : 0 < c := by
    have : 0 < c * ((q * 2 ^ 149).den : Int) := hden ▸ by exact_mod_cast hd
    exact pos_of_mul_pos_left this (by positivity)
  have hzabs : z.natAbs = (q * 2 ^ 149).num.natAbs * c.natAbs := by
    rw [congrArg Int.natAbs hz, Int.natAbs_mul, Nat.mul_comm]
  have hdabs : den = (q * 2 ^ 149).den * c.natAbs := by
    rw [← Int.natAbs_natCast den, hden, Int.natAbs_mul, Nat.mul_comm, Int.natAbs_natCast]
  have hsign : z < 0 ↔ q < 0 := by
    rw [hz, ← smul_eq_mul, smul_neg_iff_of_pos_left hc, Rat.num_neg, mul_comm, ← smul_eq_mul,
      smul_neg_iff_of_pos_left (by positivity)]
  rw [hzabs, hdabs, fl_scale _ _ _ _ (by omega), flRat]
  simp only [hsign]

@[simp] theorem signBit_flRat (q : ℚ) : signBit (flRat q) = decide (q < 0) := signBit_fl _ _ _

/-- The magnitude of a rational in units of `2^−149`, as `flRat` takes it apart. -/
theorem abs_mul_units (q : ℚ) :
    |q| * 2 ^ 149 = ((q * 2 ^ 149).num.natAbs : ℚ) / (q * 2 ^ 149).den := by
  have h : |q| * 2 ^ 149 = |q * 2 ^ 149| := by rw [abs_mul, abs_of_pos (by positivity : (0 : ℚ) < 2 ^ 149)]
  rw [h]
  nth_rewrite 1 [← Rat.num_div_den (q * 2 ^ 149)]
  rw [abs_div, Nat.abs_cast, Nat.cast_natAbs, Int.cast_abs]

/-- R11's overflow threshold. -/
theorem isFinite_flRat_iff (q : ℚ) : isFinite (flRat q) = true ↔ |q| < 2 ^ 128 - 2 ^ 103 := by
  have hden : (0 : ℚ) < (q * 2 ^ 149).den := by exact_mod_cast (q * 2 ^ 149).den_pos
  have hunits := abs_mul_units q
  rw [eq_div_iff hden.ne'] at hunits
  rw [flRat, isFinite_fl_iff (q * 2 ^ 149).den_pos, ← Nat.cast_lt (α := ℚ), ← hunits]
  push_cast
  rw [mul_lt_mul_iff_left₀ hden]
  constructor <;> intro h <;> linarith

theorem flRat_overflow {q : ℚ} (h : 2 ^ 128 - 2 ^ 103 ≤ |q|) :
    flRat q = if q < 0 then 0xFF800000 else 0x7F800000 := by
  have hinf : infBits ≤ nearestBits (q * 2 ^ 149).num.natAbs (q * 2 ^ 149).den := by
    rw [← not_lt, ← isFinite_fl (neg := decide (q < 0)), ← flRat, isFinite_flRat_iff]
    exact not_lt.mpr h
  rw [flRat, fl, min_eq_right hinf]
  by_cases hq : q < 0 <;> simp [hq, ofBits, infBits]

/-- How far a magnitude is from `|q|`, in the integers `flRat` rounds. -/
theorem abs_magnitude_sub (m : Nat) (q : ℚ) :
    |(m : ℚ) / 2 ^ 149 - abs q| =
      ((|(m * (q * 2 ^ 149).den : Int) - (q * 2 ^ 149).num.natAbs| : Int) : ℚ) / ((q * 2 ^ 149).den * 2 ^ 149) := by
  have hunits := abs_mul_units q
  have hden : (0 : ℚ) < (q * 2 ^ 149).den := by exact_mod_cast (q * 2 ^ 149).den_pos
  generalize (q * 2 ^ 149).num.natAbs = num at *
  generalize (q * 2 ^ 149).den = den at *
  have hq : (m : ℚ) / 2 ^ 149 - |q| = ((m * den : ℚ) - num) / (den * 2 ^ 149) := by
    have : |q| = num / den / 2 ^ 149 := by rw [← hunits]; field_simp
    rw [this]; field_simp
  rw [hq, abs_div, abs_of_pos (a := (den : ℚ) * 2 ^ 149) (by positivity)]
  norm_cast

/-- R11 for the distances of magnitudes: `magnitude_fl_nearest` in rationals. -/
theorem magnitude_flRat_nearest {q : ℚ} (h : isFinite (flRat q) = true) (v : Word) :
    |(magnitude (flRat q) : ℚ) / 2 ^ 149 - abs q| ≤ |(magnitude v : ℚ) / 2 ^ 149 - abs q| ∧
    (|(magnitude v : ℚ) / 2 ^ 149 - abs q| = |(magnitude (flRat q) : ℚ) / 2 ^ 149 - abs q| →
      magnitude v ≠ magnitude (flRat q) → (flRat q).getLsbD 0 = false) := by
  have hden : (0 : ℚ) < (q * 2 ^ 149).den * 2 ^ 149 := by
    have := (q * 2 ^ 149).den_pos
    positivity
  obtain ⟨hle, htie⟩ := magnitude_fl_nearest (q * 2 ^ 149).den_pos h v
  rw [abs_magnitude_sub, abs_magnitude_sub, div_le_div_iff_of_pos_right hden, div_left_inj' hden.ne']
  exact ⟨by exact_mod_cast hle, fun heq => htie (by exact_mod_cast heq)⟩

/-- A word of `q`'s sign is as far from `q` as its magnitude is from `|q|`. -/
theorem abs_toRat_sub_of_signBit {u : Word} {q : ℚ} (h : signBit u = decide (q < 0)) :
    |toRat u - q| = |(magnitude u : ℚ) / 2 ^ 149 - abs q| := by
  by_cases hq : q < 0
  · rw [toRat_of_signBit_neg (by simp [h, hq]), abs_of_neg hq, ← abs_neg]
    congr 1; ring
  · rw [toRat_of_signBit (by simp [h, hq]), abs_of_nonneg (not_lt.mp hq)]

/-- No binary32 value is nearer `q` than `fl(q)` (R11). -/
theorem flRat_nearest {q : ℚ} (h : isFinite (flRat q) = true) (v : Word) :
    |toRat (flRat q) - q| ≤ |toRat v - q| := by
  calc |toRat (flRat q) - q|
      = |(magnitude (flRat q) : ℚ) / 2 ^ 149 - abs q| := abs_toRat_sub_of_signBit (signBit_flRat q)
    _ ≤ |(magnitude v : ℚ) / 2 ^ 149 - abs q| := (magnitude_flRat_nearest h v).1
    _ = |abs (toRat v) - abs q| := by rw [abs_toRat]
    _ ≤ |toRat v - q| := abs_abs_sub_abs_le _ _

/-- Where another binary32 value is as near `q` as `fl(q)`, the fraction of `fl(q)` is even (R11). The other value is not the
negative of `fl(q)`, because only for `q = 0` are a value and its negative equally near. -/
theorem flRat_tie {q : ℚ} (h : isFinite (flRat q) = true) {v : Word}
    (heq : |toRat v - q| = |toRat (flRat q) - q|) (hne : toRat v ≠ toRat (flRat q)) :
    (flRat q).getLsbD 0 = false := by
  obtain ⟨hle, htie⟩ := magnitude_flRat_nearest h v
  have hge : |(magnitude v : ℚ) / 2 ^ 149 - abs q| ≤ |(magnitude (flRat q) : ℚ) / 2 ^ 149 - abs q| := by
    rw [← abs_toRat_sub_of_signBit (signBit_flRat q), ← heq, ← abs_toRat]
    exact abs_abs_sub_abs_le _ _
  refine htie (le_antisymm hge hle) fun hmag => hne ?_
  have habs : |toRat v| = |toRat (flRat q)| := by rw [abs_toRat, abs_toRat, hmag]
  have hneg : toRat v = -toRat (flRat q) := (abs_eq_abs.mp habs).resolve_left hne
  have hzero : toRat (flRat q) = 0 := by
    rw [hneg] at heq
    rcases abs_eq_abs.mp heq with heq | heq
    · linarith
    · have hq : q = 0 := by linarith
      subst hq
      have := flRat_nearest h 0
      rwa [show toRat 0 = 0 by decide +kernel, sub_self, abs_zero, sub_zero, abs_nonpos_iff] at this
  rw [hneg, hzero, neg_zero]

/-! ## Integers (R13, R16) -/

/-- `cvt` rounds the integer's value (R13). -/
theorem cvt_eq_flRat (n : Int) : cvt n = flRat n := by
  rw [flRat_eq_fl (q := n) (z := n * 2 ^ 149) Nat.one_pos (by push_cast; ring), Int.natAbs_mul]
  have hsign : n * 2 ^ 149 < 0 ↔ n < 0 := by omega
  simp only [hsign]
  rfl

/-- An integer of at most 24 bits is a binary32 value (R13). -/
theorem cvt_exact {n : Int} (h : |n| ≤ 2 ^ 24) : isFinite (cvt n) = true ∧ toRat (cvt n) = n := by
  obtain ⟨hfin, hmag⟩ := magnitude_fl_exact (decide (n < 0)) (m := n.natAbs) (e := 149) Nat.one_pos (by rw [Int.abs_eq_natAbs] at h; omega)
    (by norm_num)
  rw [Nat.mul_one] at hfin hmag
  have hval : ((magnitude (cvt n) : ℚ)) / 2 ^ 149 = |(n : ℚ)| := by
    rw [cvt, hmag]
    rw [Nat.cast_mul, Nat.cast_natAbs, Int.cast_abs]
    push_cast
    exact mul_div_cancel_right₀ _ (by norm_num)
  refine ⟨hfin, ?_⟩
  by_cases hn : n < 0
  · rw [toRat_of_signBit_neg (by simp [cvt, hn]), hval, abs_of_neg (by exact_mod_cast hn), neg_neg]
  · rw [toRat_of_signBit (by simp [cvt, hn]), hval, abs_of_nonneg (by exact_mod_cast not_lt.mp hn)]

/-- The integer quotient of `rha` is the floor of R16. -/
theorem floor_abs_toRat_add_half (x : Word) :
    ⌊|toRat x| + 1 / 2⌋ = ((2 * magnitude x + 2 ^ 149) / 2 ^ 150 : Nat) := by
  have h : |toRat x| + 1 / 2 = ((2 * magnitude x + 2 ^ 149 : Nat) : ℚ) / (2 ^ 150 : Nat) := by
    rw [abs_toRat]
    push_cast
    ring
  rw [h, Rat.floor_natCast_div_natCast, Int.natCast_div]

/-- R16. The sign bit and `sign(x)` differ at −0 alone, where the floor is 0. -/
theorem rha_eq_sign_mul_floor (x : Word) :
    rha x = (if toRat x < 0 then -1 else 1) * ⌊|toRat x| + 1 / 2⌋ := by
  rw [floor_abs_toRat_add_half, rha]
  simp only [toRat_neg_iff]
  by_cases hmag : magnitude x = 0
  · simp [hmag]
  · by_cases hsign : signBit x = true <;> simp [hsign, hmag]

end Sys2Proof.Machine.Binary32

section
open Sys2Proof.Machine.Binary32

/-- Settles O35, by rounding the magnitude: the spacings of `q`'s binade are a grid that every value in or above it lies on,
and a value below it is farther than the binade's first. -/
theorem roundingIsNearestEven : Obligations.RoundingIsNearestEven := by
  intro q
  refine ⟨fun hq => ?_, flRat_overflow⟩
  have hfin := (isFinite_flRat_iff q).mpr hq
  exact ⟨hfin, fun v _ => ⟨flRat_nearest hfin v, flRat_tie hfin⟩⟩

/-- Settles O37, from `cvt` as a rounding of `n · 2^149` units and `rha`'s quotient as a floor. -/
theorem integerConversions : Obligations.IntegerConversions :=
  ⟨fun n => ⟨cvt_eq_flRat n, cvt_exact⟩, fun x _ => rha_eq_sign_mul_floor x,
    by decide +kernel, by decide +kernel, by decide +kernel, by decide +kernel⟩

end

/-! # What a command leaves, read off the answer of its rule (R40) -/

namespace Sys2Proof.Machine

/-- The words an answer puts into OUTQ (R76 to R78). -/
def Answer.response (op : Opcode) : Answer → List Word
  | .ok res => okResponse op res
  | .error (.overflow f) => overflowResponse op f
  | .error (.fault c) => faultResponse op.code c

/-- What an answer writes to STATUS: a value with a fatal fault, and nothing otherwise (R170). -/
def Answer.haltStatus (op : Opcode) : Answer → Option Word
  | .ok _ => none
  | .error (.overflow _) => none
  | .error (.fault c) => some (faultStatus op.code c)

/-- The end of a command reads nothing of the state: the appended words, and whether and with what STATUS it halts, are the
answer's alone. -/
theorem finish_eq_response (op : Opcode) (a : Answer) (s : State) :
    finish op a s =
      { s with
        outq := s.outq ++ a.response op
        status := (a.haltStatus op).getD s.status
        mode := if (a.haltStatus op).isSome then .halted else s.mode } := by
  obtain ⟨res, rfl, h⟩ | ⟨f, rfl, h⟩ | ⟨c, rfl, h⟩ := finish_cases op a s
  · exact h
  · exact h
  · exact h

end Sys2Proof.Machine

section
open Sys2Proof.Machine

/-- Settles O13: the rule of a command answers before any state is given, and `finish` delivers that answer. -/
theorem resultDependsOnCommandAlone : Obligations.ResultDependsOnCommandAlone := by
  intro i
  refine ⟨(answerOf i).response i.opcode, (answerOf i).haltStatus i.opcode, fun s => ?_⟩
  rw [exec_eq_finish, finish_eq_response]

end

/-! # Bit-field updates as arithmetic (R93, R95), and the bytes of a word (R52, R164 to R166) -/

namespace Sys2Proof.Machine

/-! ## The rules of the field functions -/

theorem testBit_fieldMask (w l k : Nat) : (fieldMask w l).testBit k = decide (l ≤ k ∧ k < l + w) := by
  rw [fieldMask, Nat.testBit_mul_two_pow, Nat.testBit_two_pow_sub_one, ← Bool.decide_and]
  exact decide_eq_decide.mpr (by omega)

/-- The bits of a word under a mask are its field's, in place. -/
theorem toNat_and_fieldMask (v : DWord) {w l : Nat} (h : l + w ≤ 64) :
    (v &&& BitVec.ofNat 64 (fieldMask w l)).toNat = getUnsigned v w l * 2 ^ l := by
  refine Nat.eq_of_testBit_eq fun k => ?_
  rw [BitVec.toNat_and, BitVec.toNat_ofNat, Nat.testBit_and, Nat.testBit_mod_two_pow, testBit_fieldMask, getUnsigned,
    Nat.testBit_mul_two_pow, Nat.testBit_mod_two_pow, Nat.testBit_div_two_pow]
  by_cases hk : l ≤ k
  · have hin : (k < l + w ∧ k < 64) ↔ k - l < w := by omega
    simp [← Bool.decide_and, hin, hk, Bool.and_comm]
  · simp [hk]

/-- A value of at most `w` bits, placed at `l`, has no bit outside its mask. -/
theorem not_fieldMask_and_ofNat {w l bits : Nat} (hb : bits < 2 ^ w) :
    ~~~(BitVec.ofNat 64 (fieldMask w l)) &&& BitVec.ofNat 64 (bits * 2 ^ l) = 0#64 := by
  refine BitVec.eq_of_getLsbD_eq fun k hk => ?_
  simp only [BitVec.getLsbD_and, BitVec.getLsbD_not, BitVec.getLsbD_ofNat, testBit_fieldMask, Nat.testBit_mul_two_pow]
  by_cases hin : l ≤ k ∧ k < l + w
  · simp [hin, hk]
  · by_cases hl : l ≤ k
    · have : bits.testBit (k - l) = false :=
        Nat.testBit_lt_two_pow (hb.trans_le (Nat.pow_le_pow_right (by norm_num) (by omega)))
      simp [this]
    · simp [hl]

/-- A value that fits the field, placed at `l`, is below `2^64`. -/
theorem toNat_ofNat_mul_two_pow {w l bits : Nat} (h : l + w ≤ 64) (hb : bits < 2 ^ w) :
    (BitVec.ofNat 64 (bits * 2 ^ l)).toNat = bits * 2 ^ l := by
  refine (BitVec.toNat_ofNat ..).trans (Nat.mod_eq_of_lt ?_)
  calc bits * 2 ^ l < 2 ^ w * 2 ^ l := by gcongr
    _ = 2 ^ (l + w) := by ring
    _ ≤ 2 ^ 64 := Nat.pow_le_pow_right (by norm_num) h

theorem toNat_or_of_and_eq_zero {n : Nat} {x y : BitVec n} (h : x &&& y = 0#n) :
    (x ||| y).toNat = x.toNat + y.toNat := by
  rw [← BitVec.add_eq_or_of_and_eq_zero x y h, BitVec.toNat_add_of_and_eq_zero h]

/-- A mask splits a word into two numbers that add up to it. -/
theorem toNat_and_not_add_and {n : Nat} (x m : BitVec n) :
    (x &&& ~~~m).toNat + (x &&& m).toNat = x.toNat := by
  have hdisjoint : x &&& ~~~m &&& (x &&& m) = 0#n := by
    ext k hk
    cases hm : m[k] <;> simp [hm]
  rw [← toNat_or_of_and_eq_zero hdisjoint]
  congr 1
  ext k hk
  cases hm : m[k] <;> simp [hm]

/-- A field update takes the old field's value out of the word and puts the new one in (R95). -/
theorem toNat_setField_add (v : DWord) {w l bits : Nat} (h : l + w ≤ 64) (hb : bits < 2 ^ w) :
    (setField v w l bits).toNat + getUnsigned v w l * 2 ^ l = v.toNat + bits * 2 ^ l := by
  have hdisjoint : v &&& ~~~(BitVec.ofNat 64 (fieldMask w l)) &&& BitVec.ofNat 64 (bits * 2 ^ l) = 0#64 := by
    rw [BitVec.and_assoc, not_fieldMask_and_ofNat hb, BitVec.and_zero]
  rw [setField, toNat_or_of_and_eq_zero hdisjoint, toNat_ofNat_mul_two_pow h hb, ← toNat_and_fieldMask v h,
    ← toNat_and_not_add_and v (BitVec.ofNat 64 (fieldMask w l))]
  omega

/-- Updating a field that holds 0 adds the new value in its place; the update cannot overflow. -/
theorem newUnsigned_of_getUnsigned_eq_zero (f : Fin 6) {v : DWord} {w l bits : Nat} (h : l + w ≤ 64) (hb : bits < 2 ^ w)
    (hv : getUnsigned v w l = 0) :
    ∃ v', newUnsigned f v w l bits = .ok v' ∧ v'.toNat = v.toNat + bits * 2 ^ l := by
  refine ⟨setField v w l bits, newUnsigned_ok_iff.mpr ⟨?_, rfl⟩, ?_⟩
  · exact decide_eq_true (Nat.le_sub_one_of_lt hb)
  · simpa [hv] using toNat_setField_add v h hb

/-- The result word of an unsigned field of a 32-bit word is that field, zero-extended. -/
theorem u32_getUnsigned_zext64 (word : Word) {w l : Nat} (h : w ≤ 32) :
    u32 (getUnsigned (zext64 word) w l) = (word.extractLsb' l w).setWidth 32 := by
  rw [u32, BitVec.ofInt_natCast, getUnsigned, zext64, BitVec.toNat_setWidth_of_le (by norm_num)]
  refine BitVec.eq_of_toNat_eq ?_
  rw [BitVec.toNat_ofNat, BitVec.toNat_setWidth_of_le h, BitVec.extractLsb'_toNat, Nat.shiftRight_eq_div_pow]
  exact Nat.mod_eq_of_lt ((Nat.mod_lt _ (by positivity)).trans_le (Nat.pow_le_pow_right (by norm_num) h))

/-! ## SERBE and DESERBE -/

/-- `answers_of_ok` with the OK status word evaluated. -/
theorem answers_cons_of_ok {i : Instr} {op : Opcode} {res : List Word} {status : Word} (h : answerOf i = .ok res)
    (hop : i.opcode = op) (hstatus : statusWord resultOk 0 op.code 0 = status) : Answers i (status :: res) :=
  hstatus ▸ hop ▸ answers_of_ok h

/-- SERBE answers the bytes of the word, highest first (R164). -/
theorem answers_serbe_bytes (word : Word) :
    Answers (.serbe word)
      [0x00005200, (word.extractLsb' 24 8).setWidth 32, (word.extractLsb' 16 8).setWidth 32,
        (word.extractLsb' 8 8).setWidth 32, (word.extractLsb' 0 8).setWidth 32] := by
  have hrule : answerOf (.serbe word) = .ok
      [u32 (getUnsigned (zext64 word) 8 24), u32 (getUnsigned (zext64 word) 8 16),
        u32 (getUnsigned (zext64 word) 8 8), u32 (getUnsigned (zext64 word) 8 0)] := rfl
  simp only [u32_getUnsigned_zext64 word (show 8 ≤ 32 by norm_num)] at hrule
  exact answers_cons_of_ok (op := .serbe) hrule rfl (by decide)

theorem toNat_byte (word : Word) (l : Nat) :
    ((word.extractLsb' l 8).setWidth 32).toNat = word.toNat / 2 ^ l % 2 ^ 8 := by
  rw [BitVec.toNat_setWidth_of_le (by norm_num), BitVec.extractLsb'_toNat, Nat.shiftRight_eq_div_pow]

/-- DESERBE takes CODE_RANGE when an operand is no byte (R165). -/
theorem faultsWith_deserbe {b0 b1 b2 b3 : Word}
    (h : 255 < b0.toNat ∨ 255 < b1.toNat ∨ 255 < b2.toNat ∨ 255 < b3.toNat) :
    FaultsWith (.deserbe b0 b1 b2 b3) 0x53 9 := by
  refine faultsWith_of_fault (i := .deserbe b0 b1 b2 b3) (c := .codeRange) ?_
  rw [answerOf, deserbeAnswer]
  split_ifs
  case neg => omega
  all_goals rfl

/-- DESERBE of four bytes is the four updates of R165. -/
theorem deserbeAnswer_of_bytes {b0 b1 b2 b3 : Word}
    (h0 : b0.toNat ≤ 255) (h1 : b1.toNat ≤ 255) (h2 : b2.toNat ≤ 255) (h3 : b3.toNat ≤ 255) :
    deserbeAnswer b0 b1 b2 b3 = (do
      let v ← newUnsigned 0 0 8 24 b0.toNat
      let v ← newUnsigned 0 v 8 16 b1.toNat
      let v ← newUnsigned 0 v 8 8 b2.toNat
      let v ← newUnsigned 0 v 8 0 b3.toNat
      .ok [loWord v]) := by
  rw [deserbeAnswer, if_neg (by omega), if_neg (by omega), if_neg (by omega), if_neg (by omega)]
  rfl

/-- A step of R165: a byte put where the word is still 0 is added in its place. -/
theorem newUnsigned_byte (f : Fin 6) {v : DWord} {b : Word} {l : Nat} (hl : l + 8 ≤ 64) (hb : b.toNat ≤ 255)
    (hv : v.toNat / 2 ^ l % 2 ^ 8 = 0) :
    ∃ v', newUnsigned f v 8 l b.toNat = .ok v' ∧ v'.toNat = v.toNat + b.toNat * 2 ^ l :=
  newUnsigned_of_getUnsigned_eq_zero f hl (Nat.lt_succ_of_le hb) hv

/-! The big-endian number of four bytes is `word`. -/
section
variable {word b0 b1 b2 b3 : Word}
  (h0 : b0.toNat ≤ 255) (h1 : b1.toNat ≤ 255) (h2 : b2.toNat ≤ 255) (h3 : b3.toNat ≤ 255)
  (hword : word.toNat = b0.toNat * 2 ^ 24 + b1.toNat * 2 ^ 16 + b2.toNat * 2 ^ 8 + b3.toNat)

include h1 h2 h3 hword in
/-- SERBE takes the number apart into its bytes (R166). -/
theorem answers_serbe_of_toNat_eq : Answers (.serbe word) [0x00005200, b0, b1, b2, b3] := by
  have hbyte : ∀ {l : Nat} {b : Word}, word.toNat / 2 ^ l % 2 ^ 8 = b.toNat →
      (word.extractLsb' l 8).setWidth 32 = b :=
    fun h => BitVec.eq_of_toNat_eq ((toNat_byte word _).trans h)
  have hserbe := answers_serbe_bytes word
  rwa [hbyte (b := b0) (by omega), hbyte (b := b1) (by omega), hbyte (b := b2) (by omega),
    hbyte (b := b3) (by omega)] at hserbe

include h0 h1 h2 h3 hword in
/-- DESERBE joins the bytes to their number (R166): each update of R165 meets a field that is still 0. -/
theorem answers_deserbe_of_toNat_eq : Answers (.deserbe b0 b1 b2 b3) [0x00005300, word] := by
  have hzero : (0 : DWord).toNat = 0 := rfl
  obtain ⟨v0, hv0, hn0⟩ := newUnsigned_byte 0 (v := 0) (l := 24) (by norm_num) h0 (by omega)
  obtain ⟨v1, hv1, hn1⟩ := newUnsigned_byte 0 (v := v0) (l := 16) (by norm_num) h1 (by omega)
  obtain ⟨v2, hv2, hn2⟩ := newUnsigned_byte 0 (v := v1) (l := 8) (by norm_num) h2 (by omega)
  obtain ⟨v3, hv3, hn3⟩ := newUnsigned_byte 0 (v := v2) (l := 0) (by norm_num) h3 (by omega)
  have hlo : loWord v3 = word := by
    refine BitVec.eq_of_toNat_eq ?_
    rw [loWord, BitVec.extractLsb'_toNat, Nat.shiftRight_zero]
    omega
  have hrule : answerOf (.deserbe b0 b1 b2 b3) = .ok [word] := by
    rw [answerOf, deserbeAnswer_of_bytes h0 h1 h2 h3]
    simp only [hv0, hv1, hv2, hv3, hlo, bind, Except.bind]
  exact answers_cons_of_ok (op := .deserbe) hrule rfl (by decide)

end

end Sys2Proof.Machine

section
open Sys2Proof Sys2Proof.Machine

/-- Settles O58: SERBE reads the four bytes off the word, DESERBE adds them up to it, and a word is the big-endian number of
its own bytes. -/
theorem bigEndianBytes : Obligations.BigEndianBytes := by
  refine ⟨answers_serbe_bytes, fun b0 b1 b2 b3 => ⟨fun h0 h1 h2 h3 => ?_, faultsWith_deserbe⟩, fun w => ?_⟩
  · obtain ⟨w, hw⟩ : ∃ w : Word,
        w.toNat = b0.toNat * 2 ^ 24 + b1.toNat * 2 ^ 16 + b2.toNat * 2 ^ 8 + b3.toNat :=
      ⟨BitVec.ofNat 32 _, (BitVec.toNat_ofNat ..).trans (Nat.mod_eq_of_lt (by omega))⟩
    exact ⟨w, hw, answers_deserbe_of_toNat_eq h0 h1 h2 h3 hw, answers_serbe_of_toNat_eq h1 h2 h3 hw⟩
  · refine ⟨_, _, _, _, answers_serbe_bytes w, ?_⟩
    apply answers_deserbe_of_toNat_eq <;> simp only [toNat_byte] <;> omega

end

/-! # The numbers of R75: a status word as a sum of its fields -/

namespace Sys2Proof.Machine

/-- Bits 31:19 of a status word are 0 (R75). -/
@[simp] theorem statusWord_high (r c : BitVec 4) (opc : OpcByte) (f : BitVec 3) :
    (statusWord r c opc f).extractLsb' 19 13 = 0 := by
  ext k hk
  simp [statusWord, BitVec.getLsbD_of_ge r (19 + k) (by omega), BitVec.getLsbD_of_ge c (19 + k - 4) (by omega),
    BitVec.getLsbD_of_ge opc (19 + k - 8) (by omega), BitVec.getLsbD_of_ge f (19 + k - 16) (by omega)]

/-- The status word as a number (R75): the fields do not overlap, so their sum is the word. -/
theorem statusWord_eq_ofNat (r c : BitVec 4) (opc : OpcByte) (f : BitVec 3) :
    statusWord r c opc f = BitVec.ofNat 32 (f.toNat * 65536 + opc.toNat * 256 + c.toNat * 16 + r.toNat) := by
  have hr := congrArg BitVec.toNat (statusWord_result r c opc f)
  have hc := congrArg BitVec.toNat (statusWord_cause r c opc f)
  have hopc := congrArg BitVec.toNat (statusWord_opc r c opc f)
  have hf := congrArg BitVec.toNat (statusWord_field r c opc f)
  have hhigh := congrArg BitVec.toNat (statusWord_high r c opc f)
  simp only [BitVec.extractLsb'_toNat, Nat.shiftRight_eq_div_pow, BitVec.ofNat_eq_ofNat, BitVec.toNat_ofNat]
    at hr hc hopc hf hhigh
  refine BitVec.eq_of_toNat_eq ?_
  rw [BitVec.toNat_ofNat]
  omega

/-- The OK response, its status word as a number (R76). -/
theorem okResponse_eq (op : Opcode) (res : List Word) :
    okResponse op res = BitVec.ofNat 32 (op.code.toNat * 256) :: res := by
  simp [okResponse, statusWord_eq_ofNat, resultOk]

/-- The OVERFLOW response, its status word as a number (R77). -/
theorem overflowResponse_eq (op : Opcode) (f : Fin 6) :
    overflowResponse op f =
      BitVec.ofNat 32 (f.val * 65536 + op.code.toNat * 256 + 0x11) :: List.replicate op.nOut 0 := by
  have hf : (BitVec.ofNat 3 f.val).toNat = f.val := by
    rw [BitVec.toNat_ofNat]
    omega
  simp [overflowResponse, statusWord_eq_ofNat, hf, causeOverflow, resultOverflow, Nat.add_assoc]

/-- Taking a fatal fault, its two words as numbers (R170). -/
theorem takeFault_eq (opc : OpcByte) (c : Cause) (s : State) :
    takeFault opc c s =
      { s with
        outq := s.outq ++ [BitVec.ofNat 32 (opc.toNat * 256 + c.code.toNat * 16 + 2)]
        status := BitVec.ofNat 32 (opc.toNat * 256 + c.code.toNat * 16 + 1)
        mode := .halted } := by
  simp only [takeFault, State.respond, faultResponse_eq, faultStatus_eq]

theorem Cause.code_range (c : Cause) : 2 ≤ c.code.toNat ∧ c.code.toNat ≤ 9 := by
  cases c <;> decide

end Sys2Proof.Machine

/-! # What a rule can end in (R76 to R78, R171, R176) -/

namespace Sys2Proof.Machine

/-- A computation of a rule gives a value with `P`, or stops in one of `stops`. -/
def Ends {α : Type} (P : α → Prop) (stops : List Stop) : Except Stop α → Prop
  | .ok r => P r
  | .error e => e ∈ stops

/-- A computation of a rule stops in one of `stops` if it stops. -/
abbrev StopsIn {α : Type} (stops : List Stop) (a : Except Stop α) : Prop := Ends (fun _ => True) stops a

section
variable {α β : Type} {P : α → Prop} {stops : List Stop}

theorem ends_ok {r : α} (h : P r) : Ends P stops (.ok r) := h

theorem ends_raise {c : Cause} (h : Stop.fault c ∈ stops) : Ends P stops (raise c) := h

theorem Ends.ite {p : Prop} [Decidable p] {a b : Except Stop α} (ha : p → Ends P stops a) (hb : ¬ p → Ends P stops b) :
    Ends P stops (if p then a else b) := by
  split
  · exact ha ‹_›
  · exact hb ‹_›

/-- A sequence stops where its first part stops or where the rest does. -/
theorem Ends.bind {a : Except Stop β} {k : β → Except Stop α} (ha : StopsIn stops a) (hk : ∀ x, Ends P stops (k x)) :
    Ends P stops (a >>= k) := by
  cases a with
  | ok x => exact hk x
  | error e => exact ha

/-- A checked operator stops in NON_FINITE alone (R12). -/
theorem stopsIn_chk {v : Word} (h : Stop.fault .nonFinite ∈ stops) : StopsIn stops (chk v) :=
  .ite (fun _ => trivial) fun _ => ends_raise h

/-- An unsigned update stops in the overflow of its field alone, and only when the value does not fit (R95). -/
theorem stopsIn_newUnsigned {f : Fin 6} {v : DWord} {w l n : Nat}
    (h : fitsUnsigned n w = false → Stop.overflow f ∈ stops) : StopsIn stops (newUnsigned f v w l n) :=
  .ite (fun _ => trivial) fun hfit => h (Bool.eq_false_iff.mpr hfit)

/-- A signed update stops in the overflow of its field alone (R96). -/
theorem stopsIn_newSigned {f : Fin 6} {v : DWord} {w l : Nat} {n : Int} (h : Stop.overflow f ∈ stops) :
    StopsIn stops (newSigned f v w l n) :=
  .ite (fun _ => trivial) fun _ => h

end

/-- The stops of each opcode: its fatal causes of R171 and its Overflow outcomes of R176, and NON_FINITE wherever the rule
has a checked operator (an upper bound: the values RGB2YPP and DEQUANT can reach are not looked at). -/
def stopsOf : Opcode → List Stop
  | .fitsu | .fitss | .getu | .gets => [.fault .fieldRange]
  | .newu | .news => [.fault .fieldRange, .overflow 0]
  | .rgb2ypp => [.fault .denominator, .fault .sampleRange, .fault .nonFinite]
  | .ypp2rgb => [.fault .nonFinite, .fault .denominator]
  | .dctf | .dcti | .chridx => [.fault .nonFinite]
  | .quant => [.fault .nonFinite, .fault .lumaRange]
  | .dequant => [.fault .codeRange, .fault .nonFinite]
  | .chrval | .deserbe => [.fault .codeRange]
  | .pack => [.overflow 0, .overflow 1, .overflow 2, .overflow 3, .overflow 4, .overflow 5]
  | .unpack | .serbe => []

theorem stopsIn_linear3 {stops : List Stop} (h : Stop.fault .nonFinite ∈ stops) (k1 x1 k2 x2 k3 x3 : Word) :
    StopsIn stops (linear3 k1 x1 k2 x2 k3 x3) := by
  unfold linear3
  iterate 4 refine .bind (stopsIn_chk h) fun _ => ?_
  exact stopsIn_chk h

theorem stopsIn_sampleOf {stops : List Stop} (h : Stop.fault .nonFinite ∈ stops) (x dn : Word) :
    StopsIn stops (sampleOf x dn) :=
  .bind (stopsIn_chk h) fun _ => trivial

/-- Four checked operators in a row: an average or a coefficient of R127. -/
theorem stopsIn_four_chk {stops : List Stop} (h : Stop.fault .nonFinite ∈ stops) (x : Word) (f g k : Word → Word) :
    StopsIn stops (do
      let t ← chk x
      let t ← chk (f t)
      let t ← chk (g t)
      chk (k t)) := by
  iterate 3 refine .bind (stopsIn_chk h) fun _ => ?_
  exact stopsIn_chk h

theorem stopsIn_quantizeDiff {stops : List Stop} (h : Stop.fault .nonFinite ∈ stops) (x : Word) :
    StopsIn stops (quantizeDiff x) :=
  .bind (stopsIn_chk h) fun _ => .bind (stopsIn_chk h) fun _ => trivial

theorem stopsIn_dequantizeDiff {stops : List Stop} (h : Stop.fault .nonFinite ∈ stops) (q : Int) :
    StopsIn stops (dequantizeDiff q) :=
  .bind (stopsIn_chk h) fun _ => stopsIn_chk h

theorem ends_newuAnswer (width lsb : Nat) (word value : DWord) :
    Ends (·.length = 2) (stopsOf .newu) (newuAnswer width lsb word value) :=
  .ite (fun _ => ends_raise (by decide)) fun _ => .bind (stopsIn_newUnsigned fun _ => by decide) fun _ => ends_ok rfl

theorem ends_newsAnswer (width lsb : Nat) (word value : DWord) :
    Ends (·.length = 2) (stopsOf .news) (newsAnswer width lsb word value) :=
  .ite (fun _ => ends_raise (by decide)) fun _ => .bind (stopsIn_newSigned (by decide)) fun _ => ends_ok rfl

theorem ends_rgb2yppAnswer (p : RgbPixel) (den : Word) :
    Ends (·.length = 3) (stopsOf .rgb2ypp) (rgb2yppAnswer p den) := by
  have hnf : Stop.fault .nonFinite ∈ stopsOf .rgb2ypp := by decide
  refine .ite (fun _ => ends_raise (by decide)) fun _ => ?_
  iterate 3 refine .ite (fun _ => ends_raise (by decide)) fun _ => ?_
  iterate 3 refine .bind (stopsIn_chk hnf) fun _ => ?_
  iterate 3 refine .bind (stopsIn_linear3 hnf ..) fun _ => ?_
  exact ends_ok rfl

theorem ends_ypp2rgbAnswer (p : YppPixel) (den : Word) :
    Ends (·.length = 3) (stopsOf .ypp2rgb) (ypp2rgbAnswer p den) := by
  have hnf : Stop.fault .nonFinite ∈ stopsOf .ypp2rgb := by decide
  refine .ite (fun _ => ends_raise hnf) fun _ => .ite (fun _ => ends_raise (by decide)) fun _ => ?_
  iterate 8 refine .bind (stopsIn_chk hnf) fun _ => ?_
  iterate 3 refine .bind (stopsIn_sampleOf hnf ..) fun _ => ?_
  exact ends_ok rfl

theorem ends_dctfAnswer (p1 p2 p3 p4 : YppPixel) :
    Ends (·.length = 6) (stopsOf .dctf) (dctfAnswer p1 p2 p3 p4) := by
  have hnf : Stop.fault .nonFinite ∈ stopsOf .dctf := by decide
  refine .ite (fun _ => ends_raise hnf) fun _ => ?_
  iterate 6 refine .bind (stopsIn_four_chk hnf ..) fun _ => ?_
  exact ends_ok rfl

theorem ends_dctiAnswer (t : TransformBlock) : Ends (·.length = 12) (stopsOf .dcti) (dctiAnswer t) := by
  have hnf : Stop.fault .nonFinite ∈ stopsOf .dcti := by decide
  refine .ite (fun _ => ends_raise hnf) fun _ => ?_
  iterate 12 refine .bind (stopsIn_chk hnf) fun _ => ?_
  exact ends_ok rfl

theorem ends_quantAnswer (L : ChromaTable) (t : TransformBlock) :
    Ends (·.length = 6) (stopsOf .quant) (quantAnswer L t) := by
  have hnf : Stop.fault .nonFinite ∈ stopsOf .quant := by decide
  refine .ite (fun _ => ends_raise hnf) fun _ => .ite (fun _ => ends_raise (by decide)) fun _ => ?_
  refine .bind (.bind (stopsIn_chk hnf) fun _ => trivial) fun _ => ?_
  iterate 3 refine .bind (stopsIn_quantizeDiff hnf _) fun _ => ?_
  exact ends_ok rfl

theorem ends_dequantAnswer (L : ChromaTable) (q : QuantBlock) :
    Ends (·.length = 6) (stopsOf .dequant) (dequantAnswer L q) := by
  have hnf : Stop.fault .nonFinite ∈ stopsOf .dequant := by decide
  iterate 6 refine .ite (fun _ => ends_raise (by decide)) fun _ => ?_
  refine .bind (stopsIn_chk hnf) fun _ => ?_
  iterate 3 refine .bind (stopsIn_dequantizeDiff hnf _) fun _ => ?_
  exact ends_ok rfl

theorem ends_packAnswer (q : QuantBlock) : Ends (·.length = 1) (stopsOf .pack) (packAnswer q) :=
  .bind (stopsIn_newUnsigned fun _ => by decide) fun _ =>
  .bind (stopsIn_newSigned (by decide)) fun _ =>
  .bind (stopsIn_newSigned (by decide)) fun _ =>
  .bind (stopsIn_newSigned (by decide)) fun _ =>
  .bind (stopsIn_newUnsigned fun _ => by decide) fun _ =>
  .bind (stopsIn_newUnsigned fun _ => by decide) fun _ =>
  ends_ok rfl

/-- After the byte check every update of DESERBE fits (R165). -/
theorem ends_deserbeAnswer (b0 b1 b2 b3 : Word) :
    Ends (·.length = 1) (stopsOf .deserbe) (deserbeAnswer b0 b1 b2 b3) := by
  have hupdate : ∀ {v : DWord} {l : Nat} {b : Word}, ¬ b.toNat > 255 →
      StopsIn (stopsOf .deserbe) (newUnsigned 0 v Config.byteWidth l b.toNat) :=
    fun hb => stopsIn_newUnsigned fun hfit =>
      absurd (show _ ≤ 2 ^ Config.byteWidth - 1 from Nat.le_of_not_gt hb) (of_decide_eq_false hfit)
  refine .ite (fun _ => ends_raise (by decide)) fun h0 => .ite (fun _ => ends_raise (by decide)) fun h1 => ?_
  refine .ite (fun _ => ends_raise (by decide)) fun h2 => .ite (fun _ => ends_raise (by decide)) fun h3 => ?_
  exact .bind (hupdate h0) fun _ => .bind (hupdate h1) fun _ => .bind (hupdate h2) fun _ =>
    .bind (hupdate h3) fun _ => ends_ok rfl

/-- The rule of a command gives N_out words (R70) or one of its opcode's stops. -/
theorem ends_answerOf (i : Instr) : Ends (·.length = i.opcode.nOut) (stopsOf i.opcode) (answerOf i) := by
  cases i with
  | fitsu | fitss | getu | gets => exact .ite (fun _ => ends_raise List.mem_cons_self) fun _ => ends_ok rfl
  | newu width lsb word value => exact ends_newuAnswer width lsb word value
  | news width lsb word value => exact ends_newsAnswer width lsb word value
  | rgb2ypp p den => exact ends_rgb2yppAnswer p den
  | ypp2rgb p den => exact ends_ypp2rgbAnswer p den
  | dctf p1 p2 p3 p4 => exact ends_dctfAnswer p1 p2 p3 p4
  | dcti t => exact ends_dctiAnswer t
  | quant t => exact ends_quantAnswer chromaLut t
  | dequant q => exact ends_dequantAnswer chromaLut q
  | chridx | chrval => exact .ite (fun _ => ends_raise List.mem_cons_self) fun _ => ends_ok rfl
  | pack q => exact ends_packAnswer q
  | unpack | serbe => exact ends_ok rfl
  | deserbe b0 b1 b2 b3 => exact ends_deserbeAnswer b0 b1 b2 b3

/-- The OK results of a command are N_out words (R76). -/
theorem length_of_answerOf_ok {i : Instr} {res : List Word} (h : answerOf i = .ok res) :
    res.length = i.opcode.nOut := by
  have := ends_answerOf i
  rwa [h] at this

theorem mem_stopsOf_of_answerOf {i : Instr} {e : Stop} (h : answerOf i = .error e) : e ∈ stopsOf i.opcode := by
  have := ends_answerOf i
  rwa [h] at this

/-- Only PACK overflows in any field, and NEWU and NEWS in field 0 (R176). -/
theorem opcode_of_overflow_mem {op : Opcode} {f : Fin 6} (h : Stop.overflow f ∈ stopsOf op) :
    op = .pack ∨ ((op = .newu ∨ op = .news) ∧ f = 0) := by
  cases op <;> simp_all [stopsOf]

end Sys2Proof.Machine

section
open Sys2Proof Sys2Proof.Machine

/-- Settles O9: a rule ends in N_out words or in one of its opcode's stops, and `finish` turns each into its response. -/
theorem threeOutcomes : Obligations.ThreeOutcomes := by
  intro i s
  rw [exec_eq_finish]
  obtain ⟨res, ha, hfin⟩ | ⟨f, ha, hfin⟩ | ⟨c, ha, hfin⟩ := finish_cases i.opcode (answerOf i) s
  · exact .inl ⟨res, length_of_answerOf_ok ha, by rw [hfin, okResponse_eq]; rfl⟩
  · exact .inr (.inl ⟨f, opcode_of_overflow_mem (mem_stopsOf_of_answerOf ha), by rw [hfin, overflowResponse_eq]; rfl⟩)
  · obtain ⟨hlow, hhigh⟩ := c.code_range
    exact .inr (.inr ⟨c.code.toNat, hlow, hhigh, by rw [hfin, takeFault_eq]⟩)

end

/-! # Command words that fault as they are decoded (R66, R72, R73) -/

namespace Sys2Proof

/-- An OPC value is illegal when it is no opcode's code (R73). -/
theorem ofCode_eq_none_iff {b : OpcByte} : Opcode.ofCode b = none ↔ ∀ op : Opcode, op.code ≠ b := by
  simp only [Option.eq_none_iff_forall_ne_some, ne_eq, ofCode_eq_some_iff]

theorem forall_opcode_iff {p : Opcode → Prop} : (∀ op, p op) ↔ ∀ op ∈ Opcode.all, p op :=
  ⟨fun h op _ => h op, fun h op => h op (by cases op <;> decide)⟩

theorem toNat_opcField (cmd : Word) : (opcField cmd).toNat = cmd.toNat % 256 := by
  simp [opcField, BitVec.extractLsb'_toNat]

/-- The lowest reserved bit of a format (R66). -/
def Format.firstReserved : Format → Nat
  | .n => 8
  | .w => 15
  | .f => 22

/-- The reserved bits are those from the lowest up to bit 31 (R66). -/
theorem getLsbD_reservedMask (fmt : Format) {k : Nat} (hk : k < 32) :
    fmt.reservedMask.getLsbD k = decide (fmt.firstReserved ≤ k) := by
  cases fmt <;> revert k <;> decide

theorem and_reservedMask_ne_zero {cmd : Word} {fmt : Format} {k : Nat} (hk : fmt.firstReserved ≤ k)
    (hbit : cmd.getLsbD k = true) : cmd &&& fmt.reservedMask ≠ 0#32 := by
  intro hzero
  have hbits := congrArg (·.getLsbD k) hzero
  simp [hbit, getLsbD_reservedMask fmt (BitVec.lt_of_getLsbD hbit), hk] at hbits

/-! ## The decoder, a case at a time -/

/-- A legal command word with its operands decodes to the command of its fields (R70). -/
theorem decode_of_operands {cmd : Word} {op : Opcode} {tail : List Word} (hop : Opcode.ofCode (opcField cmd) = some op)
    (hres : cmd &&& op.format.reservedMask = 0#32) (hlen : op.nIn ≤ tail.length) :
    decode (cmd :: tail) =
      .ok (buildInstr op (widthField cmd) (lsbField cmd) (tail.getD · 0), tail.drop op.nIn) := by
  simp only [decode, hop, if_pos hres, decodeOperands, if_neg (Nat.not_lt.mpr hlen)]

theorem decode_illegalOpcode {cmd : Word} (hop : Opcode.ofCode (opcField cmd) = none) (rest : List Word) :
    decode (cmd :: rest) = .error (.illegalOpcode (opcField cmd)) := by
  simp only [decode, hop]

theorem decode_reservedBits {cmd : Word} {op : Opcode} (hop : Opcode.ofCode (opcField cmd) = some op)
    (hres : cmd &&& op.format.reservedMask ≠ 0#32) (rest : List Word) :
    decode (cmd :: rest) = .error (.reservedBits (opcField cmd)) := by
  simp only [decode, hop, if_neg hres]

/-- What the words at the head are when they are not a whole command, in the order of the checks (R72, R73, R80). -/
theorem decode_error_cases {ws : List Word} {e : DecodeError} (h : decode ws = .error e) :
    (ws = [] ∧ e = .noWord) ∨
    ∃ cmd rest, ws = cmd :: rest ∧
      ((Opcode.ofCode (opcField cmd) = none ∧ e = .illegalOpcode (opcField cmd)) ∨
       ∃ op, Opcode.ofCode (opcField cmd) = some op ∧
        ((cmd &&& op.format.reservedMask ≠ 0#32 ∧ e = .reservedBits (opcField cmd)) ∨
         (cmd &&& op.format.reservedMask = 0#32 ∧ rest.length < op.nIn ∧ e = .missingOperands op))) := by
  cases ws with
  | nil => exact .inl ⟨rfl, by simpa [decode, eq_comm] using h⟩
  | cons cmd rest =>
    refine .inr ⟨cmd, rest, rfl, ?_⟩
    cases hop : Opcode.ofCode (opcField cmd) with
    | none =>
      rw [decode_illegalOpcode hop, Except.error.injEq] at h
      exact .inl ⟨rfl, h.symm⟩
    | some op =>
      refine .inr ⟨op, rfl, ?_⟩
      by_cases hres : cmd &&& op.format.reservedMask = 0#32
      · rcases Nat.lt_or_ge rest.length op.nIn with hlen | hlen
        · simp only [decode, hop, if_pos hres, decodeOperands_none_iff.mpr hlen, Except.error.injEq] at h
          exact .inr ⟨hres, hlen, h.symm⟩
        · rw [decode_of_operands hop hres hlen] at h
          cases h
      · rw [decode_reservedBits hop hres, Except.error.injEq] at h
        exact .inl ⟨hres, h.symm⟩

end Sys2Proof

namespace Sys2Proof.Machine

/-- A fetch that finds a faulting command word has decoded it to that fault. -/
theorem decode_of_fetch_badCommand {s s' : State} {opc : OpcByte} {c : Cause} (h : fetch s = .badCommand opc c s') :
    (c = .illegalOpcode ∧ decode s.inq = .error (.illegalOpcode opc)) ∨
    (c = .reservedBits ∧ decode s.inq = .error (.reservedBits opc)) := by
  have hbad : ∀ {opc' : OpcByte} {c' : Cause}, fetchBad opc' c' s = .badCommand opc c s' → opc' = opc ∧ c' = c := by
    intro opc' c' hf
    unfold fetchBad at hf
    split at hf <;> cases hf
    exact ⟨rfl, rfl⟩
  unfold fetch at h
  split at h
  · cases h
  · split at h
    · cases h
    · next hd =>
      obtain ⟨rfl, rfl⟩ := hbad h
      exact .inl ⟨rfl, hd⟩
    · next hd =>
      obtain ⟨rfl, rfl⟩ := hbad h
      exact .inr ⟨rfl, hd⟩
    · cases h
    · split at h <;> cases h

/-- A command word that faults in the fetch is the word at the head of INQ; its OPC is illegal, or one of its reserved bits is
set (R72, R73). -/
theorem fetch_badCommand_cases {s s' : State} {opc : OpcByte} {c : Cause} (h : fetch s = .badCommand opc c s') :
    ∃ cmd rest, s.inq = cmd :: rest ∧ opcField cmd = opc ∧
      ((c = .illegalOpcode ∧ Opcode.ofCode opc = none) ∨
        (c = .reservedBits ∧ ∃ op, Opcode.ofCode opc = some op ∧ cmd &&& op.format.reservedMask ≠ 0#32)) := by
  obtain ⟨rfl, hd⟩ | ⟨rfl, hd⟩ := decode_of_fetch_badCommand h
  all_goals
    obtain ⟨-, he⟩ | ⟨cmd, rest, hinq, ⟨hop, he⟩ | ⟨op, hop, ⟨hres, he⟩ | ⟨-, -, he⟩⟩⟩ := decode_error_cases hd
    all_goals cases he
  · exact ⟨cmd, rest, hinq, rfl, .inl ⟨rfl, hop⟩⟩
  · exact ⟨cmd, rest, hinq, rfl, .inr ⟨rfl, op, hop, hres⟩⟩

/-- The step of a command word that faults as it is decoded: the fatal fault, with that word alone consumed (R71, R80). -/
theorem step_of_fetchBad {s : State} {cmd : Word} {rest : List Word} {c : Cause} (hinq : s.inq = cmd :: rest)
    (hfetch : fetch s = fetchBad (opcField cmd) c s) (hroom : s.outRoom 1 = true) :
    step s = .next
      { mode := .halted
        status := BitVec.ofNat 32 (cmd.toNat % 256 * 256 + (c.code.toNat * 16 + 1))
        inq := rest
        outq := s.outq ++ [BitVec.ofNat 32 (cmd.toNat % 256 * 256 + (c.code.toNat * 16 + 2))] } := by
  simp only [step, hfetch, fetchBad, hroom, if_true, takeFault_eq, toNat_opcField, withInq_outq, Nat.add_assoc]
  rw [hinq]
  rfl

theorem step_illegalOpcode {s : State} {cmd : Word} {rest : List Word} (hmode : s.mode = .ready)
    (hinq : s.inq = cmd :: rest) (hop : Opcode.ofCode (opcField cmd) = none) (hroom : s.outRoom 1 = true) :
    step s = .next
      { mode := .halted
        status := BitVec.ofNat 32 (cmd.toNat % 256 * 256 + 0x21)
        inq := rest
        outq := s.outq ++ [BitVec.ofNat 32 (cmd.toNat % 256 * 256 + 0x22)] } :=
  step_of_fetchBad (c := .illegalOpcode) hinq (by simp only [fetch, hmode, hinq, decode_illegalOpcode hop]) hroom

theorem step_reservedBits {s : State} {cmd : Word} {rest : List Word} {op : Opcode} (hmode : s.mode = .ready)
    (hinq : s.inq = cmd :: rest) (hop : Opcode.ofCode (opcField cmd) = some op)
    (hres : cmd &&& op.format.reservedMask ≠ 0#32) (hroom : s.outRoom 1 = true) :
    step s = .next
      { mode := .halted
        status := BitVec.ofNat 32 (cmd.toNat % 256 * 256 + 0x31)
        inq := rest
        outq := s.outq ++ [BitVec.ofNat 32 (cmd.toNat % 256 * 256 + 0x32)] } :=
  step_of_fetchBad (c := .reservedBits) hinq (by simp only [fetch, hmode, hinq, decode_reservedBits hop hres]) hroom

end Sys2Proof.Machine

section
open Sys2Proof Sys2Proof.Machine

/-- Settles O4: an OPC value is illegal when it is none of the 18 codes, and the step then takes the fault at the decoder. -/
theorem illegalOpcodes : Obligations.IllegalOpcodes := by
  refine ⟨fun b => ?_, by decide +kernel, by decide, fun s cmd rest hmode hinq hop hroom =>
    step_illegalOpcode hmode hinq hop hroom⟩
  rw [ofCode_eq_none_iff, forall_opcode_iff]
  simp only [Opcode.all, List.forall_mem_cons, List.not_mem_nil, false_imp_iff, implies_true, and_true, Opcode.code, ne_eq,
    ← BitVec.toNat_inj, BitVec.ofNat_eq_ofNat, BitVec.toNat_ofNat, Nat.reducePow, Nat.reduceMod]
  omega

/-- Settles O5: a set bit of the format's mask stops the decoder. -/
theorem reservedBits : Obligations.ReservedBits :=
  ⟨fun _ _ _ _ _ hmode hinq hop hk hbit hroom =>
    step_reservedBits hmode hinq (ofCode_eq_some_iff.mpr hop) (and_reservedMask_ne_zero hk hbit) hroom, rfl, rfl⟩

/-- Settles O3: four command words whose fields are read off, and two with a bit of the format's mask set. -/
theorem encodingExamples : Obligations.EncodingExamples := by
  refine ⟨?_, ?_, ?_, ?_, ?_⟩
  · exact fun h l rest => decode_of_operands (op := .getu) (by decide) (by decide) (Nat.le_add_left ..)
  · exact fun h l vh vl rest => decode_of_operands (op := .news) (by decide) (by decide) (Nat.le_add_left ..)
  · exact fun h l rest => decode_of_operands (op := .fitss) (by decide) (by decide) (Nat.le_add_left ..)
  · exact fun a b c d pb pr rest => decode_of_operands (op := .pack) (by decide) (by decide) (Nat.le_add_left ..)
  · exact fun s rest hmode hroom =>
      ⟨fun hinq => step_reservedBits (op := .rgb2ypp) hmode hinq (by decide) (by decide) hroom,
        fun hinq => step_reservedBits (op := .fitsu) hmode hinq (by decide) (by decide) hroom⟩

end

/-! # The response of a block step (R74) -/

namespace Sys2Proof.Machine

/-- A command's one response: a status word with its OPC, and then nothing after a FAULT, or N_out words (R76 to R78). -/
theorem exec_response {i : Instr} {s t : State} (h : exec i s = .next t) :
    ∃ sw ws, t.outq = s.outq ++ sw :: ws ∧ sw.extractLsb' 8 8 = i.opcode.code ∧
      ((sw.extractLsb' 0 4 = 2 ∧ ws = [] ∧ t.mode = .halted) ∨
        ((sw.extractLsb' 0 4 = 0 ∨ sw.extractLsb' 0 4 = 1) ∧ t.mode = s.mode ∧ ws.length = i.opcode.nOut)) := by
  rw [exec_eq_finish, Host.Outcome.next.injEq] at h
  subst h
  obtain ⟨res, ha, hfin⟩ | ⟨f, -, hfin⟩ | ⟨c, -, hfin⟩ := finish_cases i.opcode (answerOf i) s
  all_goals rw [hfin]
  · exact ⟨_, res, rfl, statusWord_opc .., .inr ⟨.inl (statusWord_result ..), rfl, length_of_answerOf_ok ha⟩⟩
  · exact ⟨_, _, rfl, statusWord_opc .., .inr ⟨.inr (statusWord_result ..), rfl, List.length_replicate⟩⟩
  · exact ⟨_, [], rfl, statusWord_opc .., .inl ⟨statusWord_result .., rfl, rfl⟩⟩

/-- The opcode of the command that INQ decodes to is the one its head word names (R70). -/
theorem code_of_decode {ws rest : List Word} {i : Instr} (h : decode ws = .ok (i, rest)) :
    i.opcode.code = opcField (ws.headD 0) := by
  obtain ⟨cmd, tail, op, rfl, hop, -, -, rfl⟩ := decode_ok_cases h
  exact code_of_ofCode hop

end Sys2Proof.Machine

section
open Sys2Proof Sys2Proof.Machine

/-- Settles O10: the OPC in the response is the head word's, both where the fetch faults and where a command is decoded, and
either way one response is appended. -/
theorem oneResponsePerStep : Obligations.OneResponsePerStep := by
  intro s t hstep
  obtain ⟨hmode, ⟨opc, c, hfetch, -, rfl⟩ | ⟨i, rest, hdecode, -, hexec⟩⟩ := step_cases hstep
  · obtain ⟨cmd, tail, hinq, rfl, -⟩ := fetch_badCommand_cases hfetch
    refine ⟨statusWord resultFault c.code (opcField cmd) 0, [], rfl, ?_, .inl ⟨statusWord_result .., rfl, rfl⟩⟩
    rw [statusWord_opc, hinq, List.headD_cons]
  · obtain ⟨sw, ws, houtq, hopc, hfault | ⟨hresult, hready, hlen⟩⟩ := exec_response hexec
    · exact ⟨sw, ws, houtq, hopc.trans (code_of_decode hdecode), .inl hfault⟩
    · refine ⟨sw, ws, houtq, hopc.trans (code_of_decode hdecode), .inr ⟨hresult, hready.trans hmode, i.opcode, ?_, hlen⟩⟩
      rw [hopc, ofCode_code]

end

/-! # The host's events (R81) -/

namespace Sys2Proof.Machine

theorem push_eq_some_iff {s t : State} {w : Word} :
    s.push w = some t ↔ s.inRoom 1 = true ∧ t = { s with inq := s.inq ++ [w] } := by
  simp only [State.push, Option.ite_none_right_eq_some, Option.some.injEq, eq_comm (a := t)]

theorem pop_eq_some_iff {s t : State} {w : Word} :
    s.pop = some (w, t) ↔ ∃ rest, s.outq = w :: rest ∧ t = { s with outq := rest } := by
  unfold State.pop
  split
  · next hq => simp [hq]
  · next v vs hq => simp [hq, eq_comm (a := t), and_assoc]

/-- `|INQ| < IN_CAP`, where IN_CAP is 13 words or more, or unbounded (R6, R37). -/
theorem inRoom_one_iff (s : State) :
    s.inRoom 1 = true ↔ ∀ e, Config.inCapExtra = some e → s.inq.length < 13 + e :=
  withinCapacity_iff ..

end Sys2Proof.Machine

section
open Sys2Proof Sys2Proof.Machine

/-- Settles O20, from what a push and a pop need and give. -/
theorem hostEvents : Obligations.HostEvents := by
  refine ⟨fun s t w => push_eq_some_iff, fun s t => ?_, fun s w rest hq => ?_, fun s => ⟨rfl, rfl, rfl⟩,
    fun s e he => ?_, fun s hnone => ?_⟩
  · simp [fire, Prod.exists, pop_eq_some_iff]
  · simp [poppedBy, hq]
  · simp [inRoom_one_iff, he]
  · simp [inRoom_one_iff, hnone]

end

/-! # The bit-field codec: field ranges, disjointness, round trips and the two views (R90 to R104) -/

namespace Sys2Proof.Machine

/-! ## A field and its mask -/

theorem fitsUnsigned_iff {n w : Nat} : fitsUnsigned n w = true ↔ n < 2 ^ w := by
  rw [fitsUnsigned, decide_eq_true_iff]
  exact Nat.le_sub_one_iff_lt (by positivity)

theorem fitsSigned_iff {n : Int} {w : Nat} :
    fitsSigned n w = true ↔ -(2 ^ w : Int) ≤ 2 * n ∧ 2 * n ≤ (2 ^ w : Int) - 2 :=
  decide_eq_true_iff

/-- The unsigned view of a field is the number of its bits (R93). -/
theorem getUnsigned_eq_toNat_extractLsb' (v : DWord) (w l : Nat) : getUnsigned v w l = (v.extractLsb' l w).toNat := by
  rw [BitVec.extractLsb'_toNat, Nat.shiftRight_eq_div_pow, getUnsigned]

/-- The signed view of a field is the two's-complement number of its bits, the empty field included (R94). -/
theorem getSigned_eq_toInt_extractLsb' (v : DWord) (w l : Nat) : getSigned v w l = (v.extractLsb' l w).toInt := by
  rw [getSigned]
  split_ifs with hw
  · subst hw
    simp
  · simp only [getUnsigned_eq_toNat_extractLsb', BitVec.toInt_eq_msb_cond, BitVec.msb_eq_decide, decide_eq_true_eq,
      Nat.cast_pow, Nat.cast_ofNat]

/-- The two views differ by `2^w` where the field's top bit is 1 (R104). -/
theorem getSigned_eq_ite (v : DWord) {w l : Nat} (hw : 0 < w) :
    getSigned v w l =
      if v.getLsbD (l + w - 1) then (getUnsigned v w l : Int) - 2 ^ w else (getUnsigned v w l : Int) := by
  have hmsb : (v.extractLsb' l w).msb = v.getLsbD (l + w - 1) := by
    rw [BitVec.msb_eq_getLsbD_last, BitVec.getLsbD_extractLsb', decide_eq_true (by omega), Bool.true_and,
      Nat.add_sub_assoc hw]
  rw [getSigned_eq_toInt_extractLsb', getUnsigned_eq_toNat_extractLsb', BitVec.toInt_eq_msb_cond, hmsb, Nat.cast_pow,
    Nat.cast_ofNat]

/-- The result word of GETU holds the field's number. -/
theorem toNat_u64_getUnsigned (v : DWord) {w : Nat} (l : Nat) (hw : w ≤ 64) :
    (u64 (getUnsigned v w l)).toNat = getUnsigned v w l := by
  rw [u64, BitVec.ofInt_natCast, getUnsigned_eq_toNat_extractLsb', BitVec.ofNat_toNat, BitVec.toNat_setWidth_of_le hw]

/-- The result word of GETS holds the field's signed number. -/
theorem toInt_u64_getSigned (v : DWord) {w : Nat} (l : Nat) (hw : w ≤ 64) :
    (u64 (getSigned v w l)).toInt = getSigned v w l := by
  rw [u64, getSigned_eq_toInt_extractLsb']
  exact BitVec.toInt_signExtend_of_le hw

/-- Two words that agree under a field's mask hold the same value in the field. -/
theorem getUnsigned_eq_of_and_fieldMask_eq {u v : DWord} {w l : Nat} (h : l + w ≤ 64)
    (huv : u &&& BitVec.ofNat 64 (fieldMask w l) = v &&& BitVec.ofNat 64 (fieldMask w l)) :
    getUnsigned u w l = getUnsigned v w l := by
  refine Nat.eq_of_mul_eq_mul_right (Nat.two_pow_pos l) ?_
  rw [← toNat_and_fieldMask u h, ← toNat_and_fieldMask v h, huv]

/-- A word without a bit outside a mask is unchanged under it. -/
theorem and_eq_self_of_not_and_eq_zero {n : Nat} {m x : BitVec n} (h : ~~~m &&& x = 0#n) : m &&& x = x := by
  calc m &&& x = m &&& x ||| ~~~m &&& x := by rw [h, BitVec.or_zero]
    _ = x := by rw [← BitVec.and_or_distrib_right, BitVec.or_not_self, BitVec.allOnes_and]

/-- A field update leaves the bits outside the mask (R99). -/
theorem setField_and_not_fieldMask (v : DWord) {w l bits : Nat} (hb : bits < 2 ^ w) :
    setField v w l bits &&& ~~~(BitVec.ofNat 64 (fieldMask w l)) = v &&& ~~~(BitVec.ofNat 64 (fieldMask w l)) := by
  rw [setField, BitVec.and_or_distrib_right, BitVec.and_assoc, BitVec.and_self,
    BitVec.and_comm (BitVec.ofNat 64 (bits * 2 ^ l)), not_fieldMask_and_ofNat hb, BitVec.or_zero]

/-- A field update is not seen under a mask that does not meet the field's (R102). -/
theorem setField_and_of_and_fieldMask_eq_zero (v : DWord) {w l bits : Nat} {m : DWord} (hb : bits < 2 ^ w)
    (hm : m &&& BitVec.ofNat 64 (fieldMask w l) = 0#64) : setField v w l bits &&& m = v &&& m := by
  have hout : ~~~(BitVec.ofNat 64 (fieldMask w l)) &&& m = m :=
    and_eq_self_of_not_and_eq_zero (by rw [BitVec.not_not, BitVec.and_comm, hm])
  rw [← hout, ← BitVec.and_assoc, setField_and_not_fieldMask v hb, BitVec.and_assoc]

/-- A field update is what the field holds afterwards. -/
theorem getUnsigned_setField (v : DWord) {w l bits : Nat} (h : l + w ≤ 64) (hb : bits < 2 ^ w) :
    getUnsigned (setField v w l bits) w l = bits := by
  have hmask : setField v w l bits &&& BitVec.ofNat 64 (fieldMask w l) = BitVec.ofNat 64 (bits * 2 ^ l) := by
    generalize hm : BitVec.ofNat 64 (fieldMask w l) = m
    have hin : m &&& BitVec.ofNat 64 (bits * 2 ^ l) = BitVec.ofNat 64 (bits * 2 ^ l) :=
      and_eq_self_of_not_and_eq_zero (hm ▸ not_fieldMask_and_ofNat hb)
    calc setField v w l bits &&& m
        = v &&& (~~~m &&& m) ||| m &&& BitVec.ofNat 64 (bits * 2 ^ l) := by
          rw [setField, hm, BitVec.and_or_distrib_right, BitVec.and_assoc, BitVec.and_comm m (BitVec.ofNat ..)]
      _ = BitVec.ofNat 64 (bits * 2 ^ l) := by rw [hin, BitVec.not_and_self]; simp
  refine Nat.eq_of_mul_eq_mul_right (Nat.two_pow_pos l) ?_
  rw [← toNat_and_fieldMask _ h, hmask, toNat_ofNat_mul_two_pow h hb]

/-- The low `w` bits of an integer, as a number. -/
theorem toNat_emod_two_pow (n : Int) (w : Nat) : (n % 2 ^ w).toNat = (BitVec.ofInt w n).toNat := by
  rw [BitVec.toNat_ofInt, Nat.cast_pow, Nat.cast_ofNat]

theorem toNat_emod_two_pow_lt (n : Int) (w : Nat) : (n % 2 ^ w).toNat < 2 ^ w :=
  toNat_emod_two_pow n w ▸ BitVec.isLt _

/-- The 64-bit word of an integer modulo `2^w` is that number. -/
theorem toNat_ofInt_emod_two_pow (n : Int) {w : Nat} (hw : w ≤ 64) :
    (BitVec.ofInt 64 (n % 2 ^ w)).toNat = (n % 2 ^ w).toNat := by
  have hlt : n % 2 ^ w < 2 ^ 64 :=
    (Int.emod_lt_of_pos n (by positivity)).trans_le (pow_le_pow_right₀ (by norm_num) hw)
  rw [BitVec.toNat_ofInt, Int.emod_eq_of_lt (Int.emod_nonneg _ (by positivity)) (by exact_mod_cast hlt)]

/-- A value that fits `w` signed bits is what its low `w` bits read as. -/
theorem toInt_ofInt_of_fitsSigned {n : Int} {w : Nat} (hn : fitsSigned n w = true) : (BitVec.ofInt w n).toInt = n := by
  obtain ⟨hlow, hhigh⟩ := fitsSigned_iff.mp hn
  have hcast : ((2 ^ w : Nat) : Int) = 2 ^ w := by simp
  rw [BitVec.toInt_ofInt]
  exact Int.bmod_eq_of_le (by omega) (by omega)

/-- A fitting signed value, stored, is what the field reads as. -/
theorem getSigned_setField (v : DWord) {w l : Nat} {n : Int} (h : l + w ≤ 64) (hn : fitsSigned n w = true) :
    getSigned (setField v w l (n % 2 ^ w).toNat) w l = n := by
  have hfield : (setField v w l (n % 2 ^ w).toNat).extractLsb' l w = BitVec.ofInt w n := by
    refine BitVec.eq_of_toNat_eq ?_
    rw [← getUnsigned_eq_toNat_extractLsb', getUnsigned_setField v h (toNat_emod_two_pow_lt n w), toNat_emod_two_pow]
  rw [getSigned_eq_toInt_extractLsb', hfield, toInt_ofInt_of_fitsSigned hn]

/-! ## What the six commands answer -/

/-- A command appends an OK response exactly when its rule answers OK with those results. -/
theorem answers_cons_iff_ok {i : Instr} {op : Opcode} {res : List Word} {status : Word} (hop : i.opcode = op)
    (hstatus : statusWord resultOk 0 op.code 0 = status) : Answers i (status :: res) ↔ answerOf i = .ok res := by
  refine ⟨fun h => ?_, fun h => answers_cons_of_ok h hop hstatus⟩
  subst hop hstatus
  obtain ⟨res', ha, heq⟩ | ⟨f, -, heq⟩ := answers_iff.mp h
  · exact ha.trans (congrArg _ (List.cons.inj heq).2.symm)
  · have hresult := congrArg (BitVec.extractLsb' 0 4) (List.cons.inj heq).1
    simp [resultOk, resultOverflow] at hresult

theorem words64_eq_iff {v : DWord} {hi lo : Word} : words64 v = [hi, lo] ↔ v = join64 hi lo := by
  refine ⟨fun h => ?_, fun h => by simp [h, words64]⟩
  obtain ⟨rfl, rfl⟩ : hiWord v = hi ∧ loWord v = lo := by simpa [words64] using h
  exact (join64_words v).symm

/-- An update answered as two words is the update to the 64-bit value they make. -/
theorem bind_words64_eq_ok_iff {a : Except Stop DWord} {hi lo : Word} :
    (a >>= fun r => .ok (words64 r)) = (.ok [hi, lo] : Answer) ↔ a = .ok (join64 hi lo) := by
  cases a with
  | error e => exact iff_of_false nofun nofun
  | ok r => simp only [bind, Except.bind, Except.ok.injEq, words64_eq_iff]

@[simp] theorem boolWord_eq_one_iff {b : Bool} : boolWord b = 1#32 ↔ b = true := by
  cases b <;> decide

/-- FITSU says 1 of the values that fit (R91). -/
theorem answers_fitsu_one_iff {w : Nat} {n : DWord} (h : w ≤ 64) :
    Answers (.fitsu w n) [0x00001000, 1] ↔ fitsUnsigned n.toNat w = true := by
  rw [answers_cons_iff_ok (op := .fitsu) rfl (by decide), answerOf, fitsuAnswer, if_neg (Nat.not_lt.mpr h)]
  simp

/-- FITSS says 1 of the values that fit (R92). -/
theorem answers_fitss_one_iff {w : Nat} {n : DWord} (h : w ≤ 64) :
    Answers (.fitss w n) [0x00001100, 1] ↔ fitsSigned n.toInt w = true := by
  rw [answers_cons_iff_ok (op := .fitss) rfl (by decide), answerOf, fitssAnswer, if_neg (Nat.not_lt.mpr h)]
  simp [s64]

section
variable {w l : Nat} (h : w + l ≤ 64)
include h

theorem answers_getu (word : DWord) : Answers (.getu w l word) (0x00001200 :: words64 (u64 (getUnsigned word w l))) := by
  rw [answers_cons_iff_ok (op := .getu) rfl (by decide), answerOf, getuAnswer, if_neg (Nat.not_lt.mpr h)]

theorem answers_gets (word : DWord) : Answers (.gets w l word) (0x00001300 :: words64 (u64 (getSigned word w l))) := by
  rw [answers_cons_iff_ok (op := .gets) rfl (by decide), answerOf, getsAnswer, if_neg (Nat.not_lt.mpr h)]

/-- NEWU answers OK for the values that fit, with the field update (R95). -/
theorem answers_newu_iff {word value : DWord} {hi lo : Word} :
    Answers (.newu w l word value) [0x00001400, hi, lo] ↔
      fitsUnsigned value.toNat w = true ∧ join64 hi lo = setField word w l value.toNat := by
  rw [answers_cons_iff_ok (op := .newu) rfl (by decide), answerOf, newuAnswer, if_neg (Nat.not_lt.mpr h),
    bind_words64_eq_ok_iff, newUnsigned_ok_iff]

/-- NEWS answers OK for the values that fit, with the update by their low bits (R96). -/
theorem answers_news_iff {word value : DWord} {hi lo : Word} :
    Answers (.news w l word value) [0x00001500, hi, lo] ↔
      fitsSigned value.toInt w = true ∧ join64 hi lo = setField word w l (value.toInt % 2 ^ w).toNat := by
  rw [answers_cons_iff_ok (op := .news) rfl (by decide), answerOf, newsAnswer, if_neg (Nat.not_lt.mpr h),
    bind_words64_eq_ok_iff, newSigned_ok_iff, s64]

/-- An OK result of NEWU or NEWS is a field update by a number of at most `w` bits. -/
theorem setField_of_answers_new {word value : DWord} {hi lo : Word}
    (ha : Answers (.newu w l word value) [0x00001400, hi, lo] ∨ Answers (.news w l word value) [0x00001500, hi, lo]) :
    ∃ bits < 2 ^ w, join64 hi lo = setField word w l bits := by
  obtain ha | ha := ha
  · obtain ⟨hfit, hjoin⟩ := (answers_newu_iff h).mp ha
    exact ⟨_, fitsUnsigned_iff.mp hfit, hjoin⟩
  · obtain ⟨-, hjoin⟩ := (answers_news_iff h).mp ha
    exact ⟨_, toNat_emod_two_pow_lt _ w, hjoin⟩

end

/-! ## FIELD_RANGE and the immediates of a command word -/

/-- A command takes a fatal fault exactly when its rule raises the cause. -/
theorem faultsWith_iff {i : Instr} {c : Cause} :
    FaultsWith i i.opcode.code.toNat c.code.toNat ↔ answerOf i = .error (.fault c) :=
  ⟨fun h => by_contra fun hne => neverFaultsWith_of_ne hne State.reset _ (h State.reset) rfl, faultsWith_of_fault⟩

/-- A rule that begins with the FIELD_RANGE check, and can only overflow after it, takes the fault exactly when the check
fails. -/
theorem fieldRange_iff_faultsWith {i : Instr} {bad : Prop} [Decidable bad] {a : Answer}
    (hrule : answerOf i = if bad then raise .fieldRange else a) (ha : StopsIn [.overflow 0] a) :
    bad ↔ FaultsWith i i.opcode.code.toNat Cause.fieldRange.code.toNat := by
  rw [faultsWith_iff, hrule]
  split_ifs with hbad
  · exact iff_of_true hbad rfl
  · refine iff_of_false hbad fun heq => ?_
    rw [heq] at ha
    simp [StopsIn, Ends] at ha

end Sys2Proof.Machine

namespace Sys2Proof

theorem widthField_eq (cmd : Word) : widthField cmd = cmd.toNat / 2 ^ 8 % 2 ^ 7 := by
  rw [widthField, BitVec.extractLsb'_toNat, Nat.shiftRight_eq_div_pow]

theorem lsbField_eq (cmd : Word) : lsbField cmd = cmd.toNat / 2 ^ 15 % 2 ^ 7 := by
  rw [lsbField, BitVec.extractLsb'_toNat, Nat.shiftRight_eq_div_pow]

/-- A number below the lowest reserved bit has none of them. -/
theorem and_reservedMask_eq_zero {cmd : Word} {fmt : Format} (h : cmd.toNat < 2 ^ fmt.firstReserved) :
    cmd &&& fmt.reservedMask = 0#32 := by
  refine BitVec.eq_of_getLsbD_eq fun k hk => ?_
  rw [BitVec.getLsbD_and, getLsbD_reservedMask fmt hk, BitVec.getLsbD_zero]
  by_cases hres : fmt.firstReserved ≤ k
  · rw [BitVec.getLsbD, Nat.testBit_lt_two_pow (h.trans_le (Nat.pow_le_pow_right (by norm_num) hres)), Bool.false_and]
  · simp [hres]

section
variable (op : Opcode) {w l : Nat} (hw : w ≤ 127) (hl : l ≤ 127)
include hw hl

/-- The parts of a command word do not overlap (R66). -/
theorem toNat_commandWord : (commandWord op w l).toNat = op.code.toNat + w * 2 ^ 8 + l * 2 ^ 15 := by
  rw [commandWord, BitVec.toNat_ofNat, Nat.mod_eq_of_lt (by omega)]

theorem opcField_commandWord : opcField (commandWord op w l) = op.code := by
  refine BitVec.eq_of_toNat_eq ?_
  rw [toNat_opcField, toNat_commandWord op hw hl]
  omega

theorem widthField_commandWord : widthField (commandWord op w l) = w := by
  rw [widthField_eq, toNat_commandWord op hw hl]
  omega

theorem lsbField_commandWord : lsbField (commandWord op w l) = l := by
  rw [lsbField_eq, toNat_commandWord op hw hl]
  omega

theorem commandWord_and_reservedMask_f : commandWord op w l &&& Format.f.reservedMask = 0#32 := by
  refine and_reservedMask_eq_zero ?_
  rw [toNat_commandWord op hw hl, Format.firstReserved]
  omega

end

end Sys2Proof

section
open Sys2Proof Sys2Proof.Machine

/-- Settles O31: each rule begins with its FIELD_RANGE check and can only overflow after it; the immediates are seven bits of
the command word. -/
theorem fieldRange : Obligations.FieldRange := by
  refine ⟨fun w n => ⟨?fitsu, ?fitss⟩, fun w l word value => ⟨?getu, ?gets, ?newu, ?news⟩, fun w l hw hl => ?encodes,
    fun cmd => ?fields, by decide, by decide⟩
  case fitsu => exact fieldRange_iff_faultsWith (i := .fitsu w n) rfl trivial
  case fitss => exact fieldRange_iff_faultsWith (i := .fitss w n) rfl trivial
  case getu => exact fieldRange_iff_faultsWith (i := .getu w l word) rfl trivial
  case gets => exact fieldRange_iff_faultsWith (i := .gets w l word) rfl trivial
  case newu =>
    refine fieldRange_iff_faultsWith (i := .newu w l word value) rfl (.bind ?_ fun _ => trivial)
    exact stopsIn_newUnsigned fun _ => List.mem_singleton_self _
  case news =>
    refine fieldRange_iff_faultsWith (i := .news w l word value) rfl (.bind ?_ fun _ => trivial)
    exact stopsIn_newSigned (List.mem_singleton_self _)
  case encodes =>
    exact ⟨commandWord .getu w l, opcField_commandWord .getu hw hl, commandWord_and_reservedMask_f .getu hw hl,
      widthField_commandWord .getu hw hl, lsbField_commandWord .getu hw hl⟩
  case fields =>
    rw [widthField_eq, lsbField_eq]
    omega

/-- Settles O32: the result is a field update, which no mask beside the field's sees. -/
theorem fieldDisjointness : Obligations.FieldDisjointness := by
  refine ⟨fun w l word value hi lo h ha => ?_, fun w₁ l₁ w₂ l₂ word value hi lo h₁ h₂ hmasks ha => ?_⟩
  · obtain ⟨bits, hbits, hjoin⟩ := setField_of_answers_new h ha
    rw [hjoin]
    exact setField_and_not_fieldMask word hbits
  · obtain ⟨bits, hbits, hjoin⟩ := setField_of_answers_new h₂ ha
    have hdisjoint : BitVec.ofNat 64 (fieldMask w₁ l₁) &&& BitVec.ofNat 64 (fieldMask w₂ l₂) = 0#64 := by
      rw [← BitVec.ofNat_and, fieldMask, fieldMask, hmasks]
    have hget : getUnsigned (join64 hi lo) w₁ l₁ = getUnsigned word w₁ l₁ := by
      rw [hjoin]
      exact getUnsigned_eq_of_and_fieldMask_eq (by omega) (setField_and_of_and_fieldMask_eq_zero word hbits hdisjoint)
    exact ⟨_, answers_getu h₁ word, hget ▸ answers_getu h₁ (join64 hi lo)⟩

/-- Settles O33: what a field update stores is what the field then reads as, unsigned or signed. -/
theorem fieldRoundTrips : Obligations.FieldRoundTrips := by
  refine ⟨fun w l word v h hfits => ?_, fun w l word v h hfits => ?_, fun v hfits => ?_⟩
  · have hfit := (answers_fitsu_one_iff (by omega)).mp hfits
    refine ⟨_, _, (answers_newu_iff h).mpr ⟨hfit, join64_words _⟩, ?_⟩
    have hget := answers_getu h (setField word w l v.toNat)
    rw [getUnsigned_setField word (by omega) (fitsUnsigned_iff.mp hfit), u64, BitVec.ofInt_natCast, BitVec.ofNat_toNat,
      BitVec.setWidth_eq] at hget
    rwa [join64_words]
  · have hfit := (answers_fitss_one_iff (by omega)).mp hfits
    refine ⟨_, _, (answers_news_iff h).mpr ⟨hfit, join64_words _⟩, ?_⟩
    have hget := answers_gets h (setField word w l (v.toInt % 2 ^ w).toNat)
    rw [getSigned_setField word (by omega) hfit, u64, BitVec.ofInt_toInt] at hget
    rwa [join64_words]
  · obtain ⟨hlow, hhigh⟩ := fitsSigned_iff.mp ((answers_fitss_one_iff (by omega)).mp hfits)
    omega

/-- Settles O34: both views read the same bits, and NEWS stores the low bits that NEWU is given. -/
theorem signedAndUnsignedViews : Obligations.SignedAndUnsignedViews := by
  refine ⟨fun w l word hw h => ?_, fun w l word v h hfits => ?_⟩
  · refine ⟨_, _, answers_getu h word, answers_gets h word, ?_⟩
    rw [toInt_u64_getSigned word l (by omega), toNat_u64_getUnsigned word l (by omega), getSigned_eq_ite word hw]
  · have hfit := (answers_fitss_one_iff (by omega)).mp hfits
    refine ⟨_, _, (answers_news_iff h).mpr ⟨hfit, join64_words _⟩, (answers_newu_iff h).mpr ?_⟩
    rw [toNat_ofInt_emod_two_pow v.toInt (by omega)]
    exact ⟨fitsUnsigned_iff.mpr (toNat_emod_two_pow_lt _ w), join64_words _⟩

end

/-! # RGB2YPP inside its ranges (R112, R113): the operators round the exact value of their operands, rounding is monotone, and
so a row of the matrix lies between its extreme sums -/

namespace Sys2Proof.Machine.Binary32

/-! ## Rounding is monotone -/

theorem abs_toRat_lt_of_isFinite {u : Word} (h : isFinite u = true) : |toRat u| < 2 ^ 128 - 2 ^ 103 := by
  have hfrac : fracField u < 2 ^ 23 := (u.extractLsb' 0 23).isLt
  have hexp : expField u ≤ 254 := by
    have hlt : expField u < 2 ^ 8 := (u.extractLsb' 23 8).isLt
    have hne : expField u ≠ 0xFF := by simpa [isFinite] using h
    omega
  have hmag : magnitude u ≤ (2 ^ 24 - 1) * 2 ^ 253 := by
    unfold magnitude
    split
    · omega
    · gcongr <;> omega
  rw [abs_toRat, div_lt_iff₀ (by positivity)]
  calc (magnitude u : ℚ) ≤ ((2 ^ 24 - 1) * 2 ^ 253 : Nat) := by exact_mod_cast hmag
    _ < (2 ^ 128 - 2 ^ 103) * 2 ^ 149 := by norm_num

/-- Were the order reversed, `p` would lie above the midpoint of the two results and `q` below it. -/
theorem toRat_flRat_mono {p q : ℚ} (hp : isFinite (flRat p) = true) (hq : isFinite (flRat q) = true) (h : p ≤ q) :
    toRat (flRat p) ≤ toRat (flRat q) := by
  rcases h.eq_or_lt with rfl | hlt
  · exact le_rfl
  by_contra hgt
  have hpnear := sq_le_sq.mpr (flRat_nearest hp (flRat q))
  have hqnear := sq_le_sq.mpr (flRat_nearest hq (flRat p))
  nlinarith

/-- `u` is finite, and its value lies between those of `lo` and `hi`. -/
structure Within (lo hi u : Word) : Prop where
  finite : isFinite u = true
  lower : toRat lo ≤ toRat u
  upper : toRat u ≤ toRat hi

/-- `u` is `fl(q)`, except that a zero may have either sign. -/
structure RoundsTo (u : Word) (q : ℚ) : Prop where
  finite_iff : isFinite u = true ↔ isFinite (flRat q) = true
  value : toRat u = toRat (flRat q)

/-- A finite word is the rounding of its own value. -/
theorem roundsTo_toRat {u : Word} (h : isFinite u = true) : RoundsTo u (toRat u) := by
  have hfin : isFinite (flRat (toRat u)) = true := (isFinite_flRat_iff _).mpr (abs_toRat_lt_of_isFinite h)
  have hnear := flRat_nearest hfin u
  rw [sub_self, abs_zero, abs_nonpos_iff, sub_eq_zero] at hnear
  exact ⟨by simp [h, hfin], hnear.symm⟩

/-- The rounding of a value between two others lies between their roundings. -/
theorem RoundsTo.within {lo hi u : Word} {p q r : ℚ} (hu : RoundsTo u q) (hlo : RoundsTo lo p) (hhi : RoundsTo hi r)
    (hlofin : isFinite lo = true) (hhifin : isFinite hi = true) (hpq : p ≤ q) (hqr : q ≤ r) : Within lo hi u := by
  rw [hlo.finite_iff] at hlofin
  rw [hhi.finite_iff] at hhifin
  have hfin : isFinite (flRat q) = true := by
    rw [isFinite_flRat_iff, abs_lt] at *
    exact ⟨hlofin.1.trans_le hpq, hqr.trans_lt hhifin.2⟩
  refine ⟨hu.finite_iff.mpr hfin, ?_, ?_⟩
  · rw [hlo.value, hu.value]; exact toRat_flRat_mono hlofin hfin hpq
  · rw [hu.value, hhi.value]; exact toRat_flRat_mono hfin hhifin hqr

/-! ## The operators round the exact value (R12) -/

theorem fl_zero_num (neg : Bool) (den : Nat) : fl neg 0 den = ofBits neg 0 := by
  have hzero : nearestEven 0 den = 0 := by
    unfold nearestEven
    rcases Nat.eq_zero_or_pos den with rfl | hd
    · simp
    · simp [hd]
  simp [fl, nearestBits, ulpExp, hzero]

theorem fl_roundsTo {neg : Bool} {num den : Nat} {q : ℚ} (hd : 0 < den)
    (hq : q * 2 ^ 149 = ((if neg then -num else num : Int) : ℚ) / den) : RoundsTo (fl neg num den) q := by
  have hfl := flRat_eq_fl hd hq
  rcases Nat.eq_zero_or_pos num with rfl | hnum
  · simp only [CharP.cast_eq_zero, neg_zero, ite_self, lt_self_iff_false, decide_false, Int.natAbs_zero] at hfl
    rw [fl_zero_num] at hfl ⊢
    constructor <;> rw [hfl] <;> cases neg <;> decide +kernel
  · have : fl neg num den = flRat q := by
      rw [hfl]
      cases neg <;> simp [hnum, (Int.natCast_nonneg num).not_gt]
    rw [this]
    exact ⟨Iff.rfl, rfl⟩

theorem addRaw_eq_fl (x y : Word) :
    addRaw x y = fl (if scaled x + scaled y = 0 then signBit x && signBit y else decide (scaled x + scaled y < 0))
      (scaled x + scaled y).natAbs 1 := by
  unfold addRaw
  by_cases h : scaled x + scaled y = 0
  · simp [h, fl_zero_num]
  · simp [h]

theorem addRaw_roundsTo (x y : Word) : RoundsTo (addRaw x y) (toRat x + toRat y) := by
  rw [addRaw_eq_fl]
  refine fl_roundsTo Nat.one_pos ?_
  have hsum : (toRat x + toRat y) * 2 ^ 149 = ((scaled x + scaled y : Int) : ℚ) := by
    simp only [toRat]
    push_cast
    field_simp
  rw [hsum, Nat.cast_one, div_one, Int.cast_inj]
  split_ifs with hz hneg hneg
  · omega
  · omega
  · rw [decide_eq_true_eq] at hneg; omega
  · rw [decide_eq_true_eq] at hneg; omega

theorem mulRaw_roundsTo (x y : Word) : RoundsTo (mulRaw x y) (toRat x * toRat y) := by
  refine fl_roundsTo (Nat.two_pow_pos 149) ?_
  simp only [toRat, scaled]
  cases signBit x <;> cases signBit y <;> simp <;> ring

theorem divRaw_roundsTo (x : Word) {y : Word} (hy : magnitude y ≠ 0) : RoundsTo (divRaw x y) (toRat x / toRat y) := by
  rw [divRaw, if_neg hy]
  refine fl_roundsTo (Nat.pos_of_ne_zero hy) ?_
  simp only [toRat, scaled]
  cases signBit x <;> cases signBit y <;> simp <;> field_simp <;> norm_num

/-! ## Negative zero -/

theorem toRat_eq_zero_iff {u : Word} : toRat u = 0 ↔ magnitude u = 0 := by
  rw [← abs_eq_zero, abs_toRat]
  simp

/-- The value of −0. -/
structure IsNegZero (u : Word) : Prop where
  sign : signBit u = true
  value : toRat u = 0

theorem isNegZero_negZero : IsNegZero 0x80000000 := by
  constructor <;> decide +kernel

/-- A sum is −0 only for two −0: an exact nonzero sum is one unit of `2^−149` or more and does not round to zero. -/
theorem IsNegZero.of_addRaw {x y : Word} (hfin : isFinite (addRaw x y) = true) (h : IsNegZero (addRaw x y)) :
    IsNegZero x ∧ IsNegZero y := by
  obtain ⟨hsign, hvalue⟩ := h
  rw [toRat_eq_zero_iff] at hvalue
  rw [addRaw_eq_fl] at hfin hsign hvalue
  have hnear := (magnitude_fl_nearest Nat.one_pos hfin 1).1
  rw [hvalue, show magnitude 1 = 1 by decide, Int.abs_eq_natAbs, Int.abs_eq_natAbs] at hnear
  have hz : scaled x + scaled y = 0 := by omega
  rw [signBit_fl, if_pos hz, Bool.and_eq_true] at hsign
  obtain ⟨hx, hy⟩ := hsign
  simp only [scaled, hx, hy, if_true] at hz
  exact ⟨⟨hx, toRat_eq_zero_iff.mpr (by omega)⟩, ⟨hy, toRat_eq_zero_iff.mpr (by omega)⟩⟩

/-! ## Normalized samples -/

/-- A finite value in `[0, 1]` that is not −0. -/
structure InUnit (x : Word) : Prop where
  sign : signBit x = false
  finite : isFinite x = true
  le_one : toRat x ≤ 1

theorem InUnit.nonneg {x : Word} (h : InUnit x) : 0 ≤ toRat x := by
  rw [toRat_of_signBit h.sign]
  positivity

theorem toRat_zero : toRat zero = 0 := by decide +kernel

theorem toRat_one : toRat one = 1 := by decide +kernel

theorem toRat_half : toRat half = 1 / 2 := by decide +kernel

theorem toRat_negHalf : toRat negHalf = -(1 / 2) := by decide +kernel

@[simp] theorem signBit_cvt (n : Nat) : signBit (cvt n) = false := by
  simp [cvt]

@[simp] theorem signBit_divRaw (x y : Word) : signBit (divRaw x y) = (signBit x != signBit y) := by
  unfold divRaw
  split
  · exact signBit_ofBits _ (by norm_num [infBits])
  · exact signBit_fl _ _ _

@[simp] theorem signBit_mulRaw (x y : Word) : signBit (mulRaw x y) = (signBit x != signBit y) := signBit_fl _ _ _

/-- `cvt(m) ⊘ cvt(n)` is in `[0, 1]` for `m ≤ n`, because `⊘` is monotone and 0 and 1 are binary32 values (R113). -/
theorem inUnit_divRaw_cvt {m n : Nat} (hmn : m ≤ n) (hn : 1 ≤ n) (hmax : n ≤ 65535) :
    InUnit (divRaw (cvt m) (cvt n)) := by
  obtain ⟨-, hm⟩ := cvt_exact (n := m) (by rw [Nat.abs_cast]; omega)
  obtain ⟨-, hd⟩ := cvt_exact (n := n) (by rw [Nat.abs_cast]; omega)
  rw [Int.cast_natCast] at hm hd
  have hpos : (0 : ℚ) < n := by exact_mod_cast hn
  have hquot : RoundsTo (divRaw (cvt m) (cvt n)) (m / n) := by
    rw [← hm, ← hd]
    refine divRaw_roundsTo _ fun h0 => ?_
    rw [toRat_eq_zero_iff.mpr h0] at hd
    exact hpos.ne hd
  have hwithin := hquot.within (roundsTo_toRat (u := zero) rfl) (roundsTo_toRat (u := one) rfl) rfl rfl
    (by rw [toRat_zero]; positivity) (by rw [toRat_one, div_le_one hpos]; exact_mod_cast hmn)
  exact ⟨by simp, hwithin.finite, hwithin.upper.trans_eq toRat_one⟩

/-! ## A row of the matrix -/

/-- The least value of `k ⊗ x` for `x` in `[0, 1]`. -/
def leastTerm (k : Word) : Word := if signBit k then k else zero

/-- The greatest value of `k ⊗ x` for `x` in `[0, 1]`. -/
def greatestTerm (k : Word) : Word := if signBit k then zero else k

theorem mulRaw_within {k x : Word} (hk : isFinite k = true) (hx : InUnit x) :
    Within (leastTerm k) (greatestTerm k) (mulRaw k x) := by
  have hprod := mulRaw_roundsTo k x
  have hzero := roundsTo_toRat (u := zero) rfl
  have hself := roundsTo_toRat hk
  have hnonneg := hx.nonneg
  have hone := hx.le_one
  cases hs : signBit k
  · have : 0 ≤ toRat k := by rw [toRat_of_signBit hs]; positivity
    simp only [leastTerm, greatestTerm, hs, Bool.false_eq_true, if_false]
    exact hprod.within hzero hself rfl hk (by rw [toRat_zero]; positivity) (by nlinarith)
  · have : toRat k ≤ 0 := by rw [toRat_of_signBit_neg hs, neg_nonpos]; positivity
    simp only [leastTerm, greatestTerm, hs, if_true]
    exact hprod.within hself hzero hk rfl (by nlinarith) (by rw [toRat_zero]; nlinarith)

theorem Within.addRaw {lo hi x lo' hi' y : Word} (hx : Within lo hi x) (hy : Within lo' hi' y)
    (hlo : isFinite (addRaw lo lo') = true) (hhi : isFinite (addRaw hi hi') = true) :
    Within (addRaw lo lo') (addRaw hi hi') (addRaw x y) :=
  (addRaw_roundsTo x y).within (addRaw_roundsTo lo lo') (addRaw_roundsTo hi hi') hlo hhi
    (add_le_add hx.lower hy.lower) (add_le_add hx.upper hy.upper)

theorem clamp_of_within {lo hi x : Word} (h : Within lo hi x) : clamp x lo hi = x := by
  have hscaled : ∀ {u v : Word}, toRat u ≤ toRat v → lt v u = false := by
    intro u v huv
    rw [toRat, toRat, div_le_div_iff_of_pos_right (by positivity), Int.cast_le] at huv
    simpa [lt] using huv
  simp [clamp, hscaled h.lower, hscaled h.upper]

end Sys2Proof.Machine.Binary32

namespace Sys2Proof.Machine
open Binary32

theorem ok_bind {α β : Type} (a : α) (f : α → Except Stop β) : (Except.ok a >>= f) = f a := rfl

/-- `((k1 ⊗ x1) ⊕ (k2 ⊗ x2)) ⊕ (k3 ⊗ x3)` without the checks of `linear3`. -/
def rowValue (k1 x1 k2 x2 k3 x3 : Word) : Word :=
  addRaw (addRaw (mulRaw k1 x1) (mulRaw k2 x2)) (mulRaw k3 x3)

/-- The extreme sums of a row: its coefficients are finite, one of them has its sign bit clear, the sums are finite too, and
the whole ones are `lo` and `hi`. -/
structure RowBounds (k1 k2 k3 lo hi : Word) : Prop where
  coefficients : isFinite k1 = true ∧ isFinite k2 = true ∧ isFinite k3 = true
  positive : (signBit k1 && signBit k2 && signBit k3) = false
  leastPartial : isFinite (addRaw (leastTerm k1) (leastTerm k2)) = true
  greatestPartial : isFinite (addRaw (greatestTerm k1) (greatestTerm k2)) = true
  extremes : isFinite lo = true ∧ isFinite hi = true
  least : addRaw (addRaw (leastTerm k1) (leastTerm k2)) (leastTerm k3) = lo
  greatest : addRaw (addRaw (greatestTerm k1) (greatestTerm k2)) (greatestTerm k3) = hi

section
variable {k1 k2 k3 lo hi x1 x2 x3 : Word} (hrow : RowBounds k1 k2 k3 lo hi)
  (h1 : InUnit x1) (h2 : InUnit x2) (h3 : InUnit x3)
include hrow h1 h2 h3

/-- A row and its first sum lie between their extreme sums, because `⊗` and `⊕` are monotone (R113). -/
theorem rowValue_within :
    isFinite (addRaw (mulRaw k1 x1) (mulRaw k2 x2)) = true ∧ Within lo hi (rowValue k1 x1 k2 x2 k3 x3) := by
  obtain ⟨⟨hk1, hk2, hk3⟩, -, hlo12, hhi12, ⟨hlo, hhi⟩, rfl, rfl⟩ := hrow
  have ht12 := (mulRaw_within hk1 h1).addRaw (mulRaw_within hk2 h2) hlo12 hhi12
  exact ⟨ht12.finite, ht12.addRaw (mulRaw_within hk3 h3) hlo hhi⟩

/-- A row of legal samples passes every check and answers its value. -/
theorem linear3_of_inUnit : linear3 k1 x1 k2 x2 k3 x3 = .ok (rowValue k1 x1 k2 x2 k3 x3) := by
  obtain ⟨hfin12, hsum⟩ := rowValue_within hrow h1 h2 h3
  obtain ⟨hk1, hk2, hk3⟩ := hrow.coefficients
  unfold linear3 fmul fadd
  rw [chk_of_finite (mulRaw_within hk1 h1).finite, ok_bind, chk_of_finite (mulRaw_within hk2 h2).finite, ok_bind,
    chk_of_finite hfin12, ok_bind, chk_of_finite (mulRaw_within hk3 h3).finite, ok_bind]
  exact chk_of_finite hsum.finite

/-- A row's positive coefficient gives a term that is not −0, and so its sums are not −0 (R113). -/
theorem rowValue_ne_negZero : rowValue k1 x1 k2 x2 k3 x3 ≠ 0x80000000 := by
  obtain ⟨hfin12, hsum⟩ := rowValue_within hrow h1 h2 h3
  intro heq
  have hneg : IsNegZero (rowValue k1 x1 k2 x2 k3 x3) := heq ▸ isNegZero_negZero
  obtain ⟨hneg12, hneg3⟩ := hneg.of_addRaw hsum.finite
  obtain ⟨hneg1, hneg2⟩ := hneg12.of_addRaw hfin12
  have hs1 : signBit k1 = true := by simpa [h1.sign] using hneg1.sign
  have hs2 : signBit k2 = true := by simpa [h2.sign] using hneg2.sign
  have hs3 : signBit k3 = true := by simpa [h3.sign] using hneg3.sign
  simpa [hs1, hs2, hs3] using hrow.positive

end

theorem lumaRow_bounds : RowBounds kyr kyg kyb zero one := by
  constructor <;> decide +kernel

theorem pbRow_bounds : RowBounds kbr kbg kbb negHalf half := by
  constructor <;> decide +kernel

theorem prRow_bounds : RowBounds krr krg krb negHalf half := by
  constructor <;> decide +kernel

/-- The domain of RGB2YPP (R110). -/
structure LegalPixel (p : RgbPixel) (den : Word) : Prop where
  den_pos : 1 ≤ den.toNat
  den_le : den.toNat ≤ 65535
  r_le : p.r.toNat ≤ den.toNat
  g_le : p.g.toNat ≤ den.toNat
  b_le : p.b.toNat ≤ den.toNat

/-- A sample divided by the denominator (R112). -/
def normalized (n den : Word) : Word := divRaw (cvt n.toNat) (cvt den.toNat)

theorem fdiv_of_inUnit {n den : Word} (h : InUnit (normalized n den)) :
    fdiv (cvt n.toNat) (cvt den.toNat) = .ok (normalized n den) := chk_of_finite h.finite

section
variable {p : RgbPixel} {den : Word} (h : LegalPixel p den)
include h

theorem LegalPixel.inUnit :
    InUnit (normalized p.r den) ∧ InUnit (normalized p.g den) ∧ InUnit (normalized p.b den) :=
  ⟨inUnit_divRaw_cvt h.r_le h.den_pos h.den_le, inUnit_divRaw_cvt h.g_le h.den_pos h.den_le,
    inUnit_divRaw_cvt h.b_le h.den_pos h.den_le⟩

/-- A legal pixel passes the checks of RGB2YPP in R112's order, and no clamp changes a row (R113). -/
theorem rgb2yppAnswer_of_legal :
    rgb2yppAnswer p den = .ok
      [rowValue kyr (normalized p.r den) kyg (normalized p.g den) kyb (normalized p.b den),
        rowValue kbr (normalized p.r den) kbg (normalized p.g den) kbb (normalized p.b den),
        rowValue krr (normalized p.r den) krg (normalized p.g den) krb (normalized p.b den)] := by
  obtain ⟨hr, hg, hb⟩ := h.inUnit
  obtain ⟨-, hy⟩ := rowValue_within lumaRow_bounds hr hg hb
  obtain ⟨-, hpb⟩ := rowValue_within pbRow_bounds hr hg hb
  obtain ⟨-, hpr⟩ := rowValue_within prRow_bounds hr hg hb
  have hdenOk : denOk den = true := decide_eq_true ⟨h.den_pos, h.den_le⟩
  rw [rgb2yppAnswer, if_neg (by simp [hdenOk]), if_neg h.r_le.not_gt, if_neg h.g_le.not_gt, if_neg h.b_le.not_gt]
  extract_lets dn
  rw [fdiv_of_inUnit hr, ok_bind, fdiv_of_inUnit hg, ok_bind, fdiv_of_inUnit hb, ok_bind,
    linear3_of_inUnit lumaRow_bounds hr hg hb, linear3_of_inUnit pbRow_bounds hr hg hb,
    linear3_of_inUnit prRow_bounds hr hg hb, ok_bind, ok_bind, ok_bind,
    clamp_of_within hy, clamp_of_within hpb, clamp_of_within hpr]

end

end Sys2Proof.Machine

section
open Sys2Proof Sys2Proof.Machine Sys2Proof.Machine.Binary32

/-- Settles O39, row by row: the samples are in `[0, 1]`, so each row lies between its extreme sums, which are the bounds of its
clamp. -/
theorem rgbToYppResult : Obligations.RgbToYppResult := by
  refine ⟨fun p den hden hmax hrle hgle hble => ?_, by decide +kernel⟩
  have hlegal : LegalPixel p den := ⟨hden, hmax, hrle, hgle, hble⟩
  obtain ⟨hr, hg, hb⟩ := hlegal.inUnit
  obtain ⟨-, hy⟩ := rowValue_within lumaRow_bounds hr hg hb
  obtain ⟨-, hpb⟩ := rowValue_within pbRow_bounds hr hg hb
  obtain ⟨-, hpr⟩ := rowValue_within prRow_bounds hr hg hb
  refine ⟨answers_cons_of_ok (op := .rgb2ypp) (rgb2yppAnswer_of_legal hlegal) rfl (by decide), ?_, ?_, ?_, ?_,
    rowValue_ne_negZero lumaRow_bounds hr hg hb, rowValue_ne_negZero pbRow_bounds hr hg hb,
    rowValue_ne_negZero prRow_bounds hr hg hb⟩
  · exact toRat_zero.symm.trans_le hy.lower
  · exact hy.upper.trans_eq toRat_one
  · exact abs_le.mpr ⟨toRat_negHalf.symm.trans_le hpb.lower, hpb.upper.trans_eq toRat_half⟩
  · exact abs_le.mpr ⟨toRat_negHalf.symm.trans_le hpr.lower, hpr.upper.trans_eq toRat_half⟩

end

/-! # DCTF's ranges (R128) and its averaged chroma (R132): the four coefficients and the two averages are each the mean of four
words, some of them negated, and the mean is monotone in all four -/

namespace Sys2Proof.Machine.Binary32

@[simp] theorem toRat_negate (u : Word) : toRat (negate u) = -toRat u := by
  simp [toRat, neg_div]

/-- Negation turns the bounds round. -/
theorem Within.negate {lo hi x : Word} (h : Within lo hi x) : Within (negate hi) (negate lo) (negate x) :=
  ⟨by simp [h.finite], by simp [h.upper], by simp [h.lower]⟩

/-- `⊘` by a positive divisor is monotone. -/
theorem Within.divRaw {lo hi x d : Word} (hx : Within lo hi x) (hd : 0 < toRat d)
    (hlo : isFinite (divRaw lo d) = true) (hhi : isFinite (divRaw hi d) = true) :
    Within (divRaw lo d) (divRaw hi d) (divRaw x d) := by
  have hmag : magnitude d ≠ 0 := mt toRat_eq_zero_iff.mpr hd.ne'
  exact (divRaw_roundsTo x hmag).within (divRaw_roundsTo lo hmag) (divRaw_roundsTo hi hmag) hlo hhi
    (div_le_div_of_nonneg_right hx.lower hd.le) (div_le_div_of_nonneg_right hx.upper hd.le)

theorem within_zero_one_iff {x : Word} :
    Within zero one x ↔ isFinite x = true ∧ 0 ≤ toRat x ∧ toRat x ≤ 1 := by
  rw [← toRat_zero, ← toRat_one]
  exact ⟨fun ⟨hfin, hlo, hhi⟩ => ⟨hfin, hlo, hhi⟩, fun ⟨hfin, hlo, hhi⟩ => ⟨hfin, hlo, hhi⟩⟩

theorem within_half_iff {x : Word} : Within negHalf half x ↔ isFinite x = true ∧ |toRat x| ≤ 1 / 2 := by
  rw [abs_le, ← toRat_negHalf, ← toRat_half]
  exact ⟨fun ⟨hfin, hlo, hhi⟩ => ⟨hfin, hlo, hhi⟩, fun ⟨hfin, hlo, hhi⟩ => ⟨hfin, hlo, hhi⟩⟩

end Sys2Proof.Machine.Binary32

namespace Sys2Proof.Machine
open Binary32

theorem bind_eq_ok_iff {α β : Type} {a : Except Stop α} {f : α → Except Stop β} {r : β} :
    (a >>= f) = .ok r ↔ ∃ x, a = .ok x ∧ f x = .ok r := by
  cases a <;> simp [bind, Except.bind]

/-! ## The mean of four words (R127) -/

theorem mean4_eq_ok_iff {x1 x2 x3 x4 m : Word} :
    mean4 x1 x2 x3 x4 = .ok m ↔
      isFinite (addRaw x1 x2) = true ∧ isFinite (addRaw (addRaw x1 x2) x3) = true ∧
      isFinite (addRaw (addRaw (addRaw x1 x2) x3) x4) = true ∧
      isFinite (divRaw (addRaw (addRaw (addRaw x1 x2) x3) x4) four) = true ∧
      m = divRaw (addRaw (addRaw (addRaw x1 x2) x3) x4) four := by
  simp only [mean4, bind_eq_ok_iff, fadd_ok_iff, fdiv_ok_iff, and_assoc, exists_and_left, exists_eq_left]

/-- The mean is monotone in all four words: where those of the lower and the upper bounds pass the checks, so does the mean of
words between them, and it lies between theirs. -/
theorem mean4_of_within {l1 l2 l3 l4 u1 u2 u3 u4 lo hi x1 x2 x3 x4 : Word}
    (hlo : mean4 l1 l2 l3 l4 = .ok lo) (hhi : mean4 u1 u2 u3 u4 = .ok hi)
    (h1 : Within l1 u1 x1) (h2 : Within l2 u2 x2) (h3 : Within l3 u3 x3) (h4 : Within l4 u4 x4) :
    ∃ m, mean4 x1 x2 x3 x4 = .ok m ∧ Within lo hi m := by
  obtain ⟨hlo2, hlo3, hlo4, hlodiv, rfl⟩ := mean4_eq_ok_iff.mp hlo
  obtain ⟨hhi2, hhi3, hhi4, hhidiv, rfl⟩ := mean4_eq_ok_iff.mp hhi
  have hsum2 := h1.addRaw h2 hlo2 hhi2
  have hsum3 := hsum2.addRaw h3 hlo3 hhi3
  have hsum4 := hsum3.addRaw h4 hlo4 hhi4
  have hmean := hsum4.divRaw (d := four) (by decide +kernel) hlodiv hhidiv
  exact ⟨_, mean4_eq_ok_iff.mpr ⟨hsum2.finite, hsum3.finite, hsum4.finite, hmean.finite, rfl⟩, hmean⟩

/-! The differences of R127 are means with two of the words negated, because `⊖` adds the negated operand. -/

theorem coefB_eq_mean4 (y1 y2 y3 y4 : Word) : coefB y1 y2 y3 y4 = mean4 y4 y3 (negate y2) (negate y1) := rfl

theorem coefC_eq_mean4 (y1 y2 y3 y4 : Word) : coefC y1 y2 y3 y4 = mean4 y4 (negate y3) y2 (negate y1) := rfl

theorem coefD_eq_mean4 (y1 y2 y3 y4 : Word) : coefD y1 y2 y3 y4 = mean4 y4 (negate y3) (negate y2) y1 := rfl

section
variable {x1 x2 x3 x4 : Word}

theorem mean4_chroma_range (h1 : Within negHalf half x1) (h2 : Within negHalf half x2) (h3 : Within negHalf half x3)
    (h4 : Within negHalf half x4) : ∃ m, mean4 x1 x2 x3 x4 = .ok m ∧ Within negHalf half m :=
  mean4_of_within (by decide +kernel) (by decide +kernel) h1 h2 h3 h4

variable (h1 : Within zero one x1) (h2 : Within zero one x2) (h3 : Within zero one x3) (h4 : Within zero one x4)
include h1 h2 h3 h4

theorem mean4_luma_range : ∃ a, mean4 x1 x2 x3 x4 = .ok a ∧ Within zero one a :=
  mean4_of_within (by decide +kernel) (by decide +kernel) h1 h2 h3 h4

theorem coefB_range : ∃ b, coefB x1 x2 x3 x4 = .ok b ∧ Within negHalf half b := by
  rw [coefB_eq_mean4]
  exact mean4_of_within (by decide +kernel) (by decide +kernel) h4 h3 h2.negate h1.negate

theorem coefC_range : ∃ c, coefC x1 x2 x3 x4 = .ok c ∧ Within negHalf half c := by
  rw [coefC_eq_mean4]
  exact mean4_of_within (by decide +kernel) (by decide +kernel) h4 h3.negate h2 h1.negate

theorem coefD_range : ∃ d, coefD x1 x2 x3 x4 = .ok d ∧ Within negHalf half d := by
  rw [coefD_eq_mean4]
  exact mean4_of_within (by decide +kernel) (by decide +kernel) h4 h3.negate h2.negate h1

end

/-! ## The rules of DCTF and DCTI -/

/-- DCTF answers a block exactly when its operands are finite and the six parts answer the block's words. -/
theorem dctfAnswer_eq_ok_iff {p1 p2 p3 p4 : YppPixel} {t : TransformBlock} :
    dctfAnswer p1 p2 p3 p4 = .ok t.words ↔
      allFinite (p1.words ++ p2.words ++ p3.words ++ p4.words) = true ∧
      mean4 p1.y p2.y p3.y p4.y = .ok t.a ∧ coefB p1.y p2.y p3.y p4.y = .ok t.b ∧
      coefC p1.y p2.y p3.y p4.y = .ok t.c ∧ coefD p1.y p2.y p3.y p4.y = .ok t.d ∧
      mean4 p1.pb p2.pb p3.pb p4.pb = .ok t.avgPb ∧ mean4 p1.pr p2.pr p3.pr p4.pr = .ok t.avgPr := by
  unfold dctfAnswer
  cases allFinite (p1.words ++ p2.words ++ p3.words ++ p4.words)
  · simp [raise]
  · simp [bind_eq_ok_iff, TransformBlock.words]

/-- DCTI puts the block's chroma words into every pixel (R129). -/
theorem chroma_of_dctiAnswer {t : TransformBlock} {res : List Word} (h : dctiAnswer t = .ok res) :
    ∃ y1 y2 y3 y4 : Word,
      res = [y1, t.avgPb, t.avgPr, y2, t.avgPb, t.avgPr, y3, t.avgPb, t.avgPr, y4, t.avgPb, t.avgPr] := by
  unfold dctiAnswer at h
  split at h
  · cases h
  · simp only [bind_eq_ok_iff, Except.ok.injEq] at h
    obtain ⟨-, -, -, -, y1, -, -, -, -, -, y2, -, -, -, -, -, y3, -, -, -, -, -, y4, -, rfl⟩ := h
    exact ⟨y1, y2, y3, y4, rfl⟩

/-- A pixel in the ranges of R128. -/
structure PixelInRange (p : YppPixel) : Prop where
  luma : Within zero one p.y
  pb : Within negHalf half p.pb
  pr : Within negHalf half p.pr

theorem pixelInRange_iff {p : YppPixel} :
    PixelInRange p ↔
      allFinite p.words = true ∧ 0 ≤ toRat p.y ∧ toRat p.y ≤ 1 ∧ |toRat p.pb| ≤ 1 / 2 ∧ |toRat p.pr| ≤ 1 / 2 := by
  have hparts : PixelInRange p ↔ Within zero one p.y ∧ Within negHalf half p.pb ∧ Within negHalf half p.pr :=
    ⟨fun ⟨hy, hpb, hpr⟩ => ⟨hy, hpb, hpr⟩, fun ⟨hy, hpb, hpr⟩ => ⟨hy, hpb, hpr⟩⟩
  have hfinite : allFinite p.words = true ↔ isFinite p.y = true ∧ isFinite p.pb = true ∧ isFinite p.pr = true := by
    simp [allFinite, YppPixel.words]
  rw [hparts, hfinite, within_zero_one_iff, within_half_iff, within_half_iff]
  tauto

/-- A block in the ranges of R128. -/
structure BlockInRange (t : TransformBlock) : Prop where
  a : Within zero one t.a
  b : Within negHalf half t.b
  c : Within negHalf half t.c
  d : Within negHalf half t.d
  avgPb : Within negHalf half t.avgPb
  avgPr : Within negHalf half t.avgPr

theorem BlockInRange.allFinite_words {t : TransformBlock} (h : BlockInRange t) : allFinite t.words = true := by
  simp [allFinite, TransformBlock.words, h.a.finite, h.b.finite, h.c.finite, h.d.finite, h.avgPb.finite, h.avgPr.finite]

/-- DCTF of pixels in range answers OK with a block in range (R128). -/
theorem dctfAnswer_of_inRange {p1 p2 p3 p4 : YppPixel} (h1 : PixelInRange p1) (h2 : PixelInRange p2)
    (h3 : PixelInRange p3) (h4 : PixelInRange p4) :
    ∃ t : TransformBlock, dctfAnswer p1 p2 p3 p4 = .ok t.words ∧ BlockInRange t := by
  obtain ⟨a, hokA, ha⟩ := mean4_luma_range h1.luma h2.luma h3.luma h4.luma
  obtain ⟨b, hokB, hb⟩ := coefB_range h1.luma h2.luma h3.luma h4.luma
  obtain ⟨c, hokC, hc⟩ := coefC_range h1.luma h2.luma h3.luma h4.luma
  obtain ⟨d, hokD, hd⟩ := coefD_range h1.luma h2.luma h3.luma h4.luma
  obtain ⟨pb, hokPb, hpb⟩ := mean4_chroma_range h1.pb h2.pb h3.pb h4.pb
  obtain ⟨pr, hokPr, hpr⟩ := mean4_chroma_range h1.pr h2.pr h3.pr h4.pr
  have hfinite : ∀ {p : YppPixel}, PixelInRange p → p.words.all isFinite = true := fun h => (pixelInRange_iff.mp h).1
  refine ⟨⟨a, b, c, d, pb, pr⟩, dctfAnswer_eq_ok_iff.mpr ⟨?_, hokA, hokB, hokC, hokD, hokPb, hokPr⟩,
    ⟨ha, hb, hc, hd, hpb, hpr⟩⟩
  simp only [allFinite, List.all_append, hfinite h1, hfinite h2, hfinite h3, hfinite h4, Bool.and_self]

end Sys2Proof.Machine

section
open Sys2Proof Sys2Proof.Machine Sys2Proof.Machine.Binary32

/-- Settles O46: the mean of four words is monotone in each, and at the ends of the operands' ranges it gives the ends of the
results' ranges. -/
theorem dctfRanges : Obligations.DctfRanges := by
  intro p1 p2 p3 p4 hpixels
  have hrange : ∀ p ∈ [p1, p2, p3, p4], PixelInRange p := fun p hp => pixelInRange_iff.mpr (hpixels p hp)
  obtain ⟨t, hanswer, ht⟩ := dctfAnswer_of_inRange (hrange p1 (by simp)) (hrange p2 (by simp)) (hrange p3 (by simp))
    (hrange p4 (by simp))
  obtain ⟨-, hnonneg, hone⟩ := within_zero_one_iff.mp ht.a
  exact ⟨t, answers_cons_of_ok (op := .dctf) hanswer rfl (by decide), ht.allFinite_words, hnonneg, hone,
    (within_half_iff.mp ht.b).2, (within_half_iff.mp ht.c).2, (within_half_iff.mp ht.d).2,
    (within_half_iff.mp ht.avgPb).2, (within_half_iff.mp ht.avgPr).2⟩

/-- Settles O47: DCTF's chroma results are the means by its rule, and DCTI puts the two words into every pixel. -/
theorem chromaIsAveraged : Obligations.ChromaIsAveraged := by
  intro p1 p2 p3 p4 q1 q2 q3 q4 t hdctf hdcti
  rw [answers_cons_iff_ok (op := .dctf) rfl (by decide)] at hdctf
  rw [answers_cons_iff_ok (op := .dcti) rfl (by decide)] at hdcti
  obtain ⟨-, -, -, -, -, hpb, hpr⟩ := dctfAnswer_eq_ok_iff.mp hdctf
  obtain ⟨-, -, -, -, hpb⟩ := mean4_eq_ok_iff.mp hpb
  obtain ⟨-, -, -, -, hpr⟩ := mean4_eq_ok_iff.mp hpr
  obtain ⟨y1, y2, y3, y4, hwords⟩ := chroma_of_dctiAnswer hdcti
  refine ⟨hpb, hpr, ?_⟩
  simp only [YppPixel.words, List.cons_append, List.nil_append, List.cons.injEq] at hwords
  simp [hwords]

end

/-! # CHRIDX (R145, R146): the scan of the table keeps the first of the nearest levels it has met -/

namespace Sys2Proof.Machine.Binary32

/-- The values of two words are in the order of their integers in units of `2^−149`. -/
theorem toRat_le_toRat_iff {x y : Word} : toRat x ≤ toRat y ↔ scaled x ≤ scaled y := by
  rw [toRat, toRat, div_le_div_iff_of_pos_right (by positivity), Int.cast_le]

end Sys2Proof.Machine.Binary32

namespace Sys2Proof.Machine
open Binary32

/-- The exact distance of two values, in units of `2^−149` (R145). -/
theorem abs_toRat_sub_toRat (x y : Word) : |toRat x - toRat y| = distance x y / 2 ^ 149 := by
  rw [toRat, toRat, ← sub_div, abs_div, abs_of_pos (by positivity : (0 : ℚ) < 2 ^ 149), distance, Nat.cast_natAbs]
  push_cast
  rfl

/-- Scanning a list in rising order and replacing the best so far only by a smaller value ends at the least value, and at its
first place. -/
theorem foldl_least {α : Type} [LinearOrder α] (f : α → Nat) {l : List α} {best : α}
    (hsorted : (best :: l).Pairwise (· ≤ ·)) :
    ∀ j ∈ best :: l,
      let r := l.foldl (fun best i => if f i < f best then i else best) best
      f r ≤ f j ∧ (f r = f j → r ≤ j) := by
  induction l generalizing best with
  | nil => simp
  | cons i l ih =>
    obtain ⟨hbest, htail⟩ := List.pairwise_cons.mp hsorted
    obtain ⟨hi, hl⟩ := List.pairwise_cons.mp htail
    intro j hj
    rw [List.foldl_cons]
    split_ifs with hlt
    · have hleast := ih htail
      rcases List.mem_cons.mp hj with rfl | hj
      · have := (hleast i List.mem_cons_self).1
        exact ⟨by omega, fun heq => by omega⟩
      · exact hleast j hj
    · have hleast := ih (List.pairwise_cons.mpr ⟨fun k hk => hbest k (List.mem_cons_of_mem i hk), hl⟩)
      rcases List.mem_cons.mp hj with rfl | hj
      · exact hleast j List.mem_cons_self
      rcases List.mem_cons.mp hj with rfl | hj
      · obtain ⟨hle, hfirst⟩ := hleast best List.mem_cons_self
        exact ⟨by omega, fun heq => (hfirst (by omega)).trans (hbest j List.mem_cons_self)⟩
      · exact hleast j (List.mem_cons_of_mem best hj)

/-- `IOC(x)` is the lowest index of a nearest level, whatever the table is (R145). -/
theorem ioc_nearest (L : ChromaTable) (x : Word) (j : Fin 16) :
    distance x (L (ioc L x)) ≤ distance x (L j) ∧ (distance x (L (ioc L x)) = distance x (L j) → ioc L x ≤ j) := by
  have hsorted : (0 :: List.finRange 16 : List (Fin 16)).Pairwise (· ≤ ·) :=
    List.pairwise_cons.mpr ⟨fun i _ => Fin.zero_le i, (List.sortedLT_finRange 16).sortedLE.pairwise⟩
  exact foldl_least (fun i => distance x (L i)) hsorted j (List.mem_cons_of_mem 0 (List.mem_finRange j))

/-- Every instantiation gives a table that meets R146. -/
theorem chromaLut_ok : ChromaTable.ok chromaLut = true := by
  unfold chromaLut
  split_ifs with hraw
  · exact hraw
  · decide +kernel

theorem ChromaTable.ok_iff {L : ChromaTable} :
    L.ok = true ↔ (∀ i, isFinite (L i) = true) ∧ ∀ i j, i < j → scaled (L i) < scaled (L j) := by
  rw [ChromaTable.ok, Bool.and_eq_true, decide_eq_true_iff, decide_eq_true_iff]

/-- `IOC(L[i]) = i`, because the levels rise and so the distance 0 is reached at one index only (R146). -/
theorem ioc_level {L : ChromaTable} (hL : L.ok = true) (i : Fin 16) : ioc L (L i) = i := by
  obtain ⟨-, hrise⟩ := ChromaTable.ok_iff.mp hL
  have hnear := (ioc_nearest L (L i) i).1
  have hscaled : scaled (L i) = scaled (L (ioc L (L i))) := by
    simp only [distance] at hnear
    omega
  rcases lt_trichotomy (ioc L (L i)) i with hlt | heq | hgt
  · exact absurd (hrise _ _ hlt) hscaled.not_gt
  · exact heq
  · exact absurd (hrise _ _ hgt) hscaled.not_lt

theorem chridxAnswer_of_finite (L : ChromaTable) {x : Word} (hx : isFinite x = true) :
    chridxAnswer L x = .ok [indexWord (ioc L x)] := by
  rw [chridxAnswer, if_neg (by simp [hx])]

end Sys2Proof.Machine

section
open Sys2Proof Sys2Proof.Machine Sys2Proof.Machine.Binary32

/-- Settles O54: the index is `IOC(x)`, and the exact distances are the integers it compares. -/
theorem chridxNearestLevel : Obligations.ChridxNearestLevel := by
  intro x hx
  refine ⟨ioc chromaLut x, answers_cons_of_ok (op := .chridx) (chridxAnswer_of_finite chromaLut hx) rfl (by decide),
    fun j => ?_⟩
  rw [abs_toRat_sub_toRat, abs_toRat_sub_toRat, div_le_div_iff_of_pos_right (by positivity),
    div_left_inj' (by positivity), Nat.cast_le, Nat.cast_inj]
  exact ioc_nearest chromaLut x j

end

/-! # The block quantizer (R135 to R144): its operators are monotone, which bounds every code and value by those of the
range's ends, and their rounding errors are too small to move a code -/

namespace Sys2Proof.Machine.Binary32

/-! ## Rounding errors and `rha` -/

/-- Half a spacing is at most `2^−24` of a normal value, and `2^−150` below. -/
theorem magnitude_fl_sub_le {neg : Bool} {num den : Nat} (hd : 0 < den) (h : isFinite (fl neg num den) = true) :
    2 ^ 24 * |(magnitude (fl neg num den) * den : Int) - num| ≤ num + 2 ^ 23 * den := by
  obtain ⟨hlow, hhigh⟩ := magnitude_fl_error hd h
  have hlower := pow_le_of_ulpExp_pos (num := num) (den := den)
  generalize ulpExp num den = e at *
  have hspacing : 2 ^ 23 * (den * 2 ^ e) ≤ num + 2 ^ 23 * den := by
    rcases Nat.eq_zero_or_pos e with rfl | he
    · omega
    · have := hlower he
      omega
  rw [Nat.add_mul, Nat.mul_comm (2 ^ e)] at hlow
  rw [Nat.mul_assoc] at hlow hhigh
  zify at hlow hhigh hspacing
  rw [Int.abs_eq_natAbs]
  omega

/-- The error of one rounding, as a bound that also holds near 0. -/
theorem RoundsTo.abs_sub_le {u : Word} {q b : ℚ} (hu : RoundsTo u q) (hfin : isFinite u = true) (hb : |q| ≤ b) :
    |toRat u - q| ≤ (b + 1) / 2 ^ 24 := by
  have hden : (0 : ℚ) < (q * 2 ^ 149).den := by exact_mod_cast (q * 2 ^ 149).den_pos
  have hunits := abs_mul_units q
  have herror := magnitude_fl_sub_le (q * 2 ^ 149).den_pos (hu.finite_iff.mp hfin)
  rw [← flRat, ← Int.cast_le (R := ℚ)] at herror
  rw [hu.value, abs_toRat_sub_of_signBit (signBit_flRat q), abs_magnitude_sub,
    div_le_div_iff₀ (by positivity) (by positivity)]
  rw [eq_div_iff hden.ne'] at hunits
  simp only [Int.cast_mul, Int.cast_add, Int.cast_pow, Int.cast_natCast, Int.cast_ofNat, ← hunits] at herror ⊢
  nlinarith

theorem rha_mono {x y : Word} (h : toRat x ≤ toRat y) : rha x ≤ rha y := by
  rw [toRat_le_toRat_iff, scaled, scaled] at h
  simp only [rha]
  split_ifs at h ⊢ <;> omega

/-- A value nearer an integer than 1/2 is rounded to it. -/
theorem rha_of_abs_sub_lt {x : Word} {n : Int} (h : |toRat x - n| < 1 / 2) : rha x = n := by
  have hunits : |(scaled x : ℚ) - n * 2 ^ 149| < 2 ^ 148 := by
    have hdiff : (scaled x : ℚ) - n * 2 ^ 149 = (toRat x - n) * 2 ^ 149 := by rw [toRat]; ring
    rw [hdiff, abs_mul, abs_of_pos (by positivity : (0 : ℚ) < 2 ^ 149)]
    linarith
  have hint : |scaled x - n * 2 ^ 149| < 2 ^ 148 := by exact_mod_cast hunits
  rw [Int.abs_eq_natAbs, scaled] at hint
  simp only [rha]
  split_ifs at hint ⊢ <;> omega

/-! ## The operators of the two laws are monotone -/

/-- `⊗` by a positive factor is monotone. -/
theorem Within.mulRaw {lo hi x k : Word} (hx : Within lo hi x) (hk : 0 < toRat k)
    (hlo : isFinite (mulRaw lo k) = true) (hhi : isFinite (mulRaw hi k) = true) :
    Within (mulRaw lo k) (mulRaw hi k) (mulRaw x k) :=
  (mulRaw_roundsTo x k).within (mulRaw_roundsTo lo k) (mulRaw_roundsTo hi k) hlo hhi
    (mul_le_mul_of_nonneg_right hx.lower hk.le) (mul_le_mul_of_nonneg_right hx.upper hk.le)

theorem clamp_within {lo hi x : Word} (hlo : isFinite lo = true) (hhi : isFinite hi = true) (hx : isFinite x = true)
    (h : toRat lo ≤ toRat hi) : Within lo hi (clamp x lo hi) := by
  have hlt : ∀ {u v : Word}, lt u v = true ↔ ¬ toRat v ≤ toRat u := by
    intro u v
    rw [toRat_le_toRat_iff, not_le, lt, decide_eq_true_iff]
  unfold clamp
  split_ifs with hbelow habove
  · exact ⟨hlo, le_rfl, h⟩
  · exact ⟨hhi, h, le_rfl⟩
  · rw [hlt, not_not] at hbelow habove
    exact ⟨hx, hbelow, habove⟩

/-- `cvt` is monotone on the integers it leaves exact. -/
theorem cvt_within {m n k : Int} (hmn : m ≤ n) (hnk : n ≤ k) (hm : |m| ≤ 2 ^ 24) (hk : |k| ≤ 2 ^ 24) :
    Within (cvt m) (cvt k) (cvt n) := by
  have hn : |n| ≤ 2 ^ 24 := by rw [abs_le] at *; omega
  obtain ⟨hfin, hval⟩ := cvt_exact hn
  refine ⟨hfin, ?_, ?_⟩
  · rw [hval, (cvt_exact hm).2]; exact_mod_cast hmn
  · rw [hval, (cvt_exact hk).2]; exact_mod_cast hnk

end Sys2Proof.Machine.Binary32

namespace Sys2Proof.Machine
open Binary32

theorem toRat_al : toRat al = 511 := by decide +kernel

theorem toRat_ql : toRat ql = 15 := by decide +kernel

/-- The binary32 value of 0.3. -/
theorem toRat_qm : toRat qm = 5033165 / 2 ^ 24 := by decide +kernel

/-! ## The luma average -/

/-- The code of a luma average, without the check of `quantizeA`. -/
def lumaCode (a : Word) : Int := rha (mulRaw a al)

/-- The value of a luma code, without the check of `dequantizeA`. -/
def lumaValue (n : Nat) : Word := divRaw (cvt n) al

theorem mulRaw_al_within {a : Word} (ha : Within zero one a) : Within zero al (mulRaw a al) := by
  have hprod := ha.mulRaw (k := al) (by rw [toRat_al]; norm_num) (by decide +kernel) (by decide +kernel)
  rwa [show mulRaw zero al = zero by decide +kernel, show mulRaw one al = al by decide +kernel] at hprod

theorem quantizeA_of_within {a : Word} (ha : Within zero one a) : quantizeA a = .ok (lumaCode a) := by
  rw [quantizeA, fmul, chk_of_finite (mulRaw_al_within ha).finite, ok_bind, lumaCode]

theorem lumaCode_range {a : Word} (ha : Within zero one a) : 0 ≤ lumaCode a ∧ lumaCode a ≤ 511 :=
  ⟨rha_mono (x := zero) (mulRaw_al_within ha).lower, rha_mono (y := al) (mulRaw_al_within ha).upper⟩

theorem lumaValue_within {n : Nat} (hn : n ≤ 511) : Within zero one (lumaValue n) := by
  have hal : al = cvt (511 : Nat) := by decide +kernel
  have hunit := inUnit_divRaw_cvt hn (by norm_num) (by norm_num)
  rw [lumaValue, hal]
  exact within_zero_one_iff.mpr ⟨hunit.finite, hunit.nonneg, hunit.le_one⟩

theorem dequantizeA_of_le {qa : Word} (h : qa.toNat ≤ 511) : dequantizeA qa = .ok (lumaValue qa.toNat) :=
  chk_of_finite (lumaValue_within h).finite

/-- The code of a luma code's value is the code (R144): two roundings move it by less than 1/2. -/
theorem lumaCode_lumaValue {n : Nat} (hn : n ≤ 511) : lumaCode (lumaValue n) = n := by
  have hcvt : toRat (cvt n) = n := (cvt_exact (n := n) (by rw [Nat.abs_cast]; omega)).2
  have hn' : (n : ℚ) ≤ 511 := by exact_mod_cast hn
  have hvalue := lumaValue_within hn
  obtain ⟨-, hlow, hhigh⟩ := within_zero_one_iff.mp hvalue
  have hquot := (divRaw_roundsTo (cvt n) (y := al) (by decide +kernel)).abs_sub_le hvalue.finite (b := 1)
    (by rw [hcvt, toRat_al, abs_of_nonneg (by positivity)]; linarith)
  have hprod := (mulRaw_roundsTo (lumaValue n) al).abs_sub_le (mulRaw_al_within hvalue).finite (b := 511)
    (by rw [toRat_al, abs_of_nonneg (by positivity)]; linarith)
  rw [← lumaValue, hcvt, toRat_al, abs_le] at hquot
  rw [toRat_al, abs_le] at hprod
  refine rha_of_abs_sub_lt ?_
  rw [abs_lt]
  push_cast
  constructor <;> linarith

/-! ## The luma differences -/

/-- A quotient of the quantization law, before it is rounded to a code. -/
def diffQuotient (x : Word) : Word := divRaw (mulRaw (clamp x negQm qm) ql) qm

/-- The code of a luma difference, without the checks of `quantizeDiff`. -/
def diffCode (x : Word) : Int := rha (diffQuotient x)

/-- The value of a signed code, without the checks of `dequantizeDiff`. -/
def diffValue (n : Int) : Word := divRaw (mulRaw (cvt n) qm) ql

/-- The extreme quotients are ±14.999999 (R138). -/
theorem diffQuotient_within {x : Word} (hx : isFinite x = true) :
    isFinite (mulRaw (clamp x negQm qm) ql) = true ∧ Within 0xC16FFFFF 0x416FFFFF (diffQuotient x) := by
  have hclamp := clamp_within (lo := negQm) (hi := qm) rfl rfl hx (by decide +kernel)
  have hprod := hclamp.mulRaw (k := ql) (by rw [toRat_ql]; norm_num) (by decide +kernel) (by decide +kernel)
  exact ⟨hprod.finite, hprod.divRaw (d := qm) (by rw [toRat_qm]; norm_num) (by decide +kernel) (by decide +kernel)⟩

theorem quantizeDiff_of_finite {x : Word} (hx : isFinite x = true) : quantizeDiff x = .ok (diffCode x) := by
  obtain ⟨hprod, hquot⟩ := diffQuotient_within hx
  unfold quantizeDiff fmul fdiv
  rw [chk_of_finite hprod, ok_bind, ← diffQuotient, chk_of_finite hquot.finite, ok_bind, diffCode]

theorem diffCode_range {x : Word} (hx : isFinite x = true) : -15 ≤ diffCode x ∧ diffCode x ≤ 15 := by
  obtain ⟨-, hquot⟩ := diffQuotient_within hx
  have hlow : rha 0xC16FFFFF = -15 := by decide +kernel
  have hhigh : rha 0x416FFFFF = 15 := by decide +kernel
  exact ⟨hlow.symm.trans_le (rha_mono hquot.lower), (rha_mono hquot.upper).trans_eq hhigh⟩

/-- The values between those of two codes of which no operator overflows. -/
theorem diffValue_within {m n k : Int} (hmn : m ≤ n) (hnk : n ≤ k) (hm : |m| ≤ 2 ^ 24) (hk : |k| ≤ 2 ^ 24)
    (hlo : isFinite (mulRaw (cvt m) qm) = true ∧ isFinite (diffValue m) = true)
    (hhi : isFinite (mulRaw (cvt k) qm) = true ∧ isFinite (diffValue k) = true) :
    isFinite (mulRaw (cvt n) qm) = true ∧ Within (diffValue m) (diffValue k) (diffValue n) := by
  have hprod := (cvt_within hmn hnk hm hk).mulRaw (k := qm) (by rw [toRat_qm]; norm_num) hlo.1 hhi.1
  exact ⟨hprod.finite, hprod.divRaw (d := ql) (by rw [toRat_ql]; norm_num) hlo.2 hhi.2⟩

/-- The arithmetic of DEQUANT is finite for every code a word can hold (R140). -/
theorem diffValue_finite {n : Int} (hlow : -16 ≤ n) (hhigh : n ≤ 15) :
    isFinite (mulRaw (cvt n) qm) = true ∧ isFinite (diffValue n) = true := by
  obtain ⟨hprod, hquot⟩ := diffValue_within hlow hhigh (by norm_num) (by norm_num) (by decide +kernel) (by decide +kernel)
  exact ⟨hprod, hquot.finite⟩

theorem dequantizeDiff_of_range {n : Int} (hlow : -16 ≤ n) (hhigh : n ≤ 15) : dequantizeDiff n = .ok (diffValue n) := by
  obtain ⟨hprod, hquot⟩ := diffValue_finite hlow hhigh
  unfold dequantizeDiff fmul
  rw [chk_of_finite hprod, ok_bind]
  exact chk_of_finite hquot

/-- The codes that QUANT gives have values inside the clamp: those of ±15 are its ends (R140). -/
theorem clamp_diffValue {n : Int} (hlow : -15 ≤ n) (hhigh : n ≤ 15) : clamp (diffValue n) negQm qm = diffValue n := by
  obtain ⟨-, hquot⟩ := diffValue_within hlow hhigh (by norm_num) (by norm_num) (by decide +kernel) (by decide +kernel)
  rw [show diffValue (-15) = negQm by decide +kernel, show diffValue 15 = qm by decide +kernel] at hquot
  exact clamp_of_within hquot

/-- DEQUANT's two roundings move a signed code's value by little. -/
theorem abs_toRat_diffValue_sub_le {n : Int} (hlow : -16 ≤ n) (hhigh : n ≤ 15) :
    |toRat (diffValue n) - n * toRat qm / 15| ≤ 3 / 2 ^ 24 := by
  obtain ⟨hprod, hquot⟩ := diffValue_finite hlow hhigh
  have hcvt : toRat (cvt n) = n := (cvt_exact (by rw [abs_le]; omega)).2
  have hn : -16 ≤ (n : ℚ) ∧ (n : ℚ) ≤ 15 := ⟨by exact_mod_cast hlow, by exact_mod_cast hhigh⟩
  have herrProd := (mulRaw_roundsTo (cvt n) qm).abs_sub_le hprod (b := 5)
    (by rw [hcvt, toRat_qm, abs_le]; constructor <;> linarith)
  rw [hcvt, toRat_qm, abs_le] at herrProd
  have herrQuot := (divRaw_roundsTo (mulRaw (cvt n) qm) (y := ql) (by decide +kernel)).abs_sub_le hquot (b := 1)
    (by rw [toRat_ql, abs_le]; constructor <;> linarith)
  rw [← diffValue, toRat_ql, abs_le] at herrQuot
  rw [toRat_qm, abs_le]
  constructor <;> linarith

/-- The code of a signed code's value is the code (R144): with QUANT's two roundings it is moved by less than 1/2. The value
of −16 lies outside the clamp. -/
theorem diffCode_diffValue {n : Int} (hlow : -16 ≤ n) (hhigh : n ≤ 15) : diffCode (diffValue n) = max (-15) n := by
  rcases hlow.eq_or_lt with rfl | hlow'
  · decide +kernel
  obtain ⟨-, hvalue⟩ := diffValue_finite hlow hhigh
  have herr := abs_toRat_diffValue_sub_le hlow hhigh
  have hn : -15 ≤ (n : ℚ) ∧ (n : ℚ) ≤ 15 := ⟨by exact_mod_cast hlow', by exact_mod_cast hhigh⟩
  obtain ⟨hprod, hquot⟩ := diffQuotient_within hvalue
  rw [clamp_diffValue hlow' hhigh] at hprod
  rw [diffQuotient, clamp_diffValue hlow' hhigh] at hquot
  rw [toRat_qm, abs_le] at herr
  have herrProd := (mulRaw_roundsTo (diffValue n) ql).abs_sub_le hprod (b := 5)
    (by rw [toRat_ql, abs_le]; constructor <;> linarith)
  rw [toRat_ql, abs_le] at herrProd
  have herrQuot := (divRaw_roundsTo (mulRaw (diffValue n) ql) (y := qm) (by decide +kernel)).abs_sub_le hquot.finite
    (b := 16) (by rw [toRat_qm, abs_le]; constructor <;> linarith)
  rw [toRat_qm, abs_le] at herrQuot
  rw [max_eq_right hlow', diffCode, diffQuotient, clamp_diffValue hlow' hhigh]
  refine rha_of_abs_sub_lt ?_
  rw [abs_lt]
  constructor <;> linarith

end Sys2Proof.Machine

namespace Sys2Proof.Machine
open Binary32

/-! ## The rule of QUANT -/

/-- The blocks QUANT accepts (R137). -/
structure Quantizable (t : TransformBlock) : Prop where
  finite : allFinite t.words = true
  luma : Within zero one t.a

/-- The codes of a block (R137). -/
def quantCodes (L : ChromaTable) (t : TransformBlock) : QuantBlock :=
  ⟨u32 (lumaCode t.a), u32 (diffCode t.b), u32 (diffCode t.c), u32 (diffCode t.d),
    indexWord (ioc L t.avgPb), indexWord (ioc L t.avgPr)⟩

theorem allFinite_words_iff {t : TransformBlock} :
    allFinite t.words = true ↔
      isFinite t.a = true ∧ isFinite t.b = true ∧ isFinite t.c = true ∧ isFinite t.d = true ∧
      isFinite t.avgPb = true ∧ isFinite t.avgPr = true := by
  simp [allFinite, TransformBlock.words]

/-- The LUMA_RANGE check of a finite block. -/
theorem lumaCheck_iff {a : Word} (ha : isFinite a = true) : (lt a zero || lt one a) = false ↔ Within zero one a := by
  simp only [lt, Bool.or_eq_false_iff, decide_eq_false_iff_not, not_lt, ← toRat_le_toRat_iff]
  exact ⟨fun ⟨hlo, hhi⟩ => ⟨ha, hlo, hhi⟩, fun ⟨_, hlo, hhi⟩ => ⟨hlo, hhi⟩⟩

/-- QUANT answers the codes of the blocks it accepts, and no other block. -/
theorem quantAnswer_eq_ok_iff {L : ChromaTable} {t : TransformBlock} {res : List Word} :
    quantAnswer L t = .ok res ↔ Quantizable t ∧ res = (quantCodes L t).words := by
  unfold quantAnswer
  split_ifs with hfin hluma
  · exact iff_of_false nofun fun ⟨ht, _⟩ => by simp [ht.finite] at hfin
  · refine iff_of_false nofun fun ⟨ht, _⟩ => ?_
    rw [(lumaCheck_iff ht.luma.finite).mpr ht.luma] at hluma
    cases hluma
  · rw [Bool.not_eq_false] at hfin
    rw [Bool.not_eq_true] at hluma
    obtain ⟨ha, hb, hc, hd, -, -⟩ := allFinite_words_iff.mp hfin
    have hwithin := (lumaCheck_iff ha).mp hluma
    rw [quantizeA_of_within hwithin, quantizeDiff_of_finite hb, quantizeDiff_of_finite hc, quantizeDiff_of_finite hd]
    simp only [ok_bind, Except.ok.injEq, QuantBlock.words, quantCodes, Quantizable.mk hfin hwithin, true_and, eq_comm]

/-! ## The rule of DEQUANT -/

theorem forall_mem_three {p : Word → Prop} {b c d : Word} : (∀ x ∈ [b, c, d], p x) ↔ p b ∧ p c ∧ p d := by
  simp

/-- The codes a code word can hold, which are those DEQUANT accepts (R141). -/
structure LegalCodes (q : QuantBlock) : Prop where
  qa : q.qa.toNat ≤ 511
  diffs : ∀ x ∈ [q.qb, q.qc, q.qd], -16 ≤ x.toInt ∧ x.toInt ≤ 15
  qpb : q.qpb.toNat ≤ 15
  qpr : q.qpr.toNat ≤ 15

/-- The values of a block's codes (R140). -/
def codeValues (L : ChromaTable) (q : QuantBlock) : TransformBlock :=
  ⟨lumaValue q.qa.toNat, diffValue q.qb.toInt, diffValue q.qc.toInt, diffValue q.qd.toInt,
    L (indexOf q.qpb), L (indexOf q.qpr)⟩

theorem signedCodeOk_iff {n : Int} : signedCodeOk n = true ↔ -16 ≤ n ∧ n ≤ 15 := decide_eq_true_iff

theorem dequantAnswer_of_legal (L : ChromaTable) {q : QuantBlock} (h : LegalCodes q) :
    dequantAnswer L q = .ok (codeValues L q).words := by
  obtain ⟨ha, hdiffs, hpb, hpr⟩ := h
  obtain ⟨hb, hc, hd⟩ := forall_mem_three.mp hdiffs
  have hcheck : ∀ {x : Word}, -16 ≤ x.toInt ∧ x.toInt ≤ 15 → ¬ signedCodeOk (s32 x) = false :=
    fun hx => by rw [Bool.not_eq_false]; exact signedCodeOk_iff.mpr hx
  have hvalue : ∀ {x : Word}, -16 ≤ x.toInt ∧ x.toInt ≤ 15 → dequantizeDiff (s32 x) = .ok (diffValue x.toInt) :=
    fun hx => dequantizeDiff_of_range hx.1 hx.2
  rw [dequantAnswer, if_neg ha.not_gt, if_neg (hcheck hb), if_neg (hcheck hc), if_neg (hcheck hd), if_neg hpb.not_gt,
    if_neg hpr.not_gt, dequantizeA_of_le ha, hvalue hb, hvalue hc, hvalue hd]
  rfl

/-- The six checks fail exactly where the codes are not legal. -/
theorem dequantAnswer_of_not_legal (L : ChromaTable) {q : QuantBlock} (h : ¬ LegalCodes q) :
    dequantAnswer L q = raise .codeRange := by
  unfold dequantAnswer
  split_ifs with ha hb hc hd hpb hpr
  case neg =>
    rw [Bool.not_eq_false, signedCodeOk_iff] at hb hc hd
    exact absurd ⟨Nat.le_of_not_gt ha, forall_mem_three.mpr ⟨hb, hc, hd⟩, Nat.le_of_not_gt hpb, Nat.le_of_not_gt hpr⟩ h
  all_goals rfl

theorem answers_dequant_of_legal {q : QuantBlock} (h : LegalCodes q) :
    Answers (.dequant q) (0x00004100 :: (codeValues chromaLut q).words) :=
  answers_cons_of_ok (op := .dequant) (dequantAnswer_of_legal chromaLut h) rfl (by decide)

theorem QuantBlock.eq_of_words_eq {q r : QuantBlock} (h : q.words = r.words) : q = r := by
  cases q
  cases r
  simpa [QuantBlock.words] using h

theorem answers_quant_iff {t : TransformBlock} {q : QuantBlock} :
    Answers (.quant t) (0x00004000 :: q.words) ↔ Quantizable t ∧ q = quantCodes chromaLut t := by
  rw [answers_cons_iff_ok (op := .quant) rfl (by decide)]
  exact quantAnswer_eq_ok_iff.trans (and_congr_right fun _ => ⟨QuantBlock.eq_of_words_eq, fun h => h ▸ rfl⟩)

/-! ## The codes as words -/

theorem toNat_u32 {n : Int} (hlow : 0 ≤ n) (hhigh : n < 2 ^ 32) : ((u32 n).toNat : Int) = n := by
  rw [u32, BitVec.toNat_ofInt]
  omega

theorem toInt_u32 {n : Int} (hlow : -2 ^ 31 ≤ n) (hhigh : n < 2 ^ 31) : (u32 n).toInt = n := by
  rw [u32, BitVec.toInt_ofInt]
  exact Int.bmod_eq_of_le (by omega) (by omega)

@[simp] theorem toNat_indexWord (i : Fin 16) : (indexWord i).toNat = i.val := by
  rw [indexWord, BitVec.toNat_ofNat]
  omega

/-- An index is the word it is written as. -/
theorem indexWord_indexOf {w : Word} (h : w.toNat ≤ 15) : indexWord (indexOf w) = w := by
  refine BitVec.eq_of_toNat_eq ?_
  rw [toNat_indexWord, indexOf, Fin.val_ofNat]
  omega

/-- The ranges of R138, the signed codes without −16. -/
theorem quantCodes_range (L : ChromaTable) {t : TransformBlock} (h : Quantizable t) :
    (quantCodes L t).qa.toNat ≤ 511 ∧
    (∀ x ∈ [(quantCodes L t).qb, (quantCodes L t).qc, (quantCodes L t).qd], -15 ≤ x.toInt ∧ x.toInt ≤ 15) ∧
    (quantCodes L t).qpb.toNat ≤ 15 ∧ (quantCodes L t).qpr.toNat ≤ 15 := by
  obtain ⟨ha, hb, hc, hd, -, -⟩ := allFinite_words_iff.mp h.finite
  obtain ⟨hnonneg, hle⟩ := lumaCode_range h.luma
  have hdiff : ∀ {x : Word}, isFinite x = true → -15 ≤ (u32 (diffCode x)).toInt ∧ (u32 (diffCode x)).toInt ≤ 15 := by
    intro x hx
    have hrange := diffCode_range hx
    rwa [toInt_u32 (by omega) (by omega)]
  refine ⟨?_, forall_mem_three.mpr ⟨hdiff hb, hdiff hc, hdiff hd⟩, ?_, ?_⟩
  · exact_mod_cast (toNat_u32 hnonneg (by omega)).trans_le hle
  · exact (toNat_indexWord _).trans_le (Fin.is_le _)
  · exact (toNat_indexWord _).trans_le (Fin.is_le _)

theorem legalCodes_quantCodes (L : ChromaTable) {t : TransformBlock} (h : Quantizable t) : LegalCodes (quantCodes L t) := by
  obtain ⟨ha, hdiffs, hpb, hpr⟩ := quantCodes_range L h
  exact ⟨ha, fun x hx => ⟨(hdiffs x hx).1.trans' (by norm_num), (hdiffs x hx).2⟩, hpb, hpr⟩

/-- Legal codes fit their fields (R160, R161). -/
theorem packAnswer_of_legal {q : QuantBlock} (h : LegalCodes q) : ∃ w, packAnswer q = .ok [w] := by
  obtain ⟨ha, hdiffs, hpb, hpr⟩ := h
  obtain ⟨hb, hc, hd⟩ := forall_mem_three.mp hdiffs
  have hunsigned : ∀ {x : Word} {w : Nat} (f : Fin 6) (v : DWord) (l : Nat), x.toNat ≤ 2 ^ w - 1 →
      newUnsigned f v w l x.toNat = .ok (setField v w l x.toNat) :=
    fun _ _ _ hx => newUnsigned_ok_iff.mpr ⟨decide_eq_true hx, rfl⟩
  have hsigned : ∀ {x : Word} (f : Fin 6) (v : DWord) (l : Nat), -16 ≤ x.toInt ∧ x.toInt ≤ 15 →
      newSigned f v Config.widthBCD l (s32 x) = .ok (setField v 5 l (x.toInt % 2 ^ 5).toNat) :=
    fun _ _ _ hx => newSigned_ok_iff.mpr ⟨fitsSigned_iff.mpr (by simp only [Config.widthBCD, s32]; omega), rfl⟩
  rw [packAnswer, hunsigned 0 _ _ ha, ok_bind, hsigned 1 _ _ hb, ok_bind, hsigned 2 _ _ hc, ok_bind, hsigned 3 _ _ hd,
    ok_bind, hunsigned 4 _ _ hpb, ok_bind, hunsigned 5 _ _ hpr, ok_bind]
  exact ⟨_, rfl⟩

/-! ## UNPACK gives legal codes (R141) -/

theorem toInt_u32_getSigned (v : DWord) {w : Nat} (l : Nat) (hw : w ≤ 32) :
    (u32 (getSigned v w l)).toInt = getSigned v w l := by
  rw [u32, getSigned_eq_toInt_extractLsb']
  exact BitVec.toInt_signExtend_of_le hw

theorem legalCodes_of_unpack {word : Word} {q : QuantBlock} (h : unpackAnswer word = .ok q.words) : LegalCodes q := by
  have hunsigned : ∀ {w : Nat} (l : Nat), w ≤ 32 → (u32 (getUnsigned (zext64 word) w l)).toNat < 2 ^ w := by
    intro w l hw
    rw [u32_getUnsigned_zext64 word hw, BitVec.toNat_setWidth_of_le hw]
    exact BitVec.isLt _
  have hsigned : ∀ l : Nat, -16 ≤ (u32 (getSigned (zext64 word) 5 l)).toInt ∧
      (u32 (getSigned (zext64 word) 5 l)).toInt ≤ 15 := by
    intro l
    rw [toInt_u32_getSigned _ l (by norm_num), getSigned_eq_toInt_extractLsb']
    exact ⟨BitVec.le_toInt _, Int.le_of_lt_add_one (BitVec.toInt_lt (w := 5))⟩
  simp only [unpackAnswer, Except.ok.injEq, QuantBlock.words, List.cons.injEq, and_true] at h
  obtain ⟨ha, hb, hc, hd, hpb, hpr⟩ := h
  exact ⟨ha ▸ Nat.le_of_lt_succ (hunsigned lsbA (w := 9) (by norm_num)),
    forall_mem_three.mpr ⟨hb ▸ hsigned lsbB, hc ▸ hsigned lsbC, hd ▸ hsigned lsbD⟩,
    hpb ▸ Nat.le_of_lt_succ (hunsigned lsbPb (w := 4) (by norm_num)),
    hpr ▸ Nat.le_of_lt_succ (hunsigned lsbPr (w := 4) (by norm_num))⟩

/-! ## QUANT after DEQUANT (R144) -/

theorem quantizable_codeValues {L : ChromaTable} (hL : L.ok = true) {q : QuantBlock} (h : LegalCodes q) :
    Quantizable (codeValues L q) := by
  have hluma := lumaValue_within h.qa
  have hdiff : ∀ x ∈ [q.qb, q.qc, q.qd], isFinite (diffValue x.toInt) = true :=
    fun x hx => (diffValue_finite (h.diffs x hx).1 (h.diffs x hx).2).2
  have hchroma := (ChromaTable.ok_iff.mp hL).1
  exact ⟨allFinite_words_iff.mpr ⟨hluma.finite, hdiff q.qb (by simp), hdiff q.qc (by simp), hdiff q.qd (by simp),
    hchroma _, hchroma _⟩, hluma⟩

/-- The codes of the values are the codes, but −15 for −16. -/
theorem quantCodes_codeValues {L : ChromaTable} (hL : L.ok = true) {q : QuantBlock} (h : LegalCodes q) :
    quantCodes L (codeValues L q) =
      ⟨q.qa, u32 (max (-15) q.qb.toInt), u32 (max (-15) q.qc.toInt), u32 (max (-15) q.qd.toInt), q.qpb, q.qpr⟩ := by
  have hdiff : ∀ x ∈ [q.qb, q.qc, q.qd], diffCode (diffValue x.toInt) = max (-15) x.toInt :=
    fun x hx => diffCode_diffValue (h.diffs x hx).1 (h.diffs x hx).2
  have hluma : u32 (lumaCode (lumaValue q.qa.toNat)) = q.qa := by
    rw [lumaCode_lumaValue h.qa, u32, BitVec.ofInt_natCast, BitVec.ofNat_toNat, BitVec.setWidth_eq]
  rw [quantCodes, codeValues, hluma, hdiff q.qb (by simp), hdiff q.qc (by simp), hdiff q.qd (by simp), ioc_level hL,
    ioc_level hL, indexWord_indexOf h.qpb, indexWord_indexOf h.qpr]

end Sys2Proof.Machine

section
open Sys2Proof Sys2Proof.Machine Sys2Proof.Machine.Binary32

/-- Settles O50: the codes of a block are in their ranges because both operators are monotone, and legal codes fit. -/
theorem quantRanges : Obligations.QuantRanges := by
  refine ⟨fun t q h => ?_, by decide +kernel⟩
  obtain ⟨ht, rfl⟩ := answers_quant_iff.mp h
  obtain ⟨ha, hdiffs, hpb, hpr⟩ := quantCodes_range chromaLut ht
  obtain ⟨w, hpack⟩ := packAnswer_of_legal (legalCodes_quantCodes chromaLut ht)
  exact ⟨ha, hdiffs, hpb, hpr, w, answers_cons_of_ok (op := .pack) hpack rfl (by decide)⟩

/-- Settles O52: the checks pass for legal codes alone, whose arithmetic is finite, and UNPACK gives legal codes. -/
theorem dequantResult : Obligations.DequantResult := by
  refine ⟨fun q => ⟨fun ⟨ha, hdiffs, hpb, hpr⟩ => ?_, fun h => ?_⟩, fun word q h => ?_⟩
  · refine ⟨indexOf q.qpb, indexOf q.qpr, ?_, ?_, answers_dequant_of_legal ⟨ha, hdiffs, hpb, hpr⟩⟩
    · rw [← toNat_indexWord, indexWord_indexOf hpb]
    · rw [← toNat_indexWord, indexWord_indexOf hpr]
  · exact faultsWith_of_fault (i := .dequant q) (c := .codeRange)
      (dequantAnswer_of_not_legal chromaLut fun ⟨ha, hdiffs, hpb, hpr⟩ => h ⟨ha, hdiffs, hpb, hpr⟩)
  · rw [answers_cons_iff_ok (op := .unpack) rfl (by decide)] at h
    exact ⟨_, answers_dequant_of_legal (legalCodes_of_unpack h)⟩

/-- Settles O53: the codes of the values of legal codes, and QUANT's codes, which are legal and never −16. -/
theorem quantIdempotent : Obligations.QuantIdempotent := by
  refine ⟨fun t q h => ?_, fun q ha hdiffs hpb hpr => ?_⟩
  · obtain ⟨ht, rfl⟩ := answers_quant_iff.mp h
    have hlegal := legalCodes_quantCodes chromaLut ht
    refine ⟨_, answers_dequant_of_legal hlegal, answers_quant_iff.mpr ⟨quantizable_codeValues chromaLut_ok hlegal, ?_⟩⟩
    have hback : ∀ x : Word, -15 ≤ x.toInt → u32 (max (-15) x.toInt) = x := fun x hx => by
      rw [max_eq_right hx, u32, BitVec.ofInt_toInt]
    obtain ⟨-, hrange, -⟩ := quantCodes_range chromaLut ht
    rw [quantCodes_codeValues chromaLut_ok hlegal, hback _ (hrange _ (by simp)).1, hback _ (hrange _ (by simp)).1,
      hback _ (hrange _ (by simp)).1]
  · have hlegal : LegalCodes q := ⟨ha, hdiffs, hpb, hpr⟩
    have hback : ∀ x ∈ [q.qb, q.qc, q.qd], (u32 (max (-15) x.toInt)).toInt = max (-15) x.toInt := fun x hx => by
      have := hdiffs x hx
      exact toInt_u32 (by omega) (by omega)
    refine ⟨_, _, answers_dequant_of_legal hlegal,
      answers_quant_iff.mpr ⟨quantizable_codeValues chromaLut_ok hlegal, rfl⟩, ?_⟩
    rw [quantCodes_codeValues chromaLut_ok hlegal]
    exact ⟨rfl, rfl, rfl, hback _ (by simp), hback _ (by simp), hback _ (by simp)⟩

end

/-! # PACK and UNPACK: the code word layout and the round trip (R160 to R163) -/

namespace Sys2Proof.Machine

/-! ## The rule of PACK: the first field that does not fit, or the code word -/

/-- `a`, or the OVERFLOW of the first field that does not fit, the head of `fits` being field `i`. -/
def unlessMisfit (a : Answer) : Nat → List Bool → Answer
  | _, [] => a
  | i, fit :: rest => if fit then unlessMisfit a (i + 1) rest else overflow (Fin.ofNat 6 i)

theorem unlessMisfit_of_all (a : Answer) {fits : List Bool} (h : fits.all id = true) (i : Nat) :
    unlessMisfit a i fits = a := by
  induction fits generalizing i with
  | nil => rfl
  | cons fit rest ih =>
    obtain ⟨hfit, hrest⟩ : fit = true ∧ rest.all id = true := by simpa using h
    rw [unlessMisfit, if_pos hfit, ih hrest]

theorem unlessMisfit_of_first (a : Answer) {fits : List Bool} {k : Nat} (hk : k < fits.length)
    (hbefore : ∀ j < k, fits.getD j false = true) (hmisfit : fits.getD k false = false) (i : Nat) :
    unlessMisfit a i fits = overflow (Fin.ofNat 6 (i + k)) := by
  induction fits generalizing k i with
  | nil => exact absurd hk (Nat.not_lt_zero k)
  | cons fit rest ih =>
    cases k with
    | zero =>
      obtain rfl : fit = false := by simpa using hmisfit
      simp [unlessMisfit]
    | succ k =>
      have hfit : fit = true := by simpa using hbefore 0 k.succ_pos
      rw [unlessMisfit, if_pos hfit,
        ih (Nat.lt_of_succ_lt_succ hk) (fun j hj => by simpa using hbefore (j + 1) (Nat.succ_lt_succ hj))
          (by simpa using hmisfit), Nat.add_right_comm, Nat.add_assoc]

theorem newUnsigned_bind (f : Fin 6) (v : DWord) (w l n : Nat) (k : DWord → Answer) :
    (newUnsigned f v w l n >>= k) = if fitsUnsigned n w then k (setField v w l n) else overflow f := by
  rw [newUnsigned]
  split_ifs <;> rfl

theorem newSigned_bind (f : Fin 6) (v : DWord) (w l : Nat) (n : Int) (k : DWord → Answer) :
    (newSigned f v w l n >>= k) =
      if fitsSigned n w then k (setField v w l (n % 2 ^ w).toNat) else overflow f := by
  rw [newSigned]
  split_ifs <;> rfl

/-- Which of a block's codes fit their fields, in field order (R160). -/
def fieldFits (q : QuantBlock) : List Bool :=
  [q.qa.toNat ≤ 511, -16 ≤ q.qb.toInt ∧ q.qb.toInt ≤ 15, -16 ≤ q.qc.toInt ∧ q.qc.toInt ≤ 15,
    -16 ≤ q.qd.toInt ∧ q.qd.toInt ≤ 15, q.qpb.toNat ≤ 15, q.qpr.toNat ≤ 15]

theorem fieldFits_all_iff {q : QuantBlock} : (fieldFits q).all id = true ↔ LegalCodes q := by
  simp only [fieldFits, List.all_cons, List.all_nil, id_eq, Bool.and_true, Bool.and_eq_true, decide_eq_true_eq]
  constructor
  · rintro ⟨ha, hb, hc, hd, hpb, hpr⟩
    exact ⟨ha, forall_mem_three.mpr ⟨hb, hc, hd⟩, hpb, hpr⟩
  · rintro ⟨ha, hdiffs, hpb, hpr⟩
    obtain ⟨hb, hc, hd⟩ := forall_mem_three.mp hdiffs
    exact ⟨ha, hb, hc, hd, hpb, hpr⟩

/-- The 64-bit word after the six updates of R161. -/
def fieldsWord (q : QuantBlock) : DWord :=
  let v := setField 0 9 23 q.qa.toNat
  let v := setField v 5 18 (q.qb.toInt % 2 ^ 5).toNat
  let v := setField v 5 13 (q.qc.toInt % 2 ^ 5).toNat
  let v := setField v 5 8 (q.qd.toInt % 2 ^ 5).toNat
  let v := setField v 4 4 q.qpb.toNat
  setField v 4 0 q.qpr.toNat

theorem packAnswer_eq_unlessMisfit (q : QuantBlock) :
    packAnswer q = unlessMisfit (.ok [loWord (fieldsWord q)]) 0 (fieldFits q) := by
  have hsigned : ∀ x : Word, fitsSigned (s32 x) Config.widthBCD = decide (-16 ≤ x.toInt ∧ x.toInt ≤ 15) := by
    intro x
    refine decide_eq_decide.mpr ?_
    simp only [s32, Config.widthBCD]
    omega
  rw [packAnswer]
  simp only [newUnsigned_bind, newSigned_bind, hsigned]
  rfl

/-! ## The code word as a number -/

/-- The six codes in their places (R160), a signed code as its low five bits. -/
def codeWord (q : QuantBlock) : Word :=
  BitVec.ofInt 32 (q.qa.toNat * 2 ^ 23 + q.qb.toInt % 32 * 2 ^ 18 + q.qc.toInt % 32 * 2 ^ 13 +
    q.qd.toInt % 32 * 2 ^ 8 + q.qpb.toNat * 2 ^ 4 + q.qpr.toNat)

theorem toNat_codeWord {q : QuantBlock} (h : LegalCodes q) :
    ((codeWord q).toNat : Int) = q.qa.toNat * 2 ^ 23 + q.qb.toInt % 32 * 2 ^ 18 + q.qc.toInt % 32 * 2 ^ 13 +
      q.qd.toInt % 32 * 2 ^ 8 + q.qpb.toNat * 2 ^ 4 + q.qpr.toNat := by
  obtain ⟨ha, -, hpb, hpr⟩ := h
  rw [codeWord, BitVec.toNat_ofInt]
  omega

/-- A field written below everything that is in the word is added in its place. -/
theorem toNat_setField_below {v : DWord} {w l bits : Nat} (h : l + w ≤ 64) (hb : bits < 2 ^ w)
    (hv : v.toNat / 2 ^ l % 2 ^ w = 0) : (setField v w l bits).toNat = v.toNat + bits * 2 ^ l := by
  have hadd := toNat_setField_add v h hb
  rwa [getUnsigned, hv, Nat.zero_mul, Nat.add_zero] at hadd

/-- The updates of R161 go downward through the word, each into a field that is still 0. -/
theorem loWord_fieldsWord {q : QuantBlock} (h : LegalCodes q) : loWord (fieldsWord q) = codeWord q := by
  have hcode := toNat_codeWord h
  obtain ⟨ha, -, hpb, hpr⟩ := h
  have hbits : ∀ x : Word, (x.toInt % 2 ^ 5).toNat < 2 ^ 5 := fun x => toNat_emod_two_pow_lt x.toInt 5
  have hb := hbits q.qb
  have hc := hbits q.qc
  have hd := hbits q.qd
  have hzero : (0 : DWord).toNat = 0 := rfl
  have hword : (fieldsWord q).toNat = (codeWord q).toNat := by
    unfold fieldsWord
    extract_lets va vb vc vd vpb
    have hna : va.toNat = _ := toNat_setField_below (by norm_num) (by omega) (by omega)
    have hnb : vb.toNat = _ := toNat_setField_below (by norm_num) hb (by omega)
    have hnc : vc.toNat = _ := toNat_setField_below (by norm_num) hc (by omega)
    have hnd : vd.toNat = _ := toNat_setField_below (by norm_num) hd (by omega)
    have hnpb : vpb.toNat = _ := toNat_setField_below (by norm_num) (by omega) (by omega)
    rw [toNat_setField_below (by norm_num) (by omega) (by omega)]
    omega
  refine BitVec.eq_of_toNat_eq ?_
  rw [loWord, BitVec.extractLsb'_toNat, Nat.shiftRight_zero, hword]
  exact Nat.mod_eq_of_lt (BitVec.isLt _)

/-- PACK of legal codes is their code word (R161). -/
theorem packAnswer_eq_codeWord {q : QuantBlock} (h : LegalCodes q) : packAnswer q = .ok [codeWord q] := by
  rw [packAnswer_eq_unlessMisfit, unlessMisfit_of_all _ (fieldFits_all_iff.mpr h), loWord_fieldsWord h]

theorem answers_pack_codeWord {q : QuantBlock} (h : LegalCodes q) : Answers (.pack q) [0x00005000, codeWord q] :=
  answers_cons_of_ok (op := .pack) (packAnswer_eq_codeWord h) rfl (by decide)

/-- PACK overflows in the first field that does not fit (R161). -/
theorem packAnswer_of_misfit {q : QuantBlock} (f : Fin 6) (hbefore : ∀ k < f.val, (fieldFits q).getD k false = true)
    (hmisfit : (fieldFits q).getD f.val false = false) : packAnswer q = .error (.overflow f) := by
  rw [packAnswer_eq_unlessMisfit, unlessMisfit_of_first _ f.isLt hbefore hmisfit, Nat.zero_add, Fin.ofNat_val_eq_self]
  rfl

theorem overflowResponse_pack (f : Fin 6) :
    overflowResponse .pack f = [BitVec.ofNat 32 (f.val * 65536 + 0x00005011), 0] := by
  rw [overflowResponse_eq, Nat.add_assoc]
  rfl

/-! ## The rule of UNPACK -/

/-- The result word of a signed field of a 32-bit word is that field, sign-extended. -/
theorem u32_getSigned_zext64 (word : Word) (w l : Nat) :
    u32 (getSigned (zext64 word) w l) = (word.extractLsb' l w).signExtend 32 := by
  have hfield : (zext64 word).extractLsb' l w = word.extractLsb' l w := by
    refine BitVec.eq_of_toNat_eq ?_
    rw [BitVec.extractLsb'_toNat, BitVec.extractLsb'_toNat, zext64, BitVec.toNat_setWidth_of_le (by norm_num)]
  rw [u32, getSigned_eq_toInt_extractLsb', hfield, BitVec.signExtend]

/-- The block in the fields of a code word (R160), the signed ones sign-extended. -/
def fieldsOf (word : Word) : QuantBlock :=
  ⟨(word.extractLsb' 23 9).setWidth 32, (word.extractLsb' 18 5).signExtend 32, (word.extractLsb' 13 5).signExtend 32,
    (word.extractLsb' 8 5).signExtend 32, (word.extractLsb' 4 4).setWidth 32, (word.extractLsb' 0 4).setWidth 32⟩

theorem unpackAnswer_eq_fieldsOf (word : Word) : unpackAnswer word = .ok (fieldsOf word).words := by
  have hrule : unpackAnswer word = .ok
      [u32 (getUnsigned (zext64 word) 9 23), u32 (getSigned (zext64 word) 5 18), u32 (getSigned (zext64 word) 5 13),
        u32 (getSigned (zext64 word) 5 8), u32 (getUnsigned (zext64 word) 4 4),
        u32 (getUnsigned (zext64 word) 4 0)] := rfl
  rw [hrule, u32_getUnsigned_zext64 word (by norm_num), u32_getSigned_zext64, u32_getSigned_zext64,
    u32_getSigned_zext64, u32_getUnsigned_zext64 word (by norm_num), u32_getUnsigned_zext64 word (by norm_num)]
  rfl

theorem answers_unpack_fieldsOf (word : Word) : Answers (.unpack word) (0x00005100 :: (fieldsOf word).words) :=
  answers_cons_of_ok (op := .unpack) (unpackAnswer_eq_fieldsOf word) rfl (by decide)

theorem legalCodes_fieldsOf (word : Word) : LegalCodes (fieldsOf word) :=
  legalCodes_of_unpack (unpackAnswer_eq_fieldsOf word)

/-! ## The round trip (R163) -/

theorem toNat_unsignedField (word : Word) {w : Nat} (l : Nat) (h : w ≤ 32) :
    ((word.extractLsb' l w).setWidth 32).toNat = word.toNat / 2 ^ l % 2 ^ w := by
  rw [BitVec.toNat_setWidth_of_le h, BitVec.extractLsb'_toNat, Nat.shiftRight_eq_div_pow]

/-- A sign-extended field keeps the field's bits. -/
theorem toInt_signedField_emod (word : Word) (l : Nat) :
    ((word.extractLsb' l 5).signExtend 32).toInt % 32 = (word.toNat / 2 ^ l % 32 : Nat) := by
  have hbits := toNat_emod_two_pow (word.extractLsb' l 5).toInt 5
  rw [BitVec.ofInt_toInt, BitVec.extractLsb'_toNat, Nat.shiftRight_eq_div_pow] at hbits
  rw [BitVec.toInt_signExtend_of_le (by norm_num)]
  omega

/-- The fields partition the word, so that their numbers in place add up to it. -/
theorem codeWord_fieldsOf (word : Word) : codeWord (fieldsOf word) = word := by
  have hcode := toNat_codeWord (legalCodes_fieldsOf word)
  simp only [fieldsOf, toInt_signedField_emod, toNat_unsignedField word _ (show 9 ≤ 32 by norm_num),
    toNat_unsignedField word _ (show 4 ≤ 32 by norm_num)] at hcode
  refine BitVec.eq_of_toNat_eq ?_
  rw [fieldsOf]
  omega

/-- A legal signed code is determined by its low five bits. -/
theorem signedField_eq_of_emod {word x : Word} {l : Nat} (hx : -16 ≤ x.toInt ∧ x.toInt ≤ 15)
    (h : ((word.toNat / 2 ^ l % 32 : Nat) : Int) = x.toInt % 32) : (word.extractLsb' l 5).signExtend 32 = x := by
  have hlow := BitVec.le_toInt (word.extractLsb' l 5)
  have hhigh := BitVec.toInt_lt (x := word.extractLsb' l 5)
  have hemod := (toInt_signedField_emod word l).trans h
  refine BitVec.eq_of_toInt_eq ?_
  rw [BitVec.toInt_signExtend_of_le (by norm_num)] at hemod ⊢
  omega

theorem fieldsOf_codeWord {q : QuantBlock} (h : LegalCodes q) : fieldsOf (codeWord q) = q := by
  have hcode := toNat_codeWord h
  obtain ⟨ha, hdiffs, hpb, hpr⟩ := h
  obtain ⟨hb, hc, hd⟩ := forall_mem_three.mp hdiffs
  have hunsigned : ∀ {w l : Nat} {x : Word}, w ≤ 32 → (codeWord q).toNat / 2 ^ l % 2 ^ w = x.toNat →
      ((codeWord q).extractLsb' l w).setWidth 32 = x :=
    fun hw hx => BitVec.eq_of_toNat_eq ((toNat_unsignedField _ _ hw).trans hx)
  rw [fieldsOf, hunsigned (x := q.qa) (by norm_num) (by omega), signedField_eq_of_emod hb (by omega),
    signedField_eq_of_emod hc (by omega), signedField_eq_of_emod hd (by omega),
    hunsigned (x := q.qpb) (by norm_num) (by omega), hunsigned (x := q.qpr) (by norm_num) (by omega)]

end Sys2Proof.Machine

section
open Sys2Proof Sys2Proof.Machine

/-- Settles O56: PACK runs through the fields downward and stops at the first that does not fit, and UNPACK reads each field
off the word. -/
theorem codeWordLayout : Obligations.CodeWordLayout := by
  refine ⟨fun q => ⟨fun hfits => answers_pack_codeWord (fieldFits_all_iff.mp hfits), fun f hbefore hmisfit => ?_⟩,
    answers_unpack_fieldsOf⟩
  exact overflowResponse_pack f ▸ answers_of_overflow (i := .pack q) (packAnswer_of_misfit f hbefore hmisfit)

/-- Settles O57: the code word and the block of its fields determine each other. -/
theorem packUnpackInverse : Obligations.PackUnpackInverse := by
  refine ⟨fun q ha hdiffs hpb hpr => ?_, fun w => ⟨fieldsOf w, answers_unpack_fieldsOf w, ?_⟩⟩
  · have hlegal : LegalCodes q := ⟨ha, hdiffs, hpb, hpr⟩
    have hunpack := answers_unpack_fieldsOf (codeWord q)
    rw [fieldsOf_codeWord hlegal] at hunpack
    exact ⟨codeWord q, answers_pack_codeWord hlegal, hunpack⟩
  · have hpack := answers_pack_codeWord (legalCodes_fieldsOf w)
    rwa [codeWord_fieldsOf] at hpack

end

/-! # The faults that cannot occur (R174): where a rule cannot stop in a cause, its command never takes that fault -/

namespace Sys2Proof.Machine
open Binary32

/-- A command takes no fault but those its rule can stop in. -/
theorem neverFaultsWith_of_ends {i : Instr} {c : Cause} {P : List Word → Prop} {stops : List Stop}
    (h : Ends P stops (answerOf i)) (hc : Stop.fault c ∉ stops) :
    NeverFaultsWith i i.opcode.code.toNat c.code.toNat := by
  refine neverFaultsWith_of_ne fun hfault => hc ?_
  rwa [hfault] at h

/-- A command takes no fault but those among its opcode's stops. -/
theorem neverFaultsWith_of_notMem_stopsOf {i : Instr} {op : Opcode} {c : Cause} (hop : i.opcode = op)
    (hc : Stop.fault c ∉ stopsOf op) : NeverFaultsWith i op.code.toNat c.code.toNat := by
  subst hop
  exact neverFaultsWith_of_ends (ends_answerOf i) hc

/-- RGB2YPP stops in its checks of the operands alone: a pixel that passes them is legal, and its arithmetic is finite. -/
theorem stopsIn_rgb2yppAnswer (p : RgbPixel) (den : Word) :
    StopsIn [.fault .denominator, .fault .sampleRange] (rgb2yppAnswer p den) := by
  by_cases hlegal : LegalPixel p den
  · rw [rgb2yppAnswer_of_legal hlegal]
    trivial
  · refine .ite (fun _ => ends_raise (by decide)) fun hden => .ite (fun _ => ends_raise (by decide)) fun hr =>
      .ite (fun _ => ends_raise (by decide)) fun hg => .ite (fun _ => ends_raise (by decide)) fun hb => ?_
    obtain ⟨hpos, hmax⟩ : 1 ≤ den.toNat ∧ den.toNat ≤ 65535 := by
      rwa [Bool.not_eq_false, denOk, decide_eq_true_eq] at hden
    exact absurd ⟨hpos, hmax, Nat.le_of_not_gt hr, Nat.le_of_not_gt hg, Nat.le_of_not_gt hb⟩ hlegal

/-- QUANT of finite operands stops in the luma check alone: a block that passes it is answered its codes. -/
theorem stopsIn_quantAnswer_of_finite (L : ChromaTable) {t : TransformBlock} (h : allFinite t.words = true) :
    StopsIn [.fault .lumaRange] (quantAnswer L t) := by
  by_cases hluma : Within zero one t.a
  · rw [quantAnswer_eq_ok_iff.mpr ⟨⟨h, hluma⟩, rfl⟩]
    trivial
  · have hcheck : (lt t.a zero || lt one t.a) = true := by
      rwa [← Bool.not_eq_false, lumaCheck_iff (allFinite_words_iff.mp h).1]
    rw [quantAnswer, if_neg (by simp [h]), if_pos hcheck]
    exact ends_raise (by decide)

/-- DEQUANT stops in its checks of the codes alone: the arithmetic of legal codes is finite. -/
theorem stopsIn_dequantAnswer (L : ChromaTable) (q : QuantBlock) : StopsIn [.fault .codeRange] (dequantAnswer L q) := by
  by_cases hlegal : LegalCodes q
  · rw [dequantAnswer_of_legal L hlegal]
    trivial
  · rw [dequantAnswer_of_not_legal L hlegal]
    exact ends_raise (by decide)

/-- A command that answers `ws` appends nothing else to OUTQ. -/
theorem Answers.outq_ne {i : Instr} {ws vs : List Word} (h : Answers i ws) (hne : ws ≠ vs) {s t : State}
    (ht : exec i s = .next t) : t.outq ≠ s.outq ++ vs := by
  rw [h s] at ht
  cases ht
  exact fun heq => hne (List.append_cancel_left heq)

/-- No OVERFLOW response of PACK is an OK response: their RESULT fields differ. -/
theorem overflowWords_ne_okWords_pack {f : Nat} (hf : f < 6) (w : Word) :
    [0x00005000, w] ≠ [BitVec.ofNat 32 (f * 65536 + 0x00005011), 0] := by
  rw [← overflowResponse_pack ⟨f, hf⟩, overflowResponse]
  intro heq
  have hresult := congrArg (BitVec.extractLsb' 0 4) (List.cons.inj heq).1
  simp [resultOverflow] at hresult

end Sys2Proof.Machine

section
open Sys2Proof Sys2Proof.Machine

/-- Settles O59: the stops of each rule leave out the cause, and PACK answers OK to the codes of QUANT, which are legal. -/
theorem impossibleFaults : Obligations.ImpossibleFaults := by
  refine ⟨fun p den => ?_, fun t ht => ?_, fun q => ?_, fun q => ?_, fun w => ⟨?_, ?_⟩, fun b0 b1 b2 b3 => ?_,
    fun t q f hf hquant s s' hpack => ?_⟩
  · exact neverFaultsWith_of_ends (i := .rgb2ypp p den) (c := .nonFinite) (stopsIn_rgb2yppAnswer p den) (by decide)
  · exact neverFaultsWith_of_ends (i := .quant t) (c := .nonFinite) (stopsIn_quantAnswer_of_finite chromaLut ht)
      (by decide)
  · exact neverFaultsWith_of_ends (i := .dequant q) (c := .nonFinite) (stopsIn_dequantAnswer chromaLut q) (by decide)
  · exact neverFaultsWith_of_notMem_stopsOf (op := .pack) (c := .fieldRange) rfl (by decide)
  · exact neverFaultsWith_of_notMem_stopsOf (op := .unpack) (c := .fieldRange) rfl (by decide)
  · exact neverFaultsWith_of_notMem_stopsOf (op := .serbe) (c := .fieldRange) rfl (by decide)
  · exact neverFaultsWith_of_notMem_stopsOf (op := .deserbe) (c := .fieldRange) rfl (by decide)
  · obtain ⟨ht, rfl⟩ := answers_quant_iff.mp hquant
    exact (answers_pack_codeWord (legalCodes_quantCodes chromaLut ht)).outq_ne (overflowWords_ne_okWords_pack hf _) hpack

end

/-! # HALTED (R204): the block has no step, and the host's events keep what is there until RESET -/

namespace Sys2Proof.Machine

theorem step_of_halted {s : State} (h : s.mode = .halted) : step s = .fault .halted := by
  simp only [step, fetch, h]

theorem blockEvent_of_halted {s : State} (h : s.mode = .halted) : blockEvent s = none := by
  simp only [blockEvent, step_of_halted h]

/-- From `s` to a HALTED `t`, with `pushed` kept behind INQ, `popped` taken from the head of OUTQ, and nothing else changed. -/
structure KeptHalted (s t : State) (pushed popped : List Word) : Prop where
  mode : t.mode = .halted
  status : t.status = s.status
  inq : t.inq = s.inq ++ pushed
  outq : s.outq = popped ++ t.outq

theorem KeptHalted.refl {s : State} (h : s.mode = .halted) : KeptHalted s s [] [] :=
  ⟨h, rfl, (List.append_nil _).symm, rfl⟩

theorem KeptHalted.trans {s t u : State} {ps qs ps' qs' : List Word} (h : KeptHalted s t ps qs)
    (h' : KeptHalted t u ps' qs') : KeptHalted s u (ps ++ ps') (qs ++ qs') where
  mode := h'.mode
  status := h'.status.trans h.status
  inq := by rw [h'.inq, h.inq, List.append_assoc]
  outq := by rw [h.outq, h'.outq, List.append_assoc]

/-- Of the events that can happen in HALTED, only RESET does more than push or pop. -/
theorem keptHalted_of_fire {e : Event} {s t : State} (hmode : s.mode = .halted) (he : e ≠ .reset)
    (h : fire e s = some t) : KeptHalted s t (pushedBy e) (poppedBy e s) := by
  cases e with
  | block => exact absurd ((blockEvent_of_halted hmode).symm.trans h) nofun
  | push w =>
    obtain ⟨-, rfl⟩ := push_eq_some_iff.mp h
    exact ⟨hmode, rfl, rfl, rfl⟩
  | pop =>
    obtain ⟨⟨w, t'⟩, hpop, rfl⟩ := Option.map_eq_some_iff.mp h
    obtain ⟨rest, hq, rfl⟩ := pop_eq_some_iff.mp hpop
    exact ⟨hmode, rfl, (List.append_nil _).symm, by simp [poppedBy, hq]⟩
  | readStatus =>
    cases h
    exact .refl hmode
  | reset => exact absurd rfl he

/-- A run without RESET from a HALTED state, by induction on its events. -/
theorem keptHalted_of_runEvents {es : List Event} {s t : State} {ws : List Word} (hmode : s.mode = .halted)
    (hes : Event.reset ∉ es) (h : runEvents es s = some (t, ws)) : KeptHalted s t (pushedWords es) ws := by
  induction es generalizing s ws with
  | nil =>
    cases h
    exact .refl hmode
  | cons e es ih =>
    obtain ⟨hne, hrest⟩ := List.ne_and_not_mem_of_not_mem_cons hes
    obtain ⟨s', vs, hfire, hrun, rfl⟩ := runEvents_cons h
    have hfirst := keptHalted_of_fire hmode hne.symm hfire
    exact hfirst.trans (ih hfirst.mode hrest hrun)

/-- A full INQ takes no push (R37, R81). -/
theorem fire_push_of_full {s : State} {e : Nat} (w : Word) (hcap : Config.inCapExtra = some e)
    (hfull : s.inq.length = 13 + e) : fire (.push w) s = none := by
  refine if_neg fun hroom => ?_
  exact (hfull ▸ (inRoom_one_iff s).mp hroom e hcap).false

/-- RESET is enabled in every state and leads to the reset state (R81, R195). -/
theorem fire_reset (s : State) : fire .reset s = some State.reset := congrArg some (assertReset_eq s)

end Sys2Proof.Machine

section
open Sys2Proof Sys2Proof.Machine

/-- Settles O16: RESET discards the state before it. -/
theorem resetState : Obligations.ResetState := ⟨rfl, fire_reset⟩

/-- Settles O21: each event keeps what R204 names, hence every run does; the end of the run refuses a push beyond IN_CAP and
takes a RESET as any state does. -/
theorem haltedUntilReset : Obligations.HaltedUntilReset := by
  intro s t es ws hmode hes hrun
  obtain ⟨hhalted, hstatus, hinq, houtq⟩ := keptHalted_of_runEvents hmode hes hrun
  exact ⟨hhalted, hstatus, hinq, houtq, fun w e hcap hfull => fire_push_of_full w hcap hfull,
    State.reset, fire_reset t, reset_inq, reset_mode⟩

end

/-! # The length of a compressed image (R210): a code word for each tile, and four bytes for each code word -/

namespace Sys2Proof.Machine

/-- A rule taken along a list answers where it answers for every element, one value for each. -/
theorem mapM_eq_ok_iff {α β : Type} {f : α → Except Stop β} {xs : List α} {ys : List β} :
    xs.mapM f = .ok ys ↔ List.Forall₂ (fun x y => f x = .ok y) xs ys := by
  induction xs generalizing ys with
  | nil => simp only [List.mapM_nil, pure, Except.pure, Except.ok.injEq, List.forall₂_nil_left_iff, eq_comm]
  | cons x xs ih =>
    simp only [List.mapM_cons, bind_eq_ok_iff, ih, List.forall₂_cons_left_iff, pure, Except.pure, Except.ok.injEq]
    exact ⟨fun ⟨y, hy, zs, hzs, h⟩ => ⟨y, zs, hy, hzs, h.symm⟩, fun ⟨y, zs, hy, hzs, h⟩ => ⟨y, hy, zs, hzs, h.symm⟩⟩

theorem length_of_mapM_eq_ok {α β : Type} {f : α → Except Stop β} {xs : List α} {ys : List β}
    (h : xs.mapM f = .ok ys) : ys.length = xs.length :=
  (mapM_eq_ok_iff.mp h).length_eq.symm

/-- A rule that answers `n` words for each element answers `n` times as many along the list. -/
theorem length_flatten_of_mapM_eq_ok {α β : Type} {f : α → Except Stop (List β)} {xs : List α} {yss : List (List β)}
    {n : Nat} (hf : ∀ x ys, f x = .ok ys → ys.length = n) (h : xs.mapM f = .ok yss) :
    yss.flatten.length = n * xs.length := by
  induction mapM_eq_ok_iff.mp h with
  | nil => rfl
  | cons hx hxs ih =>
    rw [List.flatten_cons, List.length_append, hf _ _ hx, ih (mapM_eq_ok_iff.mpr hxs), List.length_cons, Nat.mul_succ,
      Nat.add_comm]

theorem trimEven_div_two (n : Nat) : trimEven n / 2 = n / 2 := by
  unfold trimEven
  omega

/-- The tiles are those of a grid of `W'/2` columns and `H'/2` rows (R205). -/
theorem length_tileOrder (width height : Nat) : (tileOrder width height).length = (width / 2) * (height / 2) := by
  simp only [tileOrder, trimEven_div_two, List.length_flatMap, List.length_map, List.length_range, List.map_const',
    List.sum_replicate, smul_eq_mul, Nat.mul_comm]

theorem length_of_serbeAnswer_ok {w : Word} {bytes : List Word} (h : serbeAnswer w = .ok bytes) : bytes.length = 4 :=
  length_of_answerOf_ok (i := .serbe w) h

theorem length_of_compressWords_ok {L : ChromaTable} {den : Word} {width height : Nat} {px : Nat → Nat → RgbPixel}
    {ws : List Word} (h : compressWords L den width height px = .ok ws) : ws.length = (width / 2) * (height / 2) :=
  (length_of_mapM_eq_ok h).trans (length_tileOrder width height)

/-- The bytes of an image are the four of each of its code words (R167). -/
theorem length_of_compressBytes_ok {L : ChromaTable} {den : Word} {width height : Nat} {px : Nat → Nat → RgbPixel}
    {bytes : List Word} (h : compressBytes L den width height px = .ok bytes) :
    bytes.length = 4 * ((width / 2) * (height / 2)) := by
  obtain ⟨ws, hws, hbytes⟩ := bind_eq_ok_iff.mp h
  obtain ⟨bss, hbss, hflat⟩ := bind_eq_ok_iff.mp hbytes
  cases hflat
  rw [length_flatten_of_mapM_eq_ok (fun _ _ => length_of_serbeAnswer_ok) hbss, length_of_compressWords_ok hws]

end Sys2Proof.Machine

section
open Sys2Proof Sys2Proof.Machine

/-- Settles O60: the code words are counted by the tiles, the bytes by the code words. -/
theorem streamLength : Obligations.StreamLength :=
  ⟨fun _ _ _ _ _ _ _ hws hbytes => ⟨length_of_compressWords_ok hws, length_of_compressBytes_ok hbytes⟩,
    length_tileOrder 2 2, length_tileOrder 4 2⟩

end

/-! # The encoder and the decoder are inverse (R65 to R71): a command is its opcode, its immediates and its operand words -/

namespace Sys2Proof

/-! ## The parts of a command -/

/-- The immediate WIDTH of a command, 0 in format N (R66). -/
def Instr.width : Instr → Nat
  | .fitsu w _ | .fitss w _ => w
  | .getu w _ _ | .gets w _ _ | .newu w _ _ _ | .news w _ _ _ => w
  | _ => 0

/-- The immediate LSB of a command, 0 outside format F (R66). -/
def Instr.lsb : Instr → Nat
  | .getu _ l _ | .gets _ l _ | .newu _ l _ _ | .news _ l _ _ => l
  | _ => 0

/-- The operand words of a command, in the order of R70. -/
def Instr.operands (i : Instr) : List Word := (encode i).tail

theorem encode_eq_cons (i : Instr) : encode i = commandWord i.opcode i.width i.lsb :: i.operands := by
  cases i <;> rfl

theorem length_encode (i : Instr) : (encode i).length = 1 + i.opcode.nIn := by
  cases i <;> rfl

theorem length_operands (i : Instr) : i.operands.length = i.opcode.nIn := by
  rw [Instr.operands, List.length_tail, length_encode, Nat.add_sub_cancel_left]

/-- A command is built from its own parts, whatever words stand behind its operands. -/
theorem buildInstr_parts (i : Instr) (rest : List Word) :
    buildInstr i.opcode i.width i.lsb ((i.operands ++ rest).getD · 0) = i := by
  cases i <;> simp [Instr.operands, Instr.opcode, Instr.width, Instr.lsb, buildInstr, encode, words64, YppPixel.words,
    TransformBlock.words, QuantBlock.words]

/-- Only the immediates that a format has can be other than 0 (R66). -/
theorem width_lsb_of_format (i : Instr) :
    (i.opcode.format = .n → i.width = 0) ∧ (i.opcode.format ≠ .f → i.lsb = 0) := by
  cases i <;> simp [Instr.opcode, Opcode.format, Instr.width, Instr.lsb]

theorem wellFormed_iff (i : Instr) : i.wellFormed = true ↔ i.width ≤ 127 ∧ i.lsb ≤ 127 := by
  cases i <;> simp [Instr.wellFormed, immediateOk, Instr.width, Instr.lsb] <;> omega

/-! ## Decoding the encoding -/

/-- The command word of a well-formed command has no reserved bit (R66). -/
theorem commandWord_and_reservedMask {i : Instr} (hw : i.width ≤ 127) (hl : i.lsb ≤ 127) :
    commandWord i.opcode i.width i.lsb &&& i.opcode.format.reservedMask = 0#32 := by
  obtain ⟨hn, hf⟩ := width_lsb_of_format i
  have hcode := i.opcode.code.isLt
  refine and_reservedMask_eq_zero ?_
  rw [toNat_commandWord i.opcode hw hl]
  cases hfmt : i.opcode.format with
  | n =>
    rw [hn hfmt, hf (by simp [hfmt]), Format.firstReserved]
    omega
  | w =>
    rw [hf (by simp [hfmt]), Format.firstReserved]
    omega
  | f =>
    rw [Format.firstReserved]
    omega

theorem decode_encode {i : Instr} (h : i.wellFormed = true) (rest : List Word) :
    decode (encode i ++ rest) = .ok (i, rest) := by
  obtain ⟨hw, hl⟩ := (wellFormed_iff i).mp h
  have hlen := length_operands i
  rw [encode_eq_cons, List.cons_append,
    decode_of_operands (op := i.opcode) (by rw [opcField_commandWord i.opcode hw hl, ofCode_code])
      (commandWord_and_reservedMask hw hl) (by rw [List.length_append, hlen]; exact Nat.le_add_right ..),
    widthField_commandWord i.opcode hw hl, lsbField_commandWord i.opcode hw hl, buildInstr_parts, ← hlen,
    List.drop_left]

/-! ## Encoding what was decoded -/

/-- Bits `l` and up of a command word are 0 where its format reserves them (R66). -/
theorem toNat_lt_of_and_reservedMask {cmd : Word} {fmt : Format} (h : cmd &&& fmt.reservedMask = 0#32) :
    cmd.toNat < 2 ^ fmt.firstReserved := by
  refine Nat.lt_pow_two_of_testBit _ fun k hk => ?_
  by_contra hbit
  exact and_reservedMask_ne_zero hk (Bool.not_eq_false _ ▸ hbit) h

/-- The immediates of a built command are the fields its format has, and 0 for the others. -/
theorem buildInstr_width_lsb (op : Opcode) (w l : Nat) (o : Nat → Word) :
    (buildInstr op w l o).width = (if op.format = .n then 0 else w) ∧
    (buildInstr op w l o).lsb = (if op.format = .f then l else 0) := by
  cases op <;> exact ⟨rfl, rfl⟩

/-- A command word without reserved bits is its opcode and the fields of its format. -/
theorem commandWord_fields {cmd : Word} {op : Opcode} (hop : op.code = opcField cmd)
    (hres : cmd &&& op.format.reservedMask = 0#32) (o : Nat → Word) :
    commandWord op (buildInstr op (widthField cmd) (lsbField cmd) o).width
      (buildInstr op (widthField cmd) (lsbField cmd) o).lsb = cmd := by
  have hlt := toNat_lt_of_and_reservedMask hres
  have hcode := toNat_opcField cmd
  rw [← hop] at hcode
  obtain ⟨hw, hl⟩ := buildInstr_width_lsb op (widthField cmd) (lsbField cmd) o
  rw [hw, hl, widthField_eq, lsbField_eq]
  refine BitVec.eq_of_toNat_eq ?_
  rw [toNat_commandWord op (by split <;> omega) (by split <;> omega), hcode]
  cases hfmt : op.format <;> simp [hfmt, Format.firstReserved] at hlt ⊢ <;> omega

/-- The operand words of a built command are the words it was built of. -/
theorem operands_buildInstr (op : Opcode) (w l : Nat) (o : Nat → Word) :
    (buildInstr op w l o).operands = (List.range op.nIn).map o := by
  cases op <;> simp [Instr.operands, buildInstr, encode, words64, YppPixel.words,
    TransformBlock.words, QuantBlock.words] <;> rfl

theorem map_getD_range {ws : List Word} {n : Nat} (h : n ≤ ws.length) :
    (List.range n).map (ws.getD · 0) = ws.take n := by
  refine List.ext_getElem (by simp [h]) fun k hk _ => ?_
  have hk' : k < n := by simpa using hk
  rw [List.getElem_map, List.getElem_range, List.getElem_take, List.getD_eq_getElem _ _ (by omega)]

theorem encode_of_decode {ws rest : List Word} {i : Instr} (h : decode ws = .ok (i, rest)) :
    i.wellFormed = true ∧ encode i ++ rest = ws := by
  obtain ⟨cmd, tail, op, rfl, hop, hres, hd, -⟩ := decode_ok_cases h
  obtain ⟨-, hlen, -⟩ := decodeOperands_some hd
  rw [decodeOperands, if_neg (by omega), Option.some.injEq, Prod.mk.injEq] at hd
  obtain ⟨rfl, rfl⟩ := hd
  refine ⟨?_, ?_⟩
  · obtain ⟨hw, hl⟩ := buildInstr_width_lsb op (widthField cmd) (lsbField cmd) (tail.getD · 0)
    rw [wellFormed_iff, hw, hl, widthField_eq, lsbField_eq]
    constructor <;> split <;> omega
  · rw [encode_eq_cons, buildInstr_opcode, commandWord_fields (code_of_ofCode hop) hres, operands_buildInstr,
      map_getD_range (by omega), List.cons_append, List.take_append_drop]

end Sys2Proof

section
open Sys2Proof Sys2Proof.Machine

/-- Settles O1: the command word's fields do not overlap, and each command is built of its own parts. -/
theorem decodeInvertsEncode : Obligations.DecodeInvertsEncode := fun _ rest h => decode_encode h rest

/-- Settles O2: a word without reserved bits is determined by its opcode and its format's fields, and the operand words are
kept in order. -/
theorem encodeInvertsDecode : Obligations.EncodeInvertsDecode := by
  intro ws rest i h
  obtain ⟨hwf, hws⟩ := encode_of_decode h
  refine ⟨hwf, hws, ?_, ?_⟩
  · rw [← hws, List.length_append, length_encode]
  · rw [← code_of_decode h, ofCode_code]

end

/-! # The block step, a case at a time (R80, R170, R171) -/

namespace Sys2Proof.Machine

/-! ## The rules of the step -/

/-- The step of a whole command with room for its response. -/
theorem step_of_decode {s : State} {i : Instr} {rest : List Word} (hmode : s.mode = .ready)
    (hdecode : decode s.inq = .ok (i, rest)) (hroom : s.outRoom (1 + i.opcode.nOut) = true) :
    step s = exec i (s.withInq rest) := by
  simp only [step, fetch, hmode, hdecode, hroom, if_true]

theorem step_of_noRoom {s : State} {i : Instr} {rest : List Word} (hmode : s.mode = .ready)
    (hdecode : decode s.inq = .ok (i, rest)) (hroom : s.outRoom (1 + i.opcode.nOut) = false) :
    step s = .fault .awaitingSpace := by
  simp [step, fetch, hmode, hdecode, hroom]

theorem step_of_idle {s : State} (hmode : s.mode = .ready) (hinq : s.inq = []) : step s = .fault .idle := by
  simp only [step, fetch, hmode, hinq, decode]

theorem step_of_missingOperands {s : State} {op : Opcode} (hmode : s.mode = .ready)
    (hdecode : decode s.inq = .error (.missingOperands op)) : step s = .fault .awaitingOperands := by
  simp only [step, fetch, hmode, hdecode]

/-- A command word that faults as it is decoded waits for room for its fault word (R80, R190). -/
theorem step_of_fetchBad_noRoom {s : State} {opc : OpcByte} {c : Cause} (hfetch : fetch s = fetchBad opc c s)
    (hroom : s.outRoom 1 = false) : step s = .fault .awaitingSpace := by
  simp [step, hfetch, fetchBad, hroom]

theorem fetch_illegalOpcode {s : State} {cmd : Word} {rest : List Word} (hmode : s.mode = .ready)
    (hinq : s.inq = cmd :: rest) (hop : Opcode.ofCode (opcField cmd) = none) :
    fetch s = fetchBad (opcField cmd) .illegalOpcode s := by
  simp only [fetch, hmode, hinq, decode_illegalOpcode hop]

theorem fetch_reservedBits {s : State} {cmd : Word} {rest : List Word} {op : Opcode} (hmode : s.mode = .ready)
    (hinq : s.inq = cmd :: rest) (hop : Opcode.ofCode (opcField cmd) = some op)
    (hres : cmd &&& op.format.reservedMask ≠ 0#32) : fetch s = fetchBad (opcField cmd) .reservedBits s := by
  simp only [fetch, hmode, hinq, decode_reservedBits hop hres]

theorem step_ne_refused (s : State) (r : Refusal) : step s ≠ .refused r := by
  unfold step
  split
  · nofun
  · nofun
  · rw [exec_eq_finish]
    nofun

/-- A whole command with room for its response has a step, whatever the command answers. -/
theorem exists_step_of_decode {s : State} {i : Instr} {rest : List Word} (hmode : s.mode = .ready)
    (hdecode : decode s.inq = .ok (i, rest)) (hroom : s.outRoom (1 + i.opcode.nOut) = true) : ∃ t, step s = .next t :=
  ⟨_, (step_of_decode hmode hdecode hroom).trans (exec_eq_finish i _)⟩

/-- The room that `n` words need, as a bound by OUT_CAP (R38). -/
theorem outRoom_iff (s : State) (n : Nat) :
    s.outRoom n = true ↔ ∀ e, Config.outCapExtra = some e → s.outq.length + n ≤ 13 + e :=
  withinCapacity_iff ..

theorem nIn_le (op : Opcode) : op.nIn ≤ 12 := by
  cases op <;> decide

theorem nOut_le (op : Opcode) : op.nOut ≤ 12 := by
  cases op <;> decide

/-! ## The causes of each opcode (R171) -/

/-- The fatal causes that R171 lists for an opcode. -/
def causesOf : Opcode → List Cause
  | .fitsu | .fitss | .getu | .gets | .newu | .news => [.fieldRange]
  | .rgb2ypp => [.denominator, .sampleRange]
  | .ypp2rgb => [.nonFinite, .denominator]
  | .dctf | .dcti | .chridx => [.nonFinite]
  | .quant => [.nonFinite, .lumaRange]
  | .dequant | .chrval | .deserbe => [.codeRange]
  | .pack | .unpack | .serbe => []

/-- `stopsOf` lists NON_FINITE for RGB2YPP and DEQUANT, whose arithmetic never raises it; the other causes are
exactly those of `causesOf`. -/
theorem mem_causesOf_of_mem_stopsOf {op : Opcode} {c : Cause} (h : Stop.fault c ∈ stopsOf op)
    (hnf : op = .rgb2ypp ∨ op = .dequant → c ≠ .nonFinite) : c ∈ causesOf op := by
  revert h hnf
  cases op <;> cases c <;> decide

/-- A rule raises only the causes of its opcode. -/
theorem mem_causesOf_of_answerOf {i : Instr} {c : Cause} (h : answerOf i = .error (.fault c)) :
    c ∈ causesOf i.opcode := by
  refine mem_causesOf_of_mem_stopsOf (mem_stopsOf_of_answerOf h) ?_
  rintro hop rfl
  cases i with
  | rgb2ypp p den =>
    have hstops := stopsIn_rgb2yppAnswer p den
    rw [show rgb2yppAnswer p den = _ from h] at hstops
    simp [StopsIn, Ends] at hstops
  | dequant q =>
    have hstops := stopsIn_dequantAnswer chromaLut q
    rw [show dequantAnswer chromaLut q = _ from h] at hstops
    simp [StopsIn, Ends] at hstops
  | _ => simp [Instr.opcode] at hop

/-- A rule's own causes are those of R171 from FIELD_RANGE on. -/
theorem code_range_of_mem_causesOf {op : Opcode} {c : Cause} (h : c ∈ causesOf op) :
    4 ≤ c.code.toNat ∧ c.code.toNat ≤ 9 := by
  revert h
  cases op <;> cases c <;> decide

/-- R171's table, its opcodes as numbers. -/
theorem code_of_mem_causesOf {op : Opcode} {c : Cause} (h : c ∈ causesOf op) :
    (c.code.toNat = 4 ∧ op.code.toNat ∈ [0x10, 0x11, 0x12, 0x13, 0x14, 0x15]) ∨
    (c.code.toNat = 5 ∧ op.code.toNat ∈ [0x20, 0x21]) ∨ (c.code.toNat = 6 ∧ op.code.toNat = 0x20) ∨
    (c.code.toNat = 7 ∧ op.code.toNat ∈ [0x21, 0x30, 0x31, 0x40, 0x42]) ∨ (c.code.toNat = 8 ∧ op.code.toNat = 0x40) ∨
    (c.code.toNat = 9 ∧ op.code.toNat ∈ [0x41, 0x43, 0x53]) := by
  revert h
  cases op <;> cases c <;> decide

end Sys2Proof.Machine

section
open Sys2Proof Sys2Proof.Machine

/-- Settles O6, which is the step's rule for a whole command. -/
theorem stepRunsDecodedCommand : Obligations.StepRunsDecodedCommand :=
  fun _ _ _ hmode hdecode hroom => step_of_decode hmode hdecode hroom

/-- Settles O8: each `require` line of R80 that fails has its own fault. -/
theorem noStepByName : Obligations.NoStepByName := by
  refine fun s => ⟨step_of_halted, step_of_idle, fun op => step_of_missingOperands, fun i rest => step_of_noRoom,
    fun cmd rest hmode hinq hop hroom => ?_, fun cmd rest op hmode hinq hop hres hroom => ?_, step_ne_refused s⟩
  · exact step_of_fetchBad_noRoom (fetch_illegalOpcode hmode hinq hop) hroom
  · exact step_of_fetchBad_noRoom (fetch_reservedBits hmode hinq hop hres) hroom

/-- Settles O15: no response is longer than the least capacity. -/
theorem drainedBlockNeverStuck : Obligations.DrainedBlockNeverStuck := by
  refine ⟨fun op => ?_, rfl, rfl, fun s i rest hmode houtq hdecode => ?_⟩
  · have := nIn_le op
    have := nOut_le op
    omega
  · have := nOut_le i.opcode
    exact exists_step_of_decode hmode hdecode (outRoom_of_empty houtq (by omega))

/-- Settles O7: the decoder's checks and the room for the response are the whole of the `require` lines. -/
theorem enabledExactly : Obligations.EnabledExactly := by
  refine ⟨fun s => ⟨?_, ?_⟩, fun s n e he => by simp [outRoom_iff, he], fun s n he => by simp [outRoom_iff, he]⟩
  · rintro ⟨t, hstep⟩
    obtain ⟨hmode, ⟨opc, c, hfetch, hroom, -⟩ | ⟨i, rest, hdecode, hroom, -⟩⟩ := step_cases hstep
    · obtain ⟨cmd, rest, hinq, rfl, ⟨-, hop⟩ | ⟨-, op, hop, hres⟩⟩ := fetch_badCommand_cases hfetch
      · exact ⟨hmode, cmd, rest, hinq, by simp only [hop, hroom]⟩
      · exact ⟨hmode, cmd, rest, hinq, by simp only [hop, BitVec.ofNat_eq_ofNat, if_neg hres, hroom]⟩
    · obtain ⟨cmd, tail, op, hinq, hop, hres, hoperands, rfl⟩ := decode_ok_cases hdecode
      obtain ⟨-, hlen, -⟩ := decodeOperands_some hoperands
      refine ⟨hmode, cmd, tail, hinq, ?_⟩
      simp only [hop, BitVec.ofNat_eq_ofNat, if_pos hres, hroom, hlen]
      exact ⟨Nat.le_add_right .., trivial⟩
  · rintro ⟨hmode, cmd, rest, hinq, h⟩
    cases hop : Opcode.ofCode (opcField cmd) with
    | none =>
      rw [hop] at h
      exact ⟨_, step_illegalOpcode hmode hinq hop h⟩
    | some op =>
      simp only [hop, BitVec.ofNat_eq_ofNat] at h
      split_ifs at h with hres
      · have hdecode := decode_of_operands hop hres h.1
        rw [← hinq] at hdecode
        exact exists_step_of_decode hmode hdecode (by rw [buildInstr_opcode]; exact h.2)
      · exact ⟨_, step_reservedBits hmode hinq hop hres h⟩

/-- Settles O11: the fault of a bad command word names the decoder's cause, and a rule stops only in the causes of its
opcode. -/
theorem statusWordFields : Obligations.StatusWordFields := by
  intro s t hstep
  obtain ⟨-, ⟨opc, c, hfetch, -, rfl⟩ | ⟨i, rest, hdecode, -, hexec⟩⟩ := step_cases hstep
  · obtain ⟨cmd, tail, hinq, rfl, hcause⟩ := fetch_badCommand_cases hfetch
    refine ⟨statusWord resultFault c.code (opcField cmd) 0, [], rfl, ?_⟩
    simp only [statusWord_result, statusWord_cause, statusWord_opc, statusWord_field, statusWord_high, hinq,
      List.headD_cons, true_and]
    obtain ⟨rfl, hop⟩ | ⟨rfl, op, hop, -⟩ := hcause <;> simp [hop, Cause.code, resultFault]
  · have hopc := code_of_decode hdecode
    rw [exec_eq_finish, Host.Outcome.next.injEq] at hexec
    subst hexec
    obtain ⟨res, -, hfin⟩ | ⟨f, ha, hfin⟩ | ⟨c, ha, hfin⟩ := finish_cases i.opcode (answerOf i) (s.withInq rest)
    all_goals
      rw [hfin]
      refine ⟨_, _, rfl, ?_⟩
      simp only [statusWord_result, statusWord_cause, statusWord_opc, statusWord_field, statusWord_high, ← hopc, ofCode_code,
        true_and]
    · exact .inl ⟨rfl, rfl, rfl⟩
    · refine .inr (.inl ⟨rfl, rfl, ?_⟩)
      obtain hop | ⟨hop | hop, rfl⟩ := opcode_of_overflow_mem (mem_stopsOf_of_answerOf ha)
      · exact .inl ⟨by rw [hop]; rfl, by rw [BitVec.toNat_ofNat]; omega⟩
      · exact .inr ⟨.inl (by rw [hop]; rfl), rfl⟩
      · exact .inr ⟨.inr (by rw [hop]; rfl), rfl⟩
    · exact .inr (.inr ⟨rfl, rfl, .inr (.inr (code_of_mem_causesOf (mem_causesOf_of_answerOf ha)))⟩)

/-- Settles O12: only the two faults of the fetch and a rule's `raise` halt, the latter in a cause from FIELD_RANGE on. -/
theorem fatalFaultTaken : Obligations.FatalFaultTaken := by
  intro s t hstep hhalted
  obtain ⟨hmode, ⟨opc, c, hfetch, -, rfl⟩ | ⟨i, rest, hdecode, -, hexec⟩⟩ := step_cases hstep
  · obtain ⟨cmd, tail, hinq, rfl, hcause⟩ := fetch_badCommand_cases hfetch
    refine ⟨cmd, tail, c.code.toNat, hinq, ?_, ?_, ?_⟩
    · rw [← toNat_opcField, takeFault_eq]; rfl
    · rw [← toNat_opcField, takeFault_eq]
    · obtain ⟨rfl, hop⟩ | ⟨rfl, op, hop, hres⟩ := hcause
      · simp [hop, hinq, Cause.code]
      · simp only [hop, BitVec.ofNat_eq_ofNat, if_neg hres, takeFault_inq, withInq_inq, hinq]
        exact ⟨rfl, rfl⟩
  · obtain ⟨cmd, tail, op, hinq, hop, hres, hoperands, rfl⟩ := decode_ok_cases hdecode
    obtain ⟨-, hlen, rfl⟩ := decodeOperands_some hoperands
    rw [exec_eq_finish, Host.Outcome.next.injEq] at hexec
    subst hexec
    obtain ⟨res, -, hfin⟩ | ⟨f, -, hfin⟩ | ⟨c, ha, hfin⟩ :=
      finish_cases i.opcode (answerOf i) (s.withInq (tail.drop i.opcode.nIn))
    · rw [hfin, respond_mode, withInq_mode, hmode] at hhalted
      cases hhalted
    · rw [hfin, respond_mode, withInq_mode, hmode] at hhalted
      cases hhalted
    · obtain ⟨hlow, hhigh⟩ := code_range_of_mem_causesOf (mem_causesOf_of_answerOf ha)
      refine ⟨cmd, tail, c.code.toNat, hinq, ?_, ?_, ?_⟩
      · rw [hfin, takeFault_eq, code_of_ofCode hop, toNat_opcField]; rfl
      · rw [hfin, takeFault_eq, code_of_ofCode hop, toNat_opcField]
      · simp only [hop, BitVec.ofNat_eq_ofNat, if_pos hres, finish_inq, withInq_inq]
        exact ⟨hlow, hhigh, by omega, trivial⟩

end

/-! # Runs of block and host (R80 to R82): what a block step does is read off the words at the head of INQ, and only the room
for it off the rest of the state -/

namespace Sys2Proof.Machine

/-! ## The outcome of the words at the head of INQ -/

/-- What the block makes of the words at the head of INQ (R80). -/
structure HeadOutcome where
  /-- The response. -/
  response : List Word
  /-- What a fatal fault writes to STATUS. -/
  halt : Option Word
  /-- The room in OUTQ that R80 requires. -/
  room : Nat
  /-- The words behind those consumed. -/
  rest : List Word

/-- The outcome of a command word that faults as it is decoded (R71, R170). -/
def badOutcome (opc : OpcByte) (c : Cause) (ws : List Word) : HeadOutcome :=
  { response := faultResponse opc c, halt := some (faultStatus opc c), room := 1, rest := ws.drop 1 }

/-- The outcome of a whole command (R76 to R78). -/
def commandOutcome (i : Instr) (rest : List Word) : HeadOutcome :=
  { response := (answerOf i).response i.opcode
    halt := (answerOf i).haltStatus i.opcode
    room := 1 + i.opcode.nOut
    rest := rest }

/-- The outcome of the words at the head of INQ; `none` where they are not a whole command and not a bad command word. -/
def headOutcome (ws : List Word) : Option HeadOutcome :=
  match decode ws with
  | .ok (i, rest) => some (commandOutcome i rest)
  | .error (.illegalOpcode opc) => some (badOutcome opc .illegalOpcode ws)
  | .error (.reservedBits opc) => some (badOutcome opc .reservedBits ws)
  | .error .noWord => none
  | .error (.missingOperands _) => none

/-- The state after an outcome. -/
def State.after (s : State) (o : HeadOutcome) : State :=
  { inq := o.rest
    outq := s.outq ++ o.response
    status := o.halt.getD s.status
    mode := if o.halt.isSome then .halted else s.mode }

@[simp] theorem after_inq (s : State) (o : HeadOutcome) : (s.after o).inq = o.rest := rfl
@[simp] theorem after_outq (s : State) (o : HeadOutcome) : (s.after o).outq = s.outq ++ o.response := rfl
@[simp] theorem after_status (s : State) (o : HeadOutcome) : (s.after o).status = o.halt.getD s.status := rfl
@[simp] theorem after_mode (s : State) (o : HeadOutcome) :
    (s.after o).mode = if o.halt.isSome then .halted else s.mode := rfl

theorem headOutcome_of_decode {ws rest : List Word} {i : Instr} (h : decode ws = .ok (i, rest)) :
    headOutcome ws = some (commandOutcome i rest) := by
  simp only [headOutcome, h]

theorem decode_illegalOpcode_cases {ws : List Word} {opc : OpcByte} (h : decode ws = .error (.illegalOpcode opc)) :
    ∃ cmd tail, ws = cmd :: tail ∧ opc = opcField cmd ∧ Opcode.ofCode (opcField cmd) = none := by
  obtain ⟨-, he⟩ | ⟨cmd, tail, rfl, ⟨hop, he⟩ | ⟨op, hop, ⟨hres, he⟩ | ⟨-, -, he⟩⟩⟩ := decode_error_cases h
  all_goals cases he
  exact ⟨cmd, tail, rfl, rfl, hop⟩

theorem decode_reservedBits_cases {ws : List Word} {opc : OpcByte} (h : decode ws = .error (.reservedBits opc)) :
    ∃ cmd tail op, ws = cmd :: tail ∧ opc = opcField cmd ∧ Opcode.ofCode (opcField cmd) = some op ∧
      cmd &&& op.format.reservedMask ≠ 0#32 := by
  obtain ⟨-, he⟩ | ⟨cmd, tail, rfl, ⟨hop, he⟩ | ⟨op, hop, ⟨hres, he⟩ | ⟨-, -, he⟩⟩⟩ := decode_error_cases h
  all_goals cases he
  exact ⟨cmd, tail, op, rfl, rfl, hop, hres⟩

/-- The two ways to an outcome: a command word that is illegal or has a reserved bit set, or a whole command. -/
theorem headOutcome_cases {ws : List Word} {o : HeadOutcome} (h : headOutcome ws = some o) :
    (∃ cmd tail c, ws = cmd :: tail ∧ o = badOutcome (opcField cmd) c ws ∧
      ((c = .illegalOpcode ∧ Opcode.ofCode (opcField cmd) = none) ∨
        (c = .reservedBits ∧ ∃ op, Opcode.ofCode (opcField cmd) = some op ∧ cmd &&& op.format.reservedMask ≠ 0#32))) ∨
    ∃ i rest, o = commandOutcome i rest ∧ decode ws = .ok (i, rest) := by
  unfold headOutcome at h
  split at h <;> cases h
  · next i rest hd => exact .inr ⟨i, rest, rfl, hd⟩
  · next hd =>
    obtain ⟨cmd, tail, rfl, rfl, hop⟩ := decode_illegalOpcode_cases hd
    exact .inl ⟨cmd, tail, _, rfl, rfl, .inl ⟨rfl, hop⟩⟩
  · next hd =>
    obtain ⟨cmd, tail, op, rfl, rfl, hop, hres⟩ := decode_reservedBits_cases hd
    exact .inl ⟨cmd, tail, _, rfl, rfl, .inr ⟨rfl, op, hop, hres⟩⟩

/-- The step of a READY block whose INQ has an outcome at its head: that outcome, or the wait for room (R80, R190). -/
theorem step_of_headOutcome {s : State} {o : HeadOutcome} (hmode : s.mode = .ready) (ho : headOutcome s.inq = some o) :
    step s = if s.outRoom o.room = true then .next (s.after o) else .fault .awaitingSpace := by
  have hbad : ∀ {opc c}, fetch s = fetchBad opc c s →
      step s = if s.outRoom 1 = true then .next (s.after (badOutcome opc c s.inq)) else .fault .awaitingSpace := by
    intro opc c hfetch
    rw [step, hfetch, fetchBad]
    split_ifs <;> rfl
  obtain ⟨cmd, tail, c, hinq, rfl, ⟨rfl, hop⟩ | ⟨rfl, op, hop, hres⟩⟩ | ⟨i, rest, rfl, hd⟩ := headOutcome_cases ho
  · exact hbad (fetch_illegalOpcode hmode hinq hop)
  · exact hbad (fetch_reservedBits hmode hinq hop hres)
  · split_ifs with hroom
    · rw [step_of_decode hmode hd hroom, exec_eq_finish, finish_eq_response]
      rfl
    · exact step_of_noRoom hmode hd (Bool.not_eq_true _ ▸ hroom)

/-- A step needs an outcome at the head of INQ. -/
theorem headOutcome_of_step {s t : State} (h : step s = .next t) : ∃ o, headOutcome s.inq = some o := by
  obtain ⟨-, ⟨opc, c, hfetch, -⟩ | ⟨i, rest, hd, -⟩⟩ := step_cases h
  · obtain ⟨-, hd⟩ | ⟨-, hd⟩ := decode_of_fetch_badCommand hfetch <;> exact ⟨_, by simp only [headOutcome, hd]; rfl⟩
  · exact ⟨_, headOutcome_of_decode hd⟩

/-- Everything a block step does (R80). -/
theorem step_eq_next_iff {s t : State} :
    step s = .next t ↔
      s.mode = .ready ∧ ∃ o, headOutcome s.inq = some o ∧ s.outRoom o.room = true ∧ t = s.after o := by
  constructor
  · intro h
    obtain ⟨hmode, -⟩ := step_cases h
    obtain ⟨o, ho⟩ := headOutcome_of_step h
    rw [step_of_headOutcome hmode ho] at h
    split_ifs at h with hroom
    exact ⟨hmode, o, ho, hroom, (Host.Outcome.next.inj h).symm⟩
  · rintro ⟨hmode, o, ho, hroom, rfl⟩
    rw [step_of_headOutcome hmode ho, if_pos hroom]

theorem blockEvent_eq_some_iff {s t : State} : blockEvent s = some t ↔ step s = .next t := by
  unfold blockEvent
  split <;> simp_all

theorem blockEnabled_iff {s : State} :
    BlockEnabled s ↔ s.mode = .ready ∧ ∃ o, headOutcome s.inq = some o ∧ s.outRoom o.room = true := by
  simp only [BlockEnabled, step_eq_next_iff]
  constructor
  · rintro ⟨t, hmode, o, ho, hroom, -⟩
    exact ⟨hmode, o, ho, hroom⟩
  · rintro ⟨hmode, o, ho, hroom⟩
    exact ⟨_, hmode, o, ho, hroom, rfl⟩

/-! ## Facts about an outcome -/

/-- More words behind those of a command change nothing of its outcome but what is left (R41). -/
theorem headOutcome_append {ws : List Word} {o : HeadOutcome} (h : headOutcome ws = some o) (more : List Word) :
    headOutcome (ws ++ more) = some { o with rest := o.rest ++ more } := by
  obtain ⟨cmd, tail, c, rfl, rfl, ⟨rfl, hop⟩ | ⟨rfl, op, hop, hres⟩⟩ | ⟨i, rest, rfl, hd⟩ := headOutcome_cases h
  · simp [headOutcome, decode_illegalOpcode hop, badOutcome]
  · simp [headOutcome, decode_reservedBits hop hres, badOutcome]
  · obtain ⟨hwf, rfl⟩ := encode_of_decode hd
    rw [List.append_assoc]
    exact headOutcome_of_decode (decode_encode hwf (rest ++ more))

/-- The consumed words are the command's, by the length rule of R71. -/
theorem take_commandLength_append_rest {ws : List Word} {o : HeadOutcome} (h : headOutcome ws = some o) :
    ws.take (commandLength ws) ++ o.rest = ws := by
  obtain ⟨cmd, tail, c, rfl, rfl, ⟨rfl, hop⟩ | ⟨rfl, op, hop, hres⟩⟩ | ⟨i, rest, rfl, hd⟩ := headOutcome_cases h
  · simp [commandLength, hop, badOutcome]
  · simp [commandLength, hop, hres, badOutcome]
  · exact (commandLength_of_decode hd).2.symm

theorem length_rest_le {ws : List Word} {o : HeadOutcome} (h : headOutcome ws = some o) : o.rest.length ≤ ws.length := by
  have hlen := congrArg List.length (take_commandLength_append_rest h)
  rw [List.length_append] at hlen
  omega

/-- The response of a rule's answer is as long as R80's room, or it is one fault word. -/
theorem length_response_answerOf_le (i : Instr) :
    ((answerOf i).response i.opcode).length ≤ 1 + i.opcode.nOut := by
  rcases ha : answerOf i with ((c | f) | res)
  · exact Nat.le_add_right ..
  · simp [Answer.response, overflowResponse, Nat.add_comm]
  · simp [Answer.response, okResponse, length_of_answerOf_ok ha, Nat.add_comm]

theorem length_response_le {ws : List Word} {o : HeadOutcome} (h : headOutcome ws = some o) :
    o.response.length ≤ o.room := by
  obtain ⟨cmd, tail, c, -, rfl, -⟩ | ⟨i, rest, rfl, -⟩ := headOutcome_cases h
  · exact le_rfl
  · exact length_response_answerOf_le i

theorem halt_eq_faultStatus {ws : List Word} {o : HeadOutcome} {status : Word} (h : headOutcome ws = some o)
    (hhalt : o.halt = some status) : ∃ opc c, status = faultStatus opc c := by
  obtain ⟨cmd, tail, c, -, rfl, -⟩ | ⟨i, rest, rfl, -⟩ := headOutcome_cases h
  · exact ⟨opcField cmd, c, (Option.some.inj hhalt).symm⟩
  · rcases ha : answerOf i with ((c | f) | res) <;> rw [commandOutcome, ha] at hhalt
    · exact ⟨_, c, (Option.some.inj hhalt).symm⟩
    · cases hhalt
    · cases hhalt

/-! ## Legal states (R34, R36 to R38) -/

/-- The fields of what a fatal fault writes to STATUS (R34, R170). -/
theorem fields_faultStatus (opc : OpcByte) (c : Cause) :
    statusReserved (faultStatus opc c) = 0 ∧ statusHalt (faultStatus opc c) = true ∧
      statusCause (faultStatus opc c) = c.code := by
  cases c <;> revert opc <;> decide +kernel

theorem statusLegal_of_faultStatus {s : State} {opc : OpcByte} {c : Cause} (hmode : s.mode = .halted)
    (hstatus : s.status = faultStatus opc c) : s.statusLegal = true := by
  obtain ⟨hreserved, hhalt, hcause⟩ := fields_faultStatus opc c
  simp [State.statusLegal, hmode, hstatus, hreserved, hhalt, hcause, c.code_range]

/-- The legality of STATUS reads MODE and STATUS alone. -/
theorem statusLegal_congr {s t : State} (hmode : t.mode = s.mode) (hstatus : t.status = s.status) :
    t.statusLegal = s.statusLegal := by
  simp only [State.statusLegal, hmode, hstatus]

theorem legal_iff {s : State} :
    s.legal = true ↔ s.statusLegal = true ∧ s.inRoom 0 = true ∧ s.outRoom 0 = true := by
  simp only [State.legal, State.queuesLegal, Bool.and_eq_true]

theorem legal_reset : State.reset.legal = true := by decide

/-- A step writes STATUS only as it halts, takes words from INQ, and puts no more into OUTQ than it has room for. -/
theorem legal_of_step {s t : State} (hs : s.legal = true) (hstep : step s = .next t) : t.legal = true := by
  obtain ⟨hstatus, hin, -⟩ := legal_iff.mp hs
  obtain ⟨-, o, ho, hroom, rfl⟩ := step_eq_next_iff.mp hstep
  refine legal_iff.mpr ⟨?_, inRoom_mono (by simpa using length_rest_le ho) hin, outRoom_mono ?_ hroom⟩
  · cases hhalt : o.halt with
    | none =>
      rw [statusLegal_congr (s := s) (by simp [hhalt]) (by simp [hhalt]), hstatus]
    | some status =>
      obtain ⟨opc, c, rfl⟩ := halt_eq_faultStatus ho hhalt
      exact statusLegal_of_faultStatus (opc := opc) (c := c) (by simp [hhalt]) (by simp [hhalt])
  · simpa using length_response_le ho

/-- Every event of block or host keeps a state legal. -/
theorem legal_of_fire {e : Event} {s t : State} (hs : s.legal = true) (h : fire e s = some t) : t.legal = true := by
  obtain ⟨hstatus, hin, hout⟩ := legal_iff.mp hs
  cases e with
  | block => exact legal_of_step hs (blockEvent_eq_some_iff.mp h)
  | push w =>
    obtain ⟨hroom, rfl⟩ := push_eq_some_iff.mp h
    exact legal_iff.mpr ⟨hstatus, inRoom_mono (by simp) hroom, hout⟩
  | pop =>
    obtain ⟨⟨w, t'⟩, hpop, rfl⟩ := Option.map_eq_some_iff.mp h
    obtain ⟨rest, hq, rfl⟩ := pop_eq_some_iff.mp hpop
    exact legal_iff.mpr ⟨hstatus, hin, outRoom_mono (by simp [hq]) hout⟩
  | readStatus =>
    cases h
    exact hs
  | reset =>
    rw [fire_reset] at h
    cases h
    exact legal_reset

theorem legal_of_reachable {s : State} (h : Reachable s) : s.legal = true := by
  induction h with
  | reset => exact legal_reset
  | fire e _ hfire ih => exact legal_of_fire ih hfire

/-- A STATUS whose every field is 0 is 0 (R34, R36). -/
theorem status_eq_zero {status : Word} (hreserved : statusReserved status = 0) (hhalt : statusHalt status = false)
    (hcause : statusCause status = 0) (hopc : statusOpc status = 0) : status = 0 := by
  refine BitVec.eq_of_getLsbD_eq fun k hk => ?_
  have hmask : (0xFFFF000E#32).getLsbD k = decide (1 ≤ k ∧ k < 4 ∨ 16 ≤ k) := by
    revert k
    decide
  rw [BitVec.ofNat_eq_ofNat, BitVec.getLsbD_zero]
  by_cases hres : 1 ≤ k ∧ k < 4 ∨ 16 ≤ k
  · simpa [statusReserved, hmask, hres] using congrArg (·.getLsbD k) hreserved
  by_cases h0 : k = 0
  · exact h0 ▸ hhalt
  by_cases h8 : k < 8
  · simpa [statusCause, show k - 4 < 4 by omega, show 4 + (k - 4) = k by omega] using congrArg (·.getLsbD (k - 4)) hcause
  · simpa [statusOpc, show k - 8 < 8 by omega, show 8 + (k - 8) = k by omega] using congrArg (·.getLsbD (k - 8)) hopc

theorem statusLegal_ready {s : State} (hlegal : s.statusLegal = true) (hmode : s.mode = .ready) : s.status = 0 := by
  simp only [State.statusLegal, hmode, Bool.and_eq_true, beq_iff_eq, Bool.not_eq_true'] at hlegal
  obtain ⟨hreserved, ⟨hhalt, hcause⟩, hopc⟩ := hlegal
  exact status_eq_zero hreserved hhalt hcause hopc

theorem statusLegal_halted {s : State} (hlegal : s.statusLegal = true) (hmode : s.mode = .halted) :
    statusHalt s.status = true ∧ 2 ≤ (statusCause s.status).toNat ∧ (statusCause s.status).toNat ≤ 9 := by
  simp only [State.statusLegal, hmode, Bool.and_eq_true, decide_eq_true_eq] at hlegal
  exact hlegal.2

theorem statusReserved_of_legal {s : State} (hlegal : s.statusLegal = true) : statusReserved s.status = 0 := by
  rw [State.statusLegal, Bool.and_eq_true, beq_iff_eq] at hlegal
  exact hlegal.1

end Sys2Proof.Machine

section
open Sys2Proof Sys2Proof.Machine

/-- Settles O17, by evaluation: both queues are empty and STATUS is 0. -/
theorem resetIsLegal : Obligations.ResetIsLegal := legal_reset

/-- Settles O18, from everything a step does. -/
theorem stepKeepsLegal : Obligations.StepKeepsLegal := fun _ _ => legal_of_step

/-- Settles O19, by induction on the events from reset; a legal STATUS is 0 while READY. -/
theorem reachableStatesAreLegal : Obligations.ReachableStatesAreLegal := by
  intro s hs
  obtain ⟨hstatus, hin, hout⟩ := legal_iff.mp (legal_of_reachable hs)
  exact ⟨statusReserved_of_legal hstatus, statusLegal_ready hstatus, statusLegal_halted hstatus, hin, hout⟩

end

/-! # Sequences of commands and of events (R37, R38, R43, R61, R82) -/

namespace Sys2Proof.Machine

/-! ## Commands back to back -/

/-- A command that answers without a fault answers N_out words behind its status word (R76, R77). -/
theorem Answers.length_eq {i : Instr} {ws : List Word} (h : Answers i ws) : ws.length = 1 + i.opcode.nOut := by
  obtain ⟨res, ha, rfl⟩ | ⟨f, -, rfl⟩ := answers_iff.mp h
  · rw [okResponse, List.length_cons, length_of_answerOf_ok ha, Nat.add_comm]
  · rw [overflowResponse, List.length_cons, List.length_replicate, Nat.add_comm]

/-- The step of a command that answers. -/
theorem step_of_answers {i : Instr} {resp rest : List Word} {s : State} (h : Answers i resp) (hwf : i.wellFormed = true)
    (hmode : s.mode = .ready) (hinq : s.inq = encode i ++ rest) (hroom : s.outRoom resp.length = true) :
    step s = .next { s with inq := rest, outq := s.outq ++ resp } := by
  have hdecode : decode s.inq = .ok (i, rest) := hinq ▸ decode_encode hwf rest
  rw [step_of_decode hmode hdecode (h.length_eq ▸ hroom), h]
  rfl

theorem run_succ_of_step {M : Host.Core} {s t : M.State} (h : M.step s = .next t) (n : Nat) :
    M.run (n + 1) s = M.run n t := by
  rw [Host.Core.run, h]

theorem run_backToBack {is : List Instr} {resps : List (List Word)} (h : List.Forall₂ Answers is resps)
    (hwf : ∀ i ∈ is, i.wellFormed = true) (rest : List Word) {s : State} (hmode : s.mode = .ready)
    (hinq : s.inq = is.flatMap encode ++ rest) (hroom : s.outRoom resps.flatten.length = true) :
    Sys2Proof.core.run is.length s = .next { s with inq := rest, outq := s.outq ++ resps.flatten } := by
  induction h generalizing s with
  | nil =>
    obtain rfl : s.inq = rest := hinq
    simp [Host.Core.run]
  | @cons i resp is resps hi _ ih =>
    obtain ⟨hwfi, hwfs⟩ := List.forall_mem_cons.mp hwf
    rw [List.flatMap_cons, List.append_assoc] at hinq
    rw [List.flatten_cons, List.length_append] at hroom
    have hstep := step_of_answers hi hwfi hmode hinq (outRoom_mono (by omega) hroom)
    have hrest := ih hwfs (s := { s with inq := is.flatMap encode ++ rest, outq := s.outq ++ resp }) hmode rfl
      (outRoom_mono (by simp [Nat.add_assoc]) hroom)
    rw [List.flatten_cons, ← List.append_assoc]
    exact (run_succ_of_step (M := Sys2Proof.core) hstep _).trans hrest

/-! ## Queues -/

/-- From `s` to `t` the words `pushed` entered INQ behind and `taken` left it at the head, and `given` entered OUTQ behind and
`popped` left it at the head. -/
structure Moves (s t : State) (taken given pushed popped : List Word) : Prop where
  inq : s.inq ++ pushed = taken ++ t.inq
  outq : s.outq ++ given = popped ++ t.outq

theorem Moves.refl (s : State) : Moves s s [] [] [] [] := ⟨List.append_nil _, List.append_nil _⟩

theorem Moves.trans {s t u : State} {taken given pushed popped taken' given' pushed' popped' : List Word}
    (h : Moves s t taken given pushed popped) (h' : Moves t u taken' given' pushed' popped') :
    Moves s u (taken ++ taken') (given ++ given') (pushed ++ pushed') (popped ++ popped') where
  inq := by rw [← List.append_assoc, h.inq, List.append_assoc, h'.inq, List.append_assoc]
  outq := by rw [← List.append_assoc, h.outq, List.append_assoc, h'.outq, List.append_assoc]

/-- What an event moves (R37, R38). -/
theorem moves_of_fire {e : Event} {s t : State} (he : e ≠ .reset) (h : fire e s = some t) :
    Moves s t (takenBy e s) (givenBy e s) (pushedBy e) (poppedBy e s) := by
  cases e with
  | block =>
    obtain ⟨-, o, ho, -, rfl⟩ := step_eq_next_iff.mp (blockEvent_eq_some_iff.mp h)
    rw [givenBy_block h (after_outq _ o)]
    exact ⟨(List.append_nil _).trans (take_commandLength_append_rest ho).symm, rfl⟩
  | push w =>
    obtain ⟨-, rfl⟩ := push_eq_some_iff.mp h
    exact ⟨rfl, List.append_nil _⟩
  | pop =>
    obtain ⟨⟨w, t'⟩, hpop, rfl⟩ := Option.map_eq_some_iff.mp h
    obtain ⟨rest, hq, rfl⟩ := pop_eq_some_iff.mp hpop
    exact ⟨List.append_nil _, by simp [poppedBy, hq]⟩
  | readStatus =>
    cases h
    exact .refl s
  | reset => exact absurd rfl he

theorem moves_of_runEvents {es : List Event} {s t : State} {popped : List Word} (hes : Event.reset ∉ es)
    (h : runEvents es s = some (t, popped)) :
    Moves s t (traceOf takenBy es s) (traceOf givenBy es s) (pushedWords es) popped := by
  induction es generalizing s popped with
  | nil =>
    cases h
    exact .refl _
  | cons e es ih =>
    obtain ⟨hne, hrest⟩ := List.ne_and_not_mem_of_not_mem_cons hes
    obtain ⟨s', vs, hfire, hrun, rfl⟩ := runEvents_cons h
    rw [traceOf_cons hfire, traceOf_cons hfire]
    exact (moves_of_fire hne.symm hfire).trans (ih hrest hrun)

/-- A trace of which no event has a part is empty. -/
theorem traceOf_eq_nil {f : Event → State → List Word} {es : List Event} (hf : ∀ e ∈ es, ∀ s, f e s = []) (s : State) :
    traceOf f es s = [] := by
  induction es generalizing s with
  | nil => rfl
  | cons e es ih =>
    obtain ⟨he, hes⟩ := List.forall_mem_cons.mp hf
    unfold traceOf
    split
    · rfl
    · rw [he, ih hes, List.append_nil]

theorem takenBy_eq_nil {e : Event} (he : e ≠ .block) (s : State) : takenBy e s = [] := by
  cases e with
  | block => exact absurd rfl he
  | push | pop | readStatus | reset => rfl

theorem givenBy_eq_nil {e : Event} (he : e ≠ .block) (s : State) : givenBy e s = [] := by
  cases e with
  | block => exact absurd rfl he
  | push | pop | readStatus | reset => rfl

/-! ## The response stream -/

/-- The responses of at most `n` steps on the words `ws`, up to the first fatal fault, whatever room there is in OUTQ. -/
def stream : Nat → List Word → List Word
  | 0, _ => []
  | n + 1, ws =>
    match headOutcome ws with
    | none => []
    | some o => o.response ++ if o.halt.isSome then [] else stream n o.rest

theorem stream_succ {ws : List Word} {o : HeadOutcome} (h : headOutcome ws = some o) (n : Nat) :
    stream (n + 1) ws = o.response ++ if o.halt.isSome then [] else stream n o.rest := by
  simp only [stream, h]

/-- More steps on more words extend the stream. -/
theorem stream_prefix {m n : Nat} {ws ws' : List Word} (hmn : m ≤ n) (h : ws <+: ws') : stream m ws <+: stream n ws' := by
  induction m generalizing n ws ws' with
  | zero => exact List.nil_prefix
  | succ m ih =>
    obtain ⟨n, rfl⟩ := Nat.exists_eq_add_of_le' hmn
    cases ho : headOutcome ws with
    | none => simp only [stream, ho, List.nil_prefix]
    | some o =>
      obtain ⟨more, rfl⟩ := h
      rw [← Nat.add_assoc, stream_succ ho, stream_succ (headOutcome_append ho more)]
      refine (List.prefix_append_right_inj _).mpr ?_
      split
      · exact List.nil_prefix
      · exact ih (by omega) (List.prefix_append ..)

/-- What a run gives the host is a stream of the words it had and pushed. -/
theorem exists_stream_of_runEvents {es : List Event} {s t : State} {popped : List Word} (hes : Event.reset ∉ es)
    (h : runEvents es s = some (t, popped)) :
    ∃ n, popped ++ t.outq = s.outq ++ if s.mode = .ready then stream n (s.inq ++ pushedWords es) else [] := by
  induction es generalizing s popped with
  | nil =>
    cases h
    exact ⟨0, by simp [stream]⟩
  | cons e es ih =>
    obtain ⟨hne, hrest⟩ := List.ne_and_not_mem_of_not_mem_cons hes
    obtain ⟨s', vs, hfire, hrun, rfl⟩ := runEvents_cons h
    obtain ⟨n, hn⟩ := ih hrest hrun
    rw [List.append_assoc, hn, show pushedWords (e :: es) = pushedBy e ++ pushedWords es from rfl]
    cases e with
    | block =>
      obtain ⟨hmode, o, ho, -, rfl⟩ := step_eq_next_iff.mp (blockEvent_eq_some_iff.mp hfire)
      refine ⟨n + 1, ?_⟩
      rw [if_pos hmode, pushedBy, List.nil_append, stream_succ (headOutcome_append ho _)]
      cases hhalt : o.halt <;> simp [hhalt, hmode, poppedBy]
    | push w =>
      obtain ⟨-, rfl⟩ := push_eq_some_iff.mp hfire
      exact ⟨n, by simp [poppedBy, pushedBy]⟩
    | pop =>
      obtain ⟨⟨w, t'⟩, hpop, rfl⟩ := Option.map_eq_some_iff.mp hfire
      obtain ⟨rest, hq, rfl⟩ := pop_eq_some_iff.mp hpop
      exact ⟨n, by simp [poppedBy, pushedBy, hq]⟩
    | readStatus =>
      cases hfire
      exact ⟨n, by simp [poppedBy, pushedBy]⟩
    | reset => exact absurd rfl hne

theorem exists_stream_of_run_from_reset {es : List Event} {t : State} {popped : List Word} (hes : Event.reset ∉ es)
    (h : runEvents es State.reset = some (t, popped)) : ∃ n, popped ++ t.outq = stream n (pushedWords es) := by
  simpa using exists_stream_of_runEvents hes h

/-! ## Fairness -/

/-- A push, a pop and a STATUS read leave the block step enabled (R82). -/
theorem blockEnabled_of_fire {e : Event} {s t : State} (hblock : e ≠ .block) (hreset : e ≠ .reset)
    (h : fire e s = some t) (hs : BlockEnabled s) : BlockEnabled t := by
  obtain ⟨hmode, o, ho, hroom⟩ := blockEnabled_iff.mp hs
  cases e with
  | block => exact absurd rfl hblock
  | push w =>
    obtain ⟨-, rfl⟩ := push_eq_some_iff.mp h
    exact blockEnabled_iff.mpr ⟨hmode, _, headOutcome_append ho [w], hroom⟩
  | pop =>
    obtain ⟨⟨w, t'⟩, hpop, rfl⟩ := Option.map_eq_some_iff.mp h
    obtain ⟨rest, hq, rfl⟩ := pop_eq_some_iff.mp hpop
    exact blockEnabled_iff.mpr ⟨hmode, o, ho, outRoom_mono (by simp [hq]) hroom⟩
  | readStatus =>
    cases h
    exact hs
  | reset => exact absurd rfl hreset

/-- On a run, an enabled block step stays enabled as long as neither it nor a RESET happens. -/
theorem blockEnabled_of_isRun {states : Nat → State} {events : Nat → Event} (hrun : IsRun states events) {n m : Nat}
    (hnm : n ≤ m) (hn : BlockEnabled (states n))
    (hevents : ∀ k, n ≤ k → events k ≠ .block ∧ events k ≠ .reset) : BlockEnabled (states m) := by
  induction m, hnm using Nat.le_induction with
  | base => exact hn
  | succ k hk ih => exact blockEnabled_of_fire (hevents k hk).1 (hevents k hk).2 (hrun.next k) ih

end Sys2Proof.Machine

section
open Sys2Proof Sys2Proof.Machine

/-- Settles O14, by induction on the commands: each decodes from its encoding and appends its response. -/
theorem backToBackCommands : Obligations.BackToBackCommands :=
  fun _ _ rest _ h hwf hmode hinq hroom => run_backToBack h hwf rest hmode hinq hroom

/-- Settles O22, by induction on the events, from what each event moves. -/
theorem queuesAreFifo : Obligations.QueuesAreFifo := by
  intro s t es popped hes hrun
  obtain ⟨hinq, houtq⟩ := moves_of_runEvents hes hrun
  refine ⟨hinq, houtq, fun hblock => ?_⟩
  have hne : ∀ e ∈ es, e ≠ .block := fun e he heq => hblock (heq ▸ he)
  rw [traceOf_eq_nil (fun e he => takenBy_eq_nil (hne e he)), List.nil_append] at hinq
  rw [traceOf_eq_nil (fun e he => givenBy_eq_nil (hne e he)), List.append_nil] at houtq
  exact ⟨hinq.symm, houtq⟩

/-- Settles O23: both streams begin the stream of the longer input over the larger number of steps. -/
theorem streamIndependentOfInterleaving : Obligations.StreamIndependentOfInterleaving := by
  intro es₁ es₂ t₁ t₂ ws₁ ws₂ hes₁ hes₂ hpushed hrun₁ hrun₂
  obtain ⟨n₁, h₁⟩ := exists_stream_of_run_from_reset hes₁ hrun₁
  obtain ⟨n₂, h₂⟩ := exists_stream_of_run_from_reset hes₂ hrun₂
  rw [h₁, h₂]
  exact List.prefix_or_prefix_of_prefix (stream_prefix (le_max_left n₁ n₂) hpushed)
    (stream_prefix (le_max_right n₁ n₂) List.prefix_rfl)

/-- Settles O24: without a block step or a RESET the step would stay enabled, and weak fairness gives one. -/
theorem fairBlockProgress : Obligations.FairBlockProgress := by
  intro states events hrun hfair n hn
  by_contra hnone
  have hevents : ∀ k, n ≤ k → events k ≠ .block ∧ events k ≠ .reset :=
    fun k hk => ⟨fun h => hnone ⟨k, hk, .inl h⟩, fun h => hnone ⟨k, hk, .inr h⟩⟩
  obtain ⟨m, hnm, hblock⟩ := hfair n fun m hnm => blockEnabled_of_isRun hrun hnm hn hevents
  exact (hevents m hnm).1 hblock

end

/-! # The six codec commands, bit by bit (R91 to R96) -/

namespace Sys2Proof.Machine

/-- The signed bounds of R92 as exact rationals, both sides doubled in `fitsSigned`. -/
theorem fitsSigned_iff_rat {n : Int} {w : Nat} :
    fitsSigned n w = true ↔
      -(2 : ℚ) ^ ((w : ℤ) - 1) ≤ (n : ℚ) ∧ (n : ℚ) ≤ (2 : ℚ) ^ ((w : ℤ) - 1) - 1 := by
  have hpow : (2 : ℚ) ^ ((w : ℤ) - 1) = (2 : ℚ) ^ w / 2 := by
    rw [zpow_sub_one₀ (by norm_num), zpow_natCast, div_eq_mul_inv]
  have hlow : -(2 ^ w : Int) ≤ 2 * n ↔ -(2 : ℚ) ^ w ≤ 2 * n := by exact_mod_cast Iff.rfl
  have hhigh : 2 * n ≤ (2 ^ w : Int) - 2 ↔ (2 * n : ℚ) ≤ 2 ^ w - 2 := by exact_mod_cast Iff.rfl
  rw [fitsSigned_iff, hpow, hlow, hhigh]
  constructor <;> rintro ⟨h1, h2⟩ <;> constructor <;> linarith

/-- The signed bounds of R96 as integers, for a field that is not empty. -/
theorem fitsSigned_iff_int {n : Int} {w : Nat} (hw : 0 < w) :
    fitsSigned n w = true ↔ -2 ^ (w - 1) ≤ n ∧ n ≤ 2 ^ (w - 1) - 1 := by
  obtain ⟨k, rfl⟩ := Nat.exists_eq_add_of_le' hw
  rw [fitsSigned_iff, Nat.add_sub_cancel, pow_succ]
  omega

theorem fitsSigned_zero (n : Int) : fitsSigned n 0 = false := by
  rw [← Bool.not_eq_true, fitsSigned_iff]
  omega

/-- A result of GETU is its field, zero-extended. -/
theorem u64_getUnsigned (v : DWord) (w l : Nat) : u64 (getUnsigned v w l) = (v.extractLsb' l w).setWidth 64 := by
  rw [u64, BitVec.ofInt_natCast, getUnsigned_eq_toNat_extractLsb', BitVec.ofNat_toNat]

/-- A result of GETS is its field, sign-extended. -/
theorem u64_getSigned (v : DWord) (w l : Nat) : u64 (getSigned v w l) = (v.extractLsb' l w).signExtend 64 := by
  rw [u64, getSigned_eq_toInt_extractLsb', BitVec.signExtend]

/-- The bits of an updated word (R95): the new value's in the field, and the word's outside it. -/
theorem getLsbD_setField (v : DWord) {w l bits : Nat} (h : l + w ≤ 64) (hb : bits < 2 ^ w) (k : Nat) :
    (setField v w l bits).getLsbD k = if l ≤ k ∧ k < l + w then bits.testBit (k - l) else v.getLsbD k := by
  simp only [setField, BitVec.getLsbD_or, BitVec.getLsbD_and, BitVec.getLsbD_not, BitVec.getLsbD_ofNat, testBit_fieldMask,
    Nat.testBit_mul_two_pow]
  split_ifs with hin
  · simp [hin, show k < 64 by omega]
  · have hout : (decide (l ≤ k) && bits.testBit (k - l)) = false := by
      by_cases hl : l ≤ k
      · simp [Nat.testBit_lt_two_pow (hb.trans_le (Nat.pow_le_pow_right (by norm_num) (show w ≤ k - l by omega)))]
      · simp [hl]
    by_cases hk : k < 64
    · simp [hin, hout, hk]
    · simp [hk, BitVec.getLsbD_of_ge v k (by omega)]

/-- The low `w` bits of a value are those NEWS stores. -/
theorem testBit_toInt_emod (value : DWord) {w j : Nat} (hw : w ≤ 64) (hj : j < w) :
    (value.toInt % 2 ^ w).toNat.testBit j = value.getLsbD j := by
  rw [toNat_emod_two_pow, ← BitVec.getLsbD, ← BitVec.signExtend, BitVec.getLsbD_signExtend]
  simp [hj, show j < 64 by omega]

end Sys2Proof.Machine

section
open Sys2Proof Sys2Proof.Machine

/-- Settles O25: the rule's comparison is the statement's. -/
theorem fitsuResult : Obligations.FitsuResult := by
  intro w n hw
  rw [answers_cons_iff_ok (op := .fitsu) rfl (by decide), answerOf, fitsuAnswer, if_neg hw.not_gt]
  simp [boolWord, fitsUnsigned]

/-- Settles O26: the rule compares the doubled integers, which decides the rational bounds at every width. -/
theorem fitssResult : Obligations.FitssResult := by
  intro w n hw
  rw [answers_cons_iff_ok (op := .fitss) rfl (by decide), answerOf, fitssAnswer, if_neg hw.not_gt]
  simp only [boolWord, s64, fitsSigned_iff_rat]

/-- Settles O27: the result is the field, zero-extended. -/
theorem getuResult : Obligations.GetuResult := by
  intro w l word h
  refine ⟨_, fun k => ?_, answers_getu h word⟩
  rw [u64_getUnsigned, BitVec.getLsbD_setWidth, BitVec.getLsbD_extractLsb']
  by_cases hk : k < w
  · simp [hk, show k < 64 by omega]
  · simp [hk]

/-- Settles O28: the result is the field, sign-extended. -/
theorem getsResult : Obligations.GetsResult := by
  intro w l word h
  refine ⟨_, fun k => ?_, answers_gets h word⟩
  rw [u64_getSigned, BitVec.getLsbD_signExtend, BitVec.msb_eq_getLsbD_last, BitVec.getLsbD_extractLsb',
    BitVec.getLsbD_extractLsb']
  rcases Nat.eq_zero_or_pos w with rfl | hw
  · simp
  · split_ifs with hk
    · simp [hk, hw, show min k (w - 1) = k by omega]
    · simp [hw, show min k (w - 1) = w - 1 by omega]

/-- Settles O29: the update's bits are the value's in the field. -/
theorem newuResult : Obligations.NewuResult := by
  intro w l word value h
  refine ⟨fun hfit => ?_, fun hover => ?_⟩
  · have hlt : value.toNat < 2 ^ w := fitsUnsigned_iff.mp (decide_eq_true hfit)
    exact ⟨_, getLsbD_setField word (by omega) hlt,
      (answers_newu_iff h).mpr ⟨fitsUnsigned_iff.mpr hlt, join64_words _⟩⟩
  · rw [show [0x00001411, 0, 0] = overflowResponse .newu 0 by decide]
    refine answers_of_overflow (i := .newu w l word value) ?_
    rw [answerOf, newuAnswer, if_neg h.not_gt, newUnsigned, if_neg (by simp [fitsUnsigned]; omega)]
    rfl

/-- Settles O30: the update's bits are the value's low bits in the field. -/
theorem newsResult : Obligations.NewsResult := by
  intro w l word value h
  refine ⟨fun hw hlow hhigh => ?_, fun hover => ?_⟩
  · have hfit := (fitsSigned_iff_int hw).mpr ⟨hlow, hhigh⟩
    refine ⟨_, fun k => ?_, (answers_news_iff h).mpr ⟨hfit, join64_words _⟩⟩
    rw [getLsbD_setField word (by omega) (toNat_emod_two_pow_lt _ w)]
    split_ifs with hin
    · exact testBit_toInt_emod value (by omega) (by omega)
    · rfl
  · have hmisfit : fitsSigned value.toInt w = false := by
      rcases Nat.eq_zero_or_pos w with rfl | hw
      · exact fitsSigned_zero _
      · rw [← Bool.not_eq_true, fitsSigned_iff_int hw]
        omega
    rw [show [0x00001511, 0, 0] = overflowResponse .news 0 by decide]
    refine answers_of_overflow (i := .news w l word value) ?_
    rw [answerOf, newsAnswer, if_neg h.not_gt, newSigned, s64, if_neg (by simp [hmisfit])]
    rfl

end

/-! # The operators round the exact result once (R12) -/

namespace Sys2Proof.Machine.Binary32

/-- A word of magnitude 0 is a zero of its sign. -/
theorem eq_zero_of_magnitude {u : Word} (h : magnitude u = 0) :
    u = if signBit u then 0x80000000 else 0x00000000 := by
  have hexp : expField u = u.toNat / 2 ^ 23 % 2 ^ 8 := by
    rw [expField, BitVec.extractLsb'_toNat, Nat.shiftRight_eq_div_pow]
  have hfrac : fracField u = u.toNat % 2 ^ 23 := by
    rw [fracField, BitVec.extractLsb'_toNat, Nat.shiftRight_zero]
  have hsign : signBit u = decide (u.toNat / 2 ^ 31 % 2 = 1) := Nat.testBit_eq_decide_div_mod_eq
  have hlt := u.isLt
  have hfields : expField u = 0 ∧ fracField u = 0 := by
    unfold magnitude at h
    split_ifs at h with hexp0
    · exact ⟨hexp0, h⟩
    · simp at h
  obtain ⟨hexp0, hfrac0⟩ := hfields
  refine BitVec.eq_of_toNat_eq ?_
  rw [hsign]
  by_cases hbit : u.toNat / 2 ^ 31 % 2 = 1
  · rw [decide_eq_true hbit, if_pos rfl]
    change u.toNat = 2 ^ 31
    omega
  · rw [decide_eq_false hbit, if_neg Bool.false_ne_true]
    change u.toNat = 0
    omega

theorem ofBits_zero (neg : Bool) : ofBits neg 0 = if neg then 0x80000000 else 0x00000000 := by
  cases neg <;> decide

/-- A magnitude other than 0 is rounded as the rational it stands for. -/
theorem fl_eq_flRat {neg : Bool} {num den : Nat} {q : ℚ} (hd : 0 < den)
    (hq : q * 2 ^ 149 = ((if neg then -num else num : Int) : ℚ) / den) (hne : q ≠ 0) : fl neg num den = flRat q := by
  have hnum : 0 < num := by
    refine Nat.pos_of_ne_zero fun h0 => hne ?_
    simpa [h0] using hq
  rw [flRat_eq_fl hd hq]
  cases neg <;> simp [hnum, (Int.natCast_nonneg num).not_gt]

theorem add_mul_units (x y : Word) : (toRat x + toRat y) * 2 ^ 149 = ((scaled x + scaled y : Int) : ℚ) := by
  simp only [toRat]
  push_cast
  field_simp

theorem toRat_add_eq_zero_iff {x y : Word} : toRat x + toRat y = 0 ↔ scaled x + scaled y = 0 := by
  rw [← Int.cast_eq_zero (α := ℚ), ← add_mul_units]
  simp

theorem addRaw_eq_flRat {x y : Word} (h : toRat x + toRat y ≠ 0) : addRaw x y = flRat (toRat x + toRat y) := by
  rw [flRat_eq_fl (z := scaled x + scaled y) Nat.one_pos (by rw [add_mul_units, Nat.cast_one, div_one]), addRaw,
    if_neg (mt toRat_add_eq_zero_iff.mpr h)]

/-- An exact zero sum is +0, but for two −0 (R12). -/
theorem addRaw_of_add_eq_zero {x y : Word} (h : toRat x + toRat y = 0) :
    addRaw x y = if x = 0x80000000 ∧ y = 0x80000000 then 0x80000000 else 0x00000000 := by
  have hz := toRat_add_eq_zero_iff.mp h
  rw [addRaw, if_pos hz, ofBits_zero]
  refine if_congr ?_ rfl rfl
  rw [Bool.and_eq_true]
  constructor
  · rintro ⟨hx, hy⟩
    simp only [scaled, hx, hy, if_true] at hz
    have hmx := eq_zero_of_magnitude (u := x) (by omega)
    have hmy := eq_zero_of_magnitude (u := y) (by omega)
    rw [hx, if_pos rfl] at hmx
    rw [hy, if_pos rfl] at hmy
    exact ⟨hmx, hmy⟩
  · rintro ⟨rfl, rfl⟩
    decide

theorem mul_units (x y : Word) :
    toRat x * toRat y * 2 ^ 149 =
      ((if signBit x != signBit y then -(magnitude x * magnitude y : Nat)
        else (magnitude x * magnitude y : Nat) : Int) : ℚ) / (2 ^ 149 : Nat) := by
  simp only [toRat, scaled]
  cases signBit x <;> cases signBit y <;> simp <;> ring

theorem div_units (x : Word) {y : Word} (hy : magnitude y ≠ 0) :
    toRat x / toRat y * 2 ^ 149 =
      ((if signBit x != signBit y then -(magnitude x * 2 ^ 149 : Nat) else (magnitude x * 2 ^ 149 : Nat) : Int) : ℚ) /
        magnitude y := by
  simp only [toRat, scaled]
  cases signBit x <;> cases signBit y <;> simp <;> field_simp <;> norm_num

theorem mulRaw_eq_flRat {x y : Word} (h : toRat x * toRat y ≠ 0) : mulRaw x y = flRat (toRat x * toRat y) :=
  fl_eq_flRat (Nat.two_pow_pos 149) (mul_units x y) h

/-- A zero product has the exclusive-or of the signs (R12). -/
theorem mulRaw_of_mul_eq_zero {x y : Word} (h : toRat x * toRat y = 0) :
    mulRaw x y = if (signBit x != signBit y) then 0x80000000 else 0x00000000 := by
  have hmag : magnitude x * magnitude y = 0 := by
    rw [mul_eq_zero, toRat_eq_zero_iff, toRat_eq_zero_iff] at h
    exact mul_eq_zero.mpr h
  rw [mulRaw, hmag, fl_zero_num, ofBits_zero]

theorem divRaw_eq_flRat {x y : Word} (hx : toRat x ≠ 0) (hy : toRat y ≠ 0) :
    divRaw x y = flRat (toRat x / toRat y) := by
  have hmag := mt toRat_eq_zero_iff.mpr hy
  rw [divRaw, if_neg hmag]
  exact fl_eq_flRat (Nat.pos_of_ne_zero hmag) (div_units x hmag) (div_ne_zero hx hy)

/-- A zero quotient has the exclusive-or of the signs (R12). -/
theorem divRaw_of_eq_zero {x y : Word} (hx : toRat x = 0) (hy : toRat y ≠ 0) :
    divRaw x y = if (signBit x != signBit y) then 0x80000000 else 0x00000000 := by
  rw [divRaw, if_neg (mt toRat_eq_zero_iff.mpr hy), toRat_eq_zero_iff.mp hx, Nat.zero_mul, fl_zero_num, ofBits_zero]

theorem subRaw_eq_flRat {x y : Word} (h : toRat x - toRat y ≠ 0) : subRaw x y = flRat (toRat x - toRat y) := by
  rw [sub_eq_add_neg, ← toRat_negate] at h ⊢
  exact addRaw_eq_flRat h

theorem negate_eq_negZero_iff {y : Word} : negate y = 0x80000000 ↔ y = 0x00000000 := by
  unfold negate
  constructor
  · intro h
    simpa [BitVec.xor_assoc] using congrArg (· ^^^ 0x80000000#32) h
  · rintro rfl
    rfl

/-- An exact zero difference is +0, but for (−0) ⊖ (+0), which the model takes as the sum of two −0 (log entry 6). -/
theorem subRaw_of_sub_eq_zero {x y : Word} (h : toRat x - toRat y = 0) :
    subRaw x y = if x = 0x80000000 ∧ y = 0x00000000 then 0x80000000 else 0x00000000 := by
  rw [sub_eq_add_neg, ← toRat_negate] at h
  rw [subRaw, addRaw_of_add_eq_zero h]
  simp only [negate_eq_negZero_iff]

/-- The bounds of a magnitude, as bounds of the value. -/
theorem within_negate_iff {m x : Word} : Within (negate m) m x ↔ isFinite x = true ∧ |toRat x| ≤ toRat m := by
  rw [abs_le, ← toRat_negate]
  exact ⟨fun ⟨hfin, hlo, hhi⟩ => ⟨hfin, hlo, hhi⟩, fun ⟨hfin, hlo, hhi⟩ => ⟨hfin, hlo, hhi⟩⟩

end Sys2Proof.Machine.Binary32

section
open Sys2Proof.Machine.Binary32

/-- Settles O36: where the exact result is not 0 the operator rounds it, and where it is 0 the operator gives a zero of R12's
sign. -/
theorem operatorsRoundOnce : Obligations.OperatorsRoundOnce := by
  intro x y _ _
  refine ⟨addRaw_eq_flRat, addRaw_of_add_eq_zero, subRaw_eq_flRat, fun h => ?_, mulRaw_eq_flRat, mulRaw_of_mul_eq_zero,
    divRaw_eq_flRat, divRaw_of_eq_zero⟩
  rw [subRaw_of_sub_eq_zero h]
  refine ⟨?_, fun hne => if_neg hne⟩
  split_ifs
  · exact .inr rfl
  · exact .inl rfl

end

/-! # DCTF and DCTI (R127, R129, R131): each result is a chain of sums, checked sum by sum -/

namespace Sys2Proof.Machine
open Binary32

/-! ## Chains of checked sums -/

/-- The sum of four words in the order of R127, without its checks. -/
abbrev sum4 (x1 x2 x3 x4 : Word) : Word := chain4Last addRaw addRaw addRaw x1 x2 x3 x4

/-- The running sums of four words are finite, and so is the last. -/
abbrev SumsFinite (x1 x2 x3 x4 : Word) : Prop := allFinite (chain4 addRaw addRaw addRaw x1 x2 x3 x4) = true

theorem allFinite_append (ws vs : List Word) : allFinite (ws ++ vs) = (allFinite ws && allFinite vs) :=
  List.all_append

theorem sumsFinite_iff {x1 x2 x3 x4 : Word} :
    SumsFinite x1 x2 x3 x4 ↔ isFinite (addRaw x1 x2) = true ∧ isFinite (addRaw (addRaw x1 x2) x3) = true ∧
      isFinite (sum4 x1 x2 x3 x4) = true := by
  simp [SumsFinite, allFinite, chain4, sum4, chain4Last]

theorem toRat_four : toRat four = 4 := by decide +kernel

/-- A finite value divided by 4 is finite. -/
theorem isFinite_divRaw_four {x : Word} (h : isFinite x = true) : isFinite (divRaw x four) = true := by
  have hlt := abs_toRat_lt_of_isFinite h
  rw [(divRaw_roundsTo x (y := four) (by decide +kernel)).finite_iff, isFinite_flRat_iff, toRat_four, abs_div,
    abs_of_pos (by norm_num : (0 : ℚ) < 4)]
  have := abs_nonneg (toRat x)
  linarith

/-- A mean is answered exactly when the running sums are finite; the quotient by 4 then is, too. -/
theorem mean4_eq_ok_iff_sumsFinite {x1 x2 x3 x4 m : Word} :
    mean4 x1 x2 x3 x4 = .ok m ↔ SumsFinite x1 x2 x3 x4 ∧ m = divRaw (sum4 x1 x2 x3 x4) four := by
  rw [mean4_eq_ok_iff, sumsFinite_iff]
  constructor
  · rintro ⟨h2, h3, h4, -, hm⟩
    exact ⟨⟨h2, h3, h4⟩, hm⟩
  · rintro ⟨⟨h2, h3, h4⟩, hm⟩
    exact ⟨h2, h3, h4, isFinite_divRaw_four h4, hm⟩

/-! ## The rules -/

/-- The running sums of DCTF, in the order of R127. -/
def dctfSums (p1 p2 p3 p4 : YppPixel) : List Word :=
  chain4 addRaw addRaw addRaw p1.y p2.y p3.y p4.y ++ chain4 addRaw subRaw subRaw p4.y p3.y p2.y p1.y ++
    chain4 subRaw addRaw subRaw p4.y p3.y p2.y p1.y ++ chain4 subRaw subRaw addRaw p4.y p3.y p2.y p1.y ++
    chain4 addRaw addRaw addRaw p1.pb p2.pb p3.pb p4.pb ++ chain4 addRaw addRaw addRaw p1.pr p2.pr p3.pr p4.pr

/-- The results of DCTF (R127). -/
def dctfBlock (p1 p2 p3 p4 : YppPixel) : TransformBlock :=
  { a := divRaw (sum4 p1.y p2.y p3.y p4.y) four
    b := divRaw (sum4 p4.y p3.y (negate p2.y) (negate p1.y)) four
    c := divRaw (sum4 p4.y (negate p3.y) p2.y (negate p1.y)) four
    d := divRaw (sum4 p4.y (negate p3.y) (negate p2.y) p1.y) four
    avgPb := divRaw (sum4 p1.pb p2.pb p3.pb p4.pb) four
    avgPr := divRaw (sum4 p1.pr p2.pr p3.pr p4.pr) four }

theorem allFinite_dctfSums_iff {p1 p2 p3 p4 : YppPixel} :
    allFinite (dctfSums p1 p2 p3 p4) = true ↔
      SumsFinite p1.y p2.y p3.y p4.y ∧ SumsFinite p4.y p3.y (negate p2.y) (negate p1.y) ∧
      SumsFinite p4.y (negate p3.y) p2.y (negate p1.y) ∧ SumsFinite p4.y (negate p3.y) (negate p2.y) p1.y ∧
      SumsFinite p1.pb p2.pb p3.pb p4.pb ∧ SumsFinite p1.pr p2.pr p3.pr p4.pr := by
  simp only [dctfSums, allFinite_append, Bool.and_eq_true, and_assoc]
  rfl

theorem dctfAnswer_eq_ok_iff_sums {p1 p2 p3 p4 : YppPixel} {t : TransformBlock} :
    dctfAnswer p1 p2 p3 p4 = .ok t.words ↔
      allFinite (p1.words ++ p2.words ++ p3.words ++ p4.words) = true ∧ allFinite (dctfSums p1 p2 p3 p4) = true ∧
      t = dctfBlock p1 p2 p3 p4 := by
  rw [dctfAnswer_eq_ok_iff, allFinite_dctfSums_iff, coefB_eq_mean4, coefC_eq_mean4, coefD_eq_mean4]
  simp only [mean4_eq_ok_iff_sumsFinite]
  obtain ⟨a, b, c, d, pb, pr⟩ := t
  simp only [dctfBlock, TransformBlock.mk.injEq]
  tauto

/-- Six words are a block's. -/
theorem exists_words_eq {res : List Word} (h : res.length = 6) : ∃ t : TransformBlock, res = t.words := by
  match res, h with
  | [a, b, c, d, pb, pr], _ => exact ⟨⟨a, b, c, d, pb, pr⟩, rfl⟩

/-- A command whose rule can stop in one fault alone takes it where the rule does not answer. -/
theorem faultsWith_of_ends {i : Instr} {c : Cause} {P : List Word → Prop} (h : Ends P [.fault c] (answerOf i))
    (hne : ∀ res, answerOf i ≠ .ok res) : FaultsWith i i.opcode.code.toNat c.code.toNat := by
  rcases ha : answerOf i with e | res
  · rw [ha] at h
    obtain rfl := List.mem_singleton.mp h
    exact faultsWith_of_fault ha
  · exact absurd ha (hne res)

/-- The running sums of DCTI, in the order of R129. -/
def dctiSums (t : TransformBlock) : List Word :=
  chain4 subRaw subRaw addRaw t.a t.b t.c t.d ++ chain4 subRaw addRaw subRaw t.a t.b t.c t.d ++
    chain4 addRaw subRaw subRaw t.a t.b t.c t.d ++ chain4 addRaw addRaw addRaw t.a t.b t.c t.d

/-- A pixel of DCTI, its chroma the block's (R129). -/
def dctiPixel (t : TransformBlock) (y : Word) : YppPixel := ⟨y, t.avgPb, t.avgPr⟩

/-- The results of DCTI (R129). -/
def dctiWords (t : TransformBlock) : List Word :=
  (dctiPixel t (sum4 t.a (negate t.b) (negate t.c) t.d)).words ++
    (dctiPixel t (sum4 t.a (negate t.b) t.c (negate t.d))).words ++
    (dctiPixel t (sum4 t.a t.b (negate t.c) (negate t.d))).words ++ (dctiPixel t (sum4 t.a t.b t.c t.d)).words

theorem allFinite_dctiSums_iff {t : TransformBlock} :
    allFinite (dctiSums t) = true ↔
      SumsFinite t.a (negate t.b) (negate t.c) t.d ∧ SumsFinite t.a (negate t.b) t.c (negate t.d) ∧
      SumsFinite t.a t.b (negate t.c) (negate t.d) ∧ SumsFinite t.a t.b t.c t.d := by
  simp only [dctiSums, allFinite_append, Bool.and_eq_true, and_assoc]
  rfl

theorem dctiAnswer_eq_ok_iff {t : TransformBlock} {res : List Word} :
    dctiAnswer t = .ok res ↔
      allFinite t.words = true ∧ allFinite (dctiSums t) = true ∧ res = dctiWords t := by
  unfold dctiAnswer
  split_ifs with hfin
  · simp [raise, hfin]
  · rw [Bool.not_eq_false] at hfin
    simp only [bind_eq_ok_iff, fadd_ok_iff, fsub_ok_iff, exists_and_left, exists_eq_left, and_assoc, Except.ok.injEq,
      allFinite_dctiSums_iff, sumsFinite_iff, hfin, true_and]
    rw [eq_comm (a := res)]
    rfl

end Sys2Proof.Machine

section
open Sys2Proof Sys2Proof.Machine Sys2Proof.Machine.Binary32

/-- Settles O43: the six parts check their running sums, and a finite sum divided by 4 is finite. -/
theorem dctfResult : Obligations.DctfResult := by
  intro p1 p2 p3 p4 hfin
  refine ⟨fun hsums => ?_, fun hsums => ?_⟩
  · exact answers_cons_of_ok (i := .dctf p1 p2 p3 p4) (op := .dctf) (dctfAnswer_eq_ok_iff_sums.mpr ⟨hfin, hsums, rfl⟩) rfl
      (by decide)
  · refine faultsWith_of_ends (i := .dctf p1 p2 p3 p4) (c := .nonFinite) (ends_answerOf _) fun res hres => ?_
    obtain ⟨t, rfl⟩ := exists_words_eq (length_of_answerOf_ok hres)
    obtain ⟨-, hsums', -⟩ := dctfAnswer_eq_ok_iff_sums.mp hres
    exact Bool.false_ne_true (hsums.symm.trans hsums')

/-- Settles O44: the four pixels check their running sums, and the chroma words are the block's. -/
theorem dctiResult : Obligations.DctiResult := by
  intro t hfin
  refine ⟨fun hsums => ?_, fun hsums => ?_⟩
  · exact answers_cons_of_ok (i := .dcti t) (op := .dcti) (dctiAnswer_eq_ok_iff.mpr ⟨hfin, hsums, rfl⟩) rfl (by decide)
  · refine faultsWith_of_ends (i := .dcti t) (c := .nonFinite) (ends_answerOf _) fun res hres => ?_
    obtain ⟨-, hsums', -⟩ := dctiAnswer_eq_ok_iff.mp hres
    exact Bool.false_ne_true (hsums.symm.trans hsums')

end

/-! # The transforms on moderate operands and on dyadic tiles (R127, R129, R131) -/

namespace Sys2Proof.Machine
open Binary32

/-! ## Operands of magnitude at most 2^125 -/

/-- The word of 2^125. -/
def moderateMax : Word := 0x7E000000

theorem within_moderate_iff {x : Word} :
    Within (negate moderateMax) moderateMax x ↔ isFinite x = true ∧ |toRat x| ≤ 2 ^ 125 := by
  rw [within_negate_iff, show toRat moderateMax = 2 ^ 125 by decide +kernel]

/-- Four times 2^125 is still finite, and the sums are monotone. -/
theorem sumsFinite_of_moderate {x1 x2 x3 x4 : Word} (h1 : Within (negate moderateMax) moderateMax x1)
    (h2 : Within (negate moderateMax) moderateMax x2) (h3 : Within (negate moderateMax) moderateMax x3)
    (h4 : Within (negate moderateMax) moderateMax x4) : SumsFinite x1 x2 x3 x4 := by
  obtain ⟨m, hm, -⟩ := mean4_of_within (lo := negate moderateMax) (hi := moderateMax) (by decide +kernel)
    (by decide +kernel) h1 h2 h3 h4
  exact (mean4_eq_ok_iff_sumsFinite.mp hm).1

theorem allFinite_of_moderate {xs : List Word} (h : ∀ x ∈ xs, isFinite x = true ∧ |toRat x| ≤ 2 ^ 125) :
    allFinite xs = true :=
  List.all_eq_true.mpr fun x hx => (h x hx).1

theorem dctfSums_of_moderate {p1 p2 p3 p4 : YppPixel}
    (h : ∀ x ∈ p1.words ++ p2.words ++ p3.words ++ p4.words, isFinite x = true ∧ |toRat x| ≤ 2 ^ 125) :
    allFinite (dctfSums p1 p2 p3 p4) = true := by
  simp only [← within_moderate_iff, YppPixel.words, List.cons_append, List.nil_append, List.forall_mem_cons] at h
  obtain ⟨y1, pb1, pr1, y2, pb2, pr2, y3, pb3, pr3, y4, pb4, pr4, -⟩ := h
  exact allFinite_dctfSums_iff.mpr ⟨sumsFinite_of_moderate y1 y2 y3 y4, sumsFinite_of_moderate y4 y3 y2.negate y1.negate,
    sumsFinite_of_moderate y4 y3.negate y2 y1.negate, sumsFinite_of_moderate y4 y3.negate y2.negate y1,
    sumsFinite_of_moderate pb1 pb2 pb3 pb4, sumsFinite_of_moderate pr1 pr2 pr3 pr4⟩

theorem dctiSums_of_moderate {t : TransformBlock}
    (h : ∀ x ∈ t.words, isFinite x = true ∧ |toRat x| ≤ 2 ^ 125) : allFinite (dctiSums t) = true := by
  simp only [← within_moderate_iff, TransformBlock.words, List.forall_mem_cons] at h
  obtain ⟨a, b, c, d, -⟩ := h
  exact allFinite_dctiSums_iff.mpr ⟨sumsFinite_of_moderate a b.negate c.negate d,
    sumsFinite_of_moderate a b.negate c d.negate, sumsFinite_of_moderate a b c.negate d.negate,
    sumsFinite_of_moderate a b c d⟩

/-! ## Dyadic values: `z / 2^m` with `z` of at most 24 bits is a binary32 value -/

/-- `u` is finite and its value is `z / 2^m`. -/
structure Dyadic (m : Nat) (z : Int) (u : Word) : Prop where
  finite : isFinite u = true
  value : toRat u = z / 2 ^ m

theorem toRat_flRat_of_magnitude {q : ℚ} (h : (magnitude (flRat q) : ℚ) / 2 ^ 149 = |q|) : toRat (flRat q) = q := by
  by_cases hq : q < 0
  · rw [toRat_of_signBit_neg (by simp [hq]), h, abs_of_neg hq, neg_neg]
  · rw [toRat_of_signBit (by simp [hq]), h, abs_of_nonneg (not_lt.mp hq)]

/-- A rounding of a dyadic value is exact (R11). -/
theorem Dyadic.of_roundsTo {m : Nat} {z : Int} {u : Word} (hm : m ≤ 149) (hz : z.natAbs ≤ 2 ^ 24)
    (h : RoundsTo u (z / 2 ^ m)) : Dyadic m z u := by
  obtain ⟨k, hk⟩ := Nat.exists_eq_add_of_le hm
  have hunits : (z / 2 ^ m : ℚ) * 2 ^ 149 = z * 2 ^ k := by
    rw [hk, pow_add]
    field_simp
  have hfl := flRat_eq_fl (q := z / 2 ^ m) (z := z * 2 ^ k) Nat.one_pos (by rw [hunits]; push_cast; ring)
  obtain ⟨hfin, hmag⟩ := magnitude_fl_exact (decide (z * 2 ^ k < 0)) (m := z.natAbs) (e := k) Nat.one_pos
    hz (by omega)
  rw [Nat.mul_one, show z.natAbs * 2 ^ k = (z * 2 ^ k).natAbs by simp [Int.natAbs_mul, Int.natAbs_pow], ← hfl] at hfin hmag
  refine ⟨h.finite_iff.mpr hfin, h.value.trans (toRat_flRat_of_magnitude ?_)⟩
  rw [hmag, Nat.cast_natAbs, Int.cast_abs, Int.cast_mul, Int.cast_pow, Int.cast_ofNat, ← hunits, abs_mul,
    abs_of_pos (by positivity : (0 : ℚ) < 2 ^ 149), mul_div_cancel_right₀ _ (by positivity)]

theorem Dyadic.negate {m : Nat} {z : Int} {u : Word} (h : Dyadic m z u) : Dyadic m (-z) (negate u) :=
  ⟨by rw [isFinite_negate, h.finite], by rw [toRat_negate, h.value]; push_cast; ring⟩

section
variable {m : Nat} (hm : m ≤ 147)
include hm

theorem Dyadic.addRaw {z w : Int} {u v : Word} (hu : Dyadic m z u) (hv : Dyadic m w v) (hzw : (z + w).natAbs ≤ 2 ^ 24) :
    Dyadic m (z + w) (addRaw u v) := by
  refine .of_roundsTo (by omega) hzw ?_
  rw [Int.cast_add, add_div, ← hu.value, ← hv.value]
  exact addRaw_roundsTo u v

theorem Dyadic.divRaw_four {z : Int} {u : Word} (hu : Dyadic m z u) (hz : z.natAbs ≤ 2 ^ 24) :
    Dyadic (m + 2) z (divRaw u four) := by
  refine .of_roundsTo (by omega) hz ?_
  have hdiv : (z : ℚ) / 2 ^ (m + 2) = toRat u / toRat four := by
    rw [hu.value, toRat_four, pow_add]
    field_simp
    norm_num
  rw [hdiv]
  exact divRaw_roundsTo u (by decide +kernel)

/-- Sums of four dyadic values are exact while the numerators stay within 24 bits (R131). -/
theorem Dyadic.sum4 {z1 z2 z3 z4 : Int} {x1 x2 x3 x4 : Word} (h1 : Dyadic m z1 x1) (h2 : Dyadic m z2 x2)
    (h3 : Dyadic m z3 x3) (h4 : Dyadic m z4 x4)
    (hz : z1.natAbs + z2.natAbs + z3.natAbs + z4.natAbs ≤ 2 ^ 24) :
    SumsFinite x1 x2 x3 x4 ∧ Dyadic m (z1 + z2 + z3 + z4) (sum4 x1 x2 x3 x4) := by
  have hs2 := h1.addRaw hm h2 (by omega)
  have hs3 := hs2.addRaw hm h3 (by omega)
  have hs4 := hs3.addRaw hm h4 (by omega)
  exact ⟨sumsFinite_iff.mpr ⟨hs2.finite, hs3.finite, hs4.finite⟩, hs4⟩

end

/-- A tile in the domain of R131's exact case: luma `n k / 2^m`, and chroma in the range of R128. -/
structure DyadicTile (m : Nat) (n : Fin 4 → Nat) (p1 p2 p3 p4 : YppPixel) : Prop where
  exponent : m ≤ 120
  numerators : ∀ k, n k ≤ 2 ^ 21
  finite : allFinite (p1.words ++ p2.words ++ p3.words ++ p4.words) = true
  chroma : ∀ p ∈ [p1, p2, p3, p4], Within negHalf half p.pb ∧ Within negHalf half p.pr
  y1 : Dyadic m (n 0) p1.y
  y2 : Dyadic m (n 1) p2.y
  y3 : Dyadic m (n 2) p3.y
  y4 : Dyadic m (n 3) p4.y

section
variable {m : Nat} {n : Fin 4 → Nat} {p1 p2 p3 p4 : YppPixel} (h : DyadicTile m n p1 p2 p3 p4)
include h

theorem DyadicTile.numerator_le : n 0 ≤ 2 ^ 21 ∧ n 1 ≤ 2 ^ 21 ∧ n 2 ≤ 2 ^ 21 ∧ n 3 ≤ 2 ^ 21 :=
  ⟨h.numerators 0, h.numerators 1, h.numerators 2, h.numerators 3⟩

/-- The sums of the chroma averages are finite, and so are the averages. -/
theorem DyadicTile.chroma_sums :
    (SumsFinite p1.pb p2.pb p3.pb p4.pb ∧ SumsFinite p1.pr p2.pr p3.pr p4.pr) ∧
    isFinite (dctfBlock p1 p2 p3 p4).avgPb = true ∧ isFinite (dctfBlock p1 p2 p3 p4).avgPr = true := by
  have hchroma := h.chroma
  simp only [List.forall_mem_cons] at hchroma
  obtain ⟨⟨hpb1, hpr1⟩, ⟨hpb2, hpr2⟩, ⟨hpb3, hpr3⟩, ⟨hpb4, hpr4⟩, -⟩ := hchroma
  obtain ⟨pb, hpb, hpbr⟩ := mean4_chroma_range hpb1 hpb2 hpb3 hpb4
  obtain ⟨pr, hpr, hprr⟩ := mean4_chroma_range hpr1 hpr2 hpr3 hpr4
  obtain ⟨hsumPb, rfl⟩ := mean4_eq_ok_iff_sumsFinite.mp hpb
  obtain ⟨hsumPr, rfl⟩ := mean4_eq_ok_iff_sumsFinite.mp hpr
  exact ⟨⟨hsumPb, hsumPr⟩, hpbr.finite, hprr.finite⟩

/-- The four luma coefficients are exact: their numerators are sums of four of at most 21 bits. -/
theorem DyadicTile.coefficients :
    allFinite (dctfSums p1 p2 p3 p4) = true ∧
    Dyadic (m + 2) (n 0 + n 1 + n 2 + n 3) (dctfBlock p1 p2 p3 p4).a ∧
    Dyadic (m + 2) (n 3 + n 2 - n 1 - n 0) (dctfBlock p1 p2 p3 p4).b ∧
    Dyadic (m + 2) (n 3 - n 2 + n 1 - n 0) (dctfBlock p1 p2 p3 p4).c ∧
    Dyadic (m + 2) (n 3 - n 2 - n 1 + n 0) (dctfBlock p1 p2 p3 p4).d := by
  obtain ⟨hn0, hn1, hn2, hn3⟩ := h.numerator_le
  have hm : m ≤ 147 := h.exponent.trans (by norm_num)
  obtain ⟨hchroma, -⟩ := h.chroma_sums
  obtain ⟨hsa, ha⟩ := Dyadic.sum4 hm h.y1 h.y2 h.y3 h.y4 (by omega)
  obtain ⟨hsb, hb⟩ := Dyadic.sum4 hm h.y4 h.y3 h.y2.negate h.y1.negate (by omega)
  obtain ⟨hsc, hc⟩ := Dyadic.sum4 hm h.y4 h.y3.negate h.y2 h.y1.negate (by omega)
  obtain ⟨hsd, hd⟩ := Dyadic.sum4 hm h.y4 h.y3.negate h.y2.negate h.y1 (by omega)
  exact ⟨allFinite_dctfSums_iff.mpr ⟨hsa, hsb, hsc, hsd, hchroma⟩, ha.divRaw_four hm (by omega),
    hb.divRaw_four hm (by omega), hc.divRaw_four hm (by omega),
    hd.divRaw_four hm (by omega)⟩

end

/-- DCTI of exact coefficients gives four times the numerators over `2^(m+2)`. -/
theorem dcti_of_dyadic {m : Nat} (hm : m ≤ 145) {n : Fin 4 → Nat} (hn : ∀ k, n k ≤ 2 ^ 21) {t : TransformBlock}
    (ha : Dyadic (m + 2) (n 0 + n 1 + n 2 + n 3) t.a) (hb : Dyadic (m + 2) (n 3 + n 2 - n 1 - n 0) t.b)
    (hc : Dyadic (m + 2) (n 3 - n 2 + n 1 - n 0) t.c) (hd : Dyadic (m + 2) (n 3 - n 2 - n 1 + n 0) t.d) :
    allFinite (dctiSums t) = true ∧
    toRat (sum4 t.a (negate t.b) (negate t.c) t.d) = n 0 / 2 ^ m ∧
    toRat (sum4 t.a (negate t.b) t.c (negate t.d)) = n 1 / 2 ^ m ∧
    toRat (sum4 t.a t.b (negate t.c) (negate t.d)) = n 2 / 2 ^ m ∧
    toRat (sum4 t.a t.b t.c t.d) = n 3 / 2 ^ m := by
  have hn0 := hn 0
  have hn1 := hn 1
  have hn2 := hn 2
  have hn3 := hn 3
  have hm' : m + 2 ≤ 147 := by omega
  obtain ⟨hs1, h1⟩ := Dyadic.sum4 hm' ha hb.negate hc.negate hd (by omega)
  obtain ⟨hs2, h2⟩ := Dyadic.sum4 hm' ha hb.negate hc hd.negate (by omega)
  obtain ⟨hs3, h3⟩ := Dyadic.sum4 hm' ha hb hc.negate hd.negate (by omega)
  obtain ⟨hs4, h4⟩ := Dyadic.sum4 hm' ha hb hc hd (by omega)
  refine ⟨allFinite_dctiSums_iff.mpr ⟨hs1, hs2, hs3, hs4⟩, ?_, ?_, ?_, ?_⟩
  · rw [h1.value, pow_add]; push_cast; field_simp; ring
  · rw [h2.value, pow_add]; push_cast; field_simp; ring
  · rw [h3.value, pow_add]; push_cast; field_simp; ring
  · rw [h4.value, pow_add]; push_cast; field_simp; ring

end Sys2Proof.Machine

section
open Sys2Proof Sys2Proof.Machine Sys2Proof.Machine.Binary32

/-- Settles O45: sums of four operands stay below 2^128. -/
theorem transformsComplete : Obligations.TransformsComplete := by
  refine ⟨fun p1 p2 p3 p4 h => ?_, fun t h => ?_⟩
  · exact ⟨_, answers_cons_of_ok (i := .dctf p1 p2 p3 p4) (op := .dctf)
      (dctfAnswer_eq_ok_iff_sums.mpr ⟨allFinite_of_moderate h, dctfSums_of_moderate h, rfl⟩) rfl (by decide)⟩
  · exact ⟨_, answers_cons_of_ok (i := .dcti t) (op := .dcti)
      (dctiAnswer_eq_ok_iff.mpr ⟨allFinite_of_moderate h, dctiSums_of_moderate h, rfl⟩) rfl (by decide)⟩

/-- Settles O48: every sum, and every quotient by 4, has a numerator of at most 24 bits and is exact. -/
theorem dyadicTileRoundTrip : Obligations.DyadicTileRoundTrip := by
  intro m n p1 p2 p3 p4 hm hn hfin hchroma hy1 hy2 hy3 hy4
  have hfinite : ∀ x ∈ p1.words ++ p2.words ++ p3.words ++ p4.words, isFinite x = true := List.all_eq_true.mp hfin
  simp only [YppPixel.words, List.cons_append, List.nil_append, List.forall_mem_cons] at hfinite
  obtain ⟨fy1, fpb1, fpr1, fy2, fpb2, fpr2, fy3, fpb3, fpr3, fy4, fpb4, fpr4, -⟩ := hfinite
  have htile : DyadicTile m n p1 p2 p3 p4 := by
    refine ⟨hm, hn, hfin, ?_, ⟨fy1, by rw [hy1, Int.cast_natCast]⟩, ⟨fy2, by rw [hy2, Int.cast_natCast]⟩,
      ⟨fy3, by rw [hy3, Int.cast_natCast]⟩, ⟨fy4, by rw [hy4, Int.cast_natCast]⟩⟩
    simp only [List.forall_mem_cons] at hchroma ⊢
    simp only [within_half_iff]
    tauto
  obtain ⟨hsums, ha, hb, hc, hd⟩ := htile.coefficients
  obtain ⟨-, hpb, hpr⟩ := htile.chroma_sums
  obtain ⟨hinverse, h1, h2, h3, h4⟩ := dcti_of_dyadic (hm.trans (by norm_num)) hn ha hb hc hd
  have hblock := allFinite_words_iff.mpr ⟨ha.finite, hb.finite, hc.finite, hd.finite, hpb, hpr⟩
  exact ⟨dctfBlock p1 p2 p3 p4, dctiPixel _ _, dctiPixel _ _, dctiPixel _ _, dctiPixel _ _,
    answers_cons_of_ok (i := .dctf p1 p2 p3 p4) (op := .dctf) (dctfAnswer_eq_ok_iff_sums.mpr ⟨hfin, hsums, rfl⟩) rfl
      (by decide),
    answers_cons_of_ok (i := .dcti _) (op := .dcti) (dctiAnswer_eq_ok_iff.mpr ⟨hblock, hinverse, rfl⟩) rfl (by decide),
    h1.trans hy1.symm, h2.trans hy2.symm, h3.trans hy3.symm, h4.trans hy4.symm⟩

end

/-! # The operand checks of the F32 commands, and the quantizer's answers (R110, R137, R143, R146, R172, R173) -/

namespace Sys2Proof.Machine
open Binary32

/-! ## NaN and infinite operands -/

/-- A word is NaN or infinite when bits 30:23 are 0xFF (R10). -/
theorem isFinite_eq_false_iff {x : Word} : isFinite x = false ↔ x.extractLsb' 23 8 = 0xFF := by
  rw [isFinite, expField, bne_eq_false_iff_eq, ← BitVec.toNat_inj]
  rfl

theorem allFinite_eq_false_iff {ws : List Word} : allFinite ws = false ↔ ∃ x ∈ ws, x.extractLsb' 23 8 = 0xFF := by
  simp only [allFinite, List.all_eq_false, Bool.not_eq_true, isFinite_eq_false_iff]

/-- A command whose rule begins with the operand check takes NON_FINITE for an operand that fails it (R172, R173). -/
theorem faultsWith_of_nonFinite {i : Instr} {ws : List Word} {a : Answer}
    (hrule : answerOf i = if allFinite ws = false then raise .nonFinite else a)
    (h : ∃ x ∈ ws, x.extractLsb' 23 8 = 0xFF) : FaultsWith i i.opcode.code.toNat 7 :=
  faultsWith_of_fault (c := .nonFinite) (hrule.trans (if_pos (allFinite_eq_false_iff.mpr h)))

/-! ## RGB2YPP's checks -/

theorem denOk_iff {den : Word} : denOk den = true ↔ 1 ≤ den.toNat ∧ den.toNat ≤ 65535 := decide_eq_true_iff

theorem denOk_eq_false_iff {den : Word} : denOk den = false ↔ den.toNat = 0 ∨ 65535 < den.toNat := by
  rw [← Bool.not_eq_true, denOk_iff]
  omega

theorem rgb2yppAnswer_of_den {p : RgbPixel} {den : Word} (h : denOk den = false) :
    rgb2yppAnswer p den = raise .denominator :=
  if_pos h

theorem rgb2yppAnswer_of_sample {p : RgbPixel} {den : Word} (hden : denOk den = true)
    (h : den.toNat < p.r.toNat ∨ den.toNat < p.g.toNat ∨ den.toNat < p.b.toNat) :
    rgb2yppAnswer p den = raise .sampleRange := by
  rw [rgb2yppAnswer, if_neg (by simp [hden])]
  split_ifs
  case neg => omega
  all_goals rfl

/-! ## QUANT and CHRVAL -/

/-- QUANT of a finite block takes LUMA_RANGE exactly where the luma average is out of range (R137). -/
theorem quantAnswer_eq_lumaRange_iff {L : ChromaTable} {t : TransformBlock} (hfin : allFinite t.words = true) :
    quantAnswer L t = .error (.fault .lumaRange) ↔ ¬ Within zero one t.a := by
  by_cases hluma : Within zero one t.a
  · rw [quantAnswer_eq_ok_iff.mpr ⟨⟨hfin, hluma⟩, rfl⟩]
    exact iff_of_false nofun (not_not_intro hluma)
  · refine iff_of_true ?_ hluma
    rw [← lumaCheck_iff (allFinite_words_iff.mp hfin).1, Bool.not_eq_false] at hluma
    rw [quantAnswer, if_neg (by simp [hfin]), if_pos hluma]
    rfl

theorem answers_quant_of_quantizable {t : TransformBlock} (h : Quantizable t) :
    Answers (.quant t) (0x00004000 :: (quantCodes chromaLut t).words) :=
  answers_quant_iff.mpr ⟨h, rfl⟩

theorem answers_chridx_of_finite {x : Word} (hx : isFinite x = true) :
    Answers (.chridx x) [0x00004200, indexWord (ioc chromaLut x)] :=
  answers_cons_of_ok (op := .chridx) (chridxAnswer_of_finite chromaLut hx) rfl (by decide)

theorem toRat_lt_toRat_iff {x y : Word} : toRat x < toRat y ↔ scaled x < scaled y := by
  rw [← not_le, toRat_le_toRat_iff, not_le]

@[simp] theorem indexOf_indexWord (i : Fin 16) : indexOf (indexWord i) = i := by
  rw [indexOf, toNat_indexWord, Fin.ofNat_val_eq_self]

theorem answers_chrval_indexWord (i : Fin 16) : Answers (.chrval (indexWord i)) [0x00004300, chromaLut i] := by
  refine answers_cons_of_ok (op := .chrval) ?_ rfl (by decide)
  rw [answerOf, chrvalAnswer, if_neg (by rw [toNat_indexWord]; omega), indexOf_indexWord, coi]

end Sys2Proof.Machine

section
open Sys2Proof Sys2Proof.Machine Sys2Proof.Machine.Binary32

/-- Settles O38: the operand check is the first of each rule. -/
theorem nonFiniteOperandFaults : Obligations.NonFiniteOperandFaults := by
  refine ⟨fun x => ?_, fun p den h => ?_, fun p1 p2 p3 p4 h => ?_, fun t h => ⟨?_, ?_⟩, fun x h => ?_⟩
  · rw [← Bool.not_eq_false, isFinite_eq_false_iff]
  · exact faultsWith_of_nonFinite (i := .ypp2rgb p den) rfl h
  · exact faultsWith_of_nonFinite (i := .dctf p1 p2 p3 p4) rfl h
  · exact faultsWith_of_nonFinite (i := .dcti t) rfl h
  · exact faultsWith_of_nonFinite (i := .quant t) rfl h
  · exact faultsWith_of_fault (i := .chridx x) (c := .nonFinite) (if_pos (isFinite_eq_false_iff.mpr h))

/-- Settles O40: the denominator is checked before the samples. -/
theorem rgbToYppFaults : Obligations.RgbToYppFaults := by
  refine fun p den => ⟨fun hden => ?_, fun hpos hmax hsample => ?_⟩
  · exact faultsWith_of_fault (i := .rgb2ypp p den) (c := .denominator)
      (rgb2yppAnswer_of_den (denOk_eq_false_iff.mpr hden))
  · exact faultsWith_of_fault (i := .rgb2ypp p den) (c := .sampleRange)
      (rgb2yppAnswer_of_sample (denOk_iff.mpr ⟨hpos, hmax⟩) hsample)

/-- Settles O49: the answered words are the codes, and the luma check is the range of the exact value. -/
theorem quantResult : Obligations.QuantResult := by
  intro t hfin
  obtain ⟨ha, -, -, -, hpb, hpr⟩ := allFinite_words_iff.mp hfin
  refine ⟨fun hlow hhigh => ⟨ioc chromaLut t.avgPb, ioc chromaLut t.avgPr, ?_, answers_chridx_of_finite hpb,
    answers_chridx_of_finite hpr⟩, ?_⟩
  · exact answers_quant_of_quantizable ⟨hfin, within_zero_one_iff.mpr ⟨ha, hlow, hhigh⟩⟩
  · rw [show FaultsWith (.quant t) 0x40 8 ↔ _ from faultsWith_iff (i := .quant t) (c := .lumaRange), answerOf,
      quantAnswer_eq_lumaRange_iff hfin, within_zero_one_iff, not_and_or, not_and_or, not_le, not_le]
    simp [ha]

/-- Settles O51, by evaluating the operations on the three values; the two chroma indices are the table's. -/
theorem quantExamples : Obligations.QuantExamples := by
  refine ⟨by decide +kernel, by decide +kernel, by decide +kernel, indexWord (ioc chromaLut 0),
    indexWord (ioc chromaLut 0), ?_⟩
  have hblock : Quantizable ⟨0x3F000000, 0x3C23D70A, 0x3CF5C28F, 0, 0, 0⟩ :=
    ⟨by decide +kernel, within_zero_one_iff.mpr (by decide +kernel)⟩
  have hluma : u32 (lumaCode 0x3F000000) = 256 := by decide +kernel
  have hdiffs : u32 (diffCode 0x3C23D70A) = 0 ∧ u32 (diffCode 0x3CF5C28F) = 1 ∧ u32 (diffCode 0) = 0 := by decide +kernel
  obtain ⟨hb, hc, hd⟩ := hdiffs
  have hanswer := answers_quant_of_quantizable hblock
  rwa [quantCodes, QuantBlock.words, hluma, hb, hc, hd] at hanswer

/-- Settles O55: the table meets R146 whatever it was built with, and CHRVAL reads the level of its index. -/
theorem chromaTableIsLegal : Obligations.ChromaTableIsLegal := by
  obtain ⟨hfin, hrise⟩ := ChromaTable.ok_iff.mp chromaLut_ok
  refine ⟨hfin, fun i j hij => toRat_lt_toRat_iff.mpr (hrise i j hij), fun i => ?_, answers_chrval_indexWord,
    fun index h => ?_⟩
  · have hlevel := answers_chridx_of_finite (hfin i)
    rwa [ioc_level chromaLut_ok] at hlevel
  · exact faultsWith_of_fault (i := .chrval index) (c := .codeRange) (if_pos h)

end

/-! # YPP2RGB (R114, R115): the intermediates, the samples and their range -/

namespace Sys2Proof.Machine
open Binary32

/-! ## The rule of YPP2RGB -/

/-! The three values that YPP2RGB samples (R114). -/

/-- The value of the red sample, `Y ⊕ (1.402 ⊗ Pr)`. -/
def redValue (p : YppPixel) : Word := addRaw p.y (mulRaw krv p.pr)

/-- The value of the green sample, `(Y ⊖ (0.344136 ⊗ Pb)) ⊖ (0.714136 ⊗ Pr)`. -/
def greenValue (p : YppPixel) : Word := subRaw (subRaw p.y (mulRaw kgu p.pb)) (mulRaw kgv p.pr)

/-- The value of the blue sample, `Y ⊕ (1.772 ⊗ Pb)`. -/
def blueValue (p : YppPixel) : Word := addRaw p.y (mulRaw kbu p.pb)

/-- The intermediates of R114, in its order. -/
def yppSteps (p : YppPixel) : List Word :=
  [mulRaw krv p.pr, redValue p, mulRaw kgu p.pb, subRaw p.y (mulRaw kgu p.pb), mulRaw kgv p.pr, greenValue p,
    mulRaw kbu p.pb, blueValue p]

/-- The sample of a value (R114), without the check of `sampleOf`. -/
def sampleCode (x den : Word) : Int := rha (mulRaw (clamp x zero one) (cvt den.toNat))

/-- The values of R114 are finite where the intermediates are. -/
theorem isFinite_values {p : YppPixel} (h : allFinite (yppSteps p) = true) :
    isFinite (redValue p) = true ∧ isFinite (greenValue p) = true ∧ isFinite (blueValue p) = true := by
  simp only [allFinite, yppSteps, List.all_cons, List.all_nil, Bool.and_eq_true] at h
  tauto

theorem toRat_cvt_den {den : Word} (h : denOk den = true) :
    isFinite (cvt den.toNat) = true ∧ toRat (cvt den.toNat) = den.toNat := by
  obtain ⟨-, hmax⟩ := denOk_iff.mp h
  have hexact := cvt_exact (n := den.toNat) (by rw [Nat.abs_cast]; omega)
  exact ⟨hexact.1, by rw [hexact.2, Int.cast_natCast]⟩

/-- The product of a clamped value and the denominator lies between 0 and the denominator. -/
theorem mulRaw_clamp_within {x den : Word} (hx : isFinite x = true) (hden : denOk den = true) :
    Within zero (cvt den.toNat) (mulRaw (clamp x zero one) (cvt den.toNat)) := by
  obtain ⟨hfin, hval⟩ := toRat_cvt_den hden
  have hclamp := clamp_within (lo := zero) (hi := one) rfl rfl hx (by rw [toRat_zero, toRat_one]; norm_num)
  obtain ⟨-, hlow, hhigh⟩ := within_zero_one_iff.mp hclamp
  have hpos : (0 : ℚ) ≤ den.toNat := by positivity
  refine (mulRaw_roundsTo _ _).within (roundsTo_toRat rfl) (roundsTo_toRat hfin) rfl hfin ?_ ?_
  · rw [toRat_zero, hval]
    positivity
  · rw [hval]
    exact mul_le_of_le_one_left hpos hhigh

theorem sampleOf_eq_ok {x den : Word} (hx : isFinite x = true) (hden : denOk den = true) :
    sampleOf x (cvt den.toNat) = .ok (u32 (sampleCode x den)) := by
  rw [sampleOf, fmul, chk_of_finite (mulRaw_clamp_within hx hden).finite, ok_bind, sampleCode]

/-- `rha` gives a legal denominator back, because `cvt` is exact on it (R13). -/
theorem rha_cvt_den {den : Word} (h : denOk den = true) : rha (cvt den.toNat) = den.toNat :=
  rha_of_abs_sub_lt (by rw [(toRat_cvt_den h).2]; norm_num)

/-- A sample is at most the denominator (R115). -/
theorem sampleCode_range {x den : Word} (hx : isFinite x = true) (hden : denOk den = true) :
    0 ≤ sampleCode x den ∧ sampleCode x den ≤ den.toNat := by
  have hwithin := mulRaw_clamp_within hx hden
  exact ⟨rha_mono (x := zero) hwithin.lower, (rha_mono hwithin.upper).trans_eq (rha_cvt_den hden)⟩

/-- YPP2RGB of finite operands and a legal denominator answers the three samples exactly when every
intermediate is finite. -/
theorem ypp2rgbAnswer_eq_ok_iff {p : YppPixel} {den : Word} {res : List Word}
    (hfin : allFinite [p.y, p.pb, p.pr] = true) (hden : denOk den = true) :
    ypp2rgbAnswer p den = .ok res ↔ allFinite (yppSteps p) = true ∧
      res = [u32 (sampleCode (redValue p) den), u32 (sampleCode (greenValue p) den),
        u32 (sampleCode (blueValue p) den)] := by
  rw [ypp2rgbAnswer, if_neg (by simp [hfin]), if_neg (by simp [hden])]
  simp only [bind_eq_ok_iff, fadd_ok_iff, fsub_ok_iff, fmul_ok_iff, exists_and_left, exists_eq_left, allFinite, yppSteps,
    List.all_cons, List.all_nil, Bool.and_eq_true, and_true, and_assoc]
  refine and_congr_right fun _ => and_congr_right fun hr => and_congr_right fun _ => and_congr_right fun _ =>
    and_congr_right fun _ => and_congr_right fun hg => and_congr_right fun _ => and_congr_right fun hb => ?_
  rw [sampleOf_eq_ok hr hden, sampleOf_eq_ok hg hden, sampleOf_eq_ok hb hden]
  simp only [Except.ok.injEq, exists_eq_left', eq_comm (a := res)]
  rfl

/-- After its operand checks YPP2RGB can stop in NON_FINITE alone. -/
theorem stopsIn_ypp2rgbAnswer {p : YppPixel} {den : Word} (hden : denOk den = true) :
    StopsIn [.fault .nonFinite] (ypp2rgbAnswer p den) := by
  have hnf : Stop.fault .nonFinite ∈ [Stop.fault .nonFinite] := List.mem_singleton_self _
  refine .ite (fun _ => ends_raise hnf) fun _ => .ite (fun hbad => by simp [hden] at hbad) fun _ => ?_
  iterate 8 refine .bind (stopsIn_chk hnf) fun _ => ?_
  iterate 3 refine .bind (stopsIn_sampleOf hnf ..) fun _ => ?_
  trivial

/-! ## Operands of magnitude at most 2^126 -/

/-- The word of 2^126. -/
def largeMax : Word := 0x7E800000

theorem within_large_iff {x : Word} :
    Within (negate largeMax) largeMax x ↔ isFinite x = true ∧ |toRat x| ≤ 2 ^ 126 := by
  rw [within_negate_iff, show toRat largeMax = 2 ^ 126 by decide +kernel]

theorem mulRaw_comm (x y : Word) : mulRaw x y = mulRaw y x := by
  rw [mulRaw, mulRaw, bne_comm, Nat.mul_comm]

/-- No sum of R114 reaches 2^128, because `⊗` and `⊕` are monotone. -/
theorem yppSteps_of_large {p : YppPixel} (hy : Within (negate largeMax) largeMax p.y)
    (hpb : Within (negate largeMax) largeMax p.pb) (hpr : Within (negate largeMax) largeMax p.pr) :
    allFinite (yppSteps p) = true := by
  have htr := hpr.mulRaw (k := krv) (by decide +kernel) (by decide +kernel) (by decide +kernel)
  have htu := hpb.mulRaw (k := kgu) (by decide +kernel) (by decide +kernel) (by decide +kernel)
  have htv := hpr.mulRaw (k := kgv) (by decide +kernel) (by decide +kernel) (by decide +kernel)
  have htb := hpb.mulRaw (k := kbu) (by decide +kernel) (by decide +kernel) (by decide +kernel)
  have hr := hy.addRaw htr (by decide +kernel) (by decide +kernel)
  have hgu := hy.addRaw htu.negate (by decide +kernel) (by decide +kernel)
  have hg := hgu.addRaw htv.negate (by decide +kernel) (by decide +kernel)
  have hb := hy.addRaw htb (by decide +kernel) (by decide +kernel)
  simp only [allFinite, yppSteps, redValue, greenValue, blueValue, subRaw, mulRaw_comm krv, mulRaw_comm kgu, mulRaw_comm kgv,
    mulRaw_comm kbu, List.all_cons, List.all_nil, htr.finite, htu.finite, htv.finite, htb.finite, hr.finite, hgu.finite,
    hg.finite, hb.finite, Bool.and_self]

end Sys2Proof.Machine

section
open Sys2Proof Sys2Proof.Machine Sys2Proof.Machine.Binary32

/-- Settles O41: the rule checks its operands and then each intermediate, and a clamped value times the denominator is in
range. -/
theorem yppToRgbResult : Obligations.YppToRgbResult := by
  intro p den hy hpb hpr
  have hfin : allFinite [p.y, p.pb, p.pr] = true := by simp [allFinite, hy, hpb, hpr]
  refine ⟨fun hden => ?_, fun hpos hmax => ⟨fun hsteps => ⟨?_, ?_⟩, fun hsteps => ?_, fun hy' hpb' hpr' => ?_⟩⟩
  · refine faultsWith_of_fault (i := .ypp2rgb p den) (c := .denominator) ?_
    rw [answerOf, ypp2rgbAnswer, if_neg (by simp [hfin]), if_pos (denOk_eq_false_iff.mpr hden)]
    rfl
  · exact answers_cons_of_ok (i := .ypp2rgb p den) (op := .ypp2rgb)
      ((ypp2rgbAnswer_eq_ok_iff hfin (denOk_iff.mpr ⟨hpos, hmax⟩)).mpr ⟨hsteps, rfl⟩) rfl (by decide)
  · obtain ⟨hr, hg, hb⟩ := isFinite_values hsteps
    have hvalues : ∀ x ∈ [redValue p, greenValue p, blueValue p], isFinite x = true := by simp [hr, hg, hb]
    exact fun x hx => sampleCode_range (hvalues x hx) (denOk_iff.mpr ⟨hpos, hmax⟩)
  · have hden := denOk_iff.mpr ⟨hpos, hmax⟩
    refine faultsWith_of_ends (i := .ypp2rgb p den) (c := .nonFinite) (stopsIn_ypp2rgbAnswer hden) fun res hres => ?_
    obtain ⟨hsteps', -⟩ := (ypp2rgbAnswer_eq_ok_iff hfin hden).mp hres
    exact Bool.false_ne_true (hsteps.symm.trans hsteps')
  · exact yppSteps_of_large (within_large_iff.mpr ⟨hy, hy'⟩) (within_large_iff.mpr ⟨hpb, hpb'⟩)
      (within_large_iff.mpr ⟨hpr, hpr'⟩)

end

/-! # The colour round trip (R118): the errors of the operators and the six-digit coefficients together move no sample by
half a code, so that YPP2RGB of RGB2YPP is the pixel -/

namespace Sys2Proof.Machine
open Binary32

/-! ## The coefficients of R111 -/

theorem toRat_lumaRow :
    toRat kyr = 10032775 / 2 ^ 25 ∧ toRat kyg = 4924113 / 2 ^ 23 ∧ toRat kyb = 15300821 / 2 ^ 27 := by
  decide +kernel

theorem toRat_pbRow : toRat kbr = -11323681 / 2 ^ 26 ∧ toRat kbg = -11115375 / 2 ^ 25 ∧ toRat kbb = 1 / 2 := by
  decide +kernel

theorem toRat_prRow : toRat krr = 1 / 2 ∧ toRat krg = -7024419 / 2 ^ 24 ∧ toRat krb = -1364189 / 2 ^ 24 := by
  decide +kernel

theorem toRat_inverse :
    toRat krv = 2940207 / 2 ^ 21 ∧ toRat kgu = 1443411 / 2 ^ 22 ∧ toRat kgv = 5990607 / 2 ^ 23 ∧
      toRat kbu = 14864613 / 2 ^ 23 := by
  decide +kernel

/-! ## Errors of the operators -/

/-- The error of a product of at most 1. -/
theorem mulRaw_error {k x : Word} (hfin : isFinite (mulRaw k x) = true) (h : |toRat k * toRat x| ≤ 1) :
    |toRat (mulRaw k x) - toRat k * toRat x| ≤ 2 / 2 ^ 24 :=
  ((mulRaw_roundsTo k x).abs_sub_le hfin h).trans_eq (by norm_num)

/-- The error of a sum, from those of its terms. -/
theorem addRaw_error {x y : Word} {p q a b c : ℚ} (hfin : isFinite (addRaw x y) = true) (hx : |toRat x - p| ≤ a / 2 ^ 24)
    (hy : |toRat y - q| ≤ b / 2 ^ 24) (h : |toRat x + toRat y| ≤ c) :
    |toRat (addRaw x y) - (p + q)| ≤ (a + b + c + 1) / 2 ^ 24 := by
  have hsum := (addRaw_roundsTo x y).abs_sub_le hfin h
  calc |toRat (addRaw x y) - (p + q)|
      = |(toRat (addRaw x y) - (toRat x + toRat y)) + ((toRat x - p) + (toRat y - q))| := by ring_nf
    _ ≤ |toRat (addRaw x y) - (toRat x + toRat y)| + (|toRat x - p| + |toRat y - q|) :=
        (abs_add_le _ _).trans (add_le_add_right (abs_add_le _ _) _)
    _ ≤ (c + 1) / 2 ^ 24 + (a / 2 ^ 24 + b / 2 ^ 24) := by gcongr
    _ = (a + b + c + 1) / 2 ^ 24 := by ring

section
variable {k1 k2 k3 lo hi x1 x2 x3 : Word} (hrow : RowBounds k1 k2 k3 lo hi)
  (h1 : InUnit x1) (h2 : InUnit x2) (h3 : InUnit x3)
include hrow h1 h2 h3

/-- The error of a row of the forward matrix, whose coefficients are at most 1. -/
theorem rowValue_error (hk : |toRat k1| ≤ 1 ∧ |toRat k2| ≤ 1 ∧ |toRat k3| ≤ 1) :
    |toRat (rowValue k1 x1 k2 x2 k3 x3) - (toRat k1 * toRat x1 + toRat k2 * toRat x2 + toRat k3 * toRat x3)| ≤
      15 / 2 ^ 24 := by
  obtain ⟨hf1, hf2, hf3⟩ := hrow.coefficients
  obtain ⟨hk1, hk2, hk3⟩ := hk
  obtain ⟨hfin12, hsum⟩ := rowValue_within hrow h1 h2 h3
  have hterm : ∀ {k x : Word}, |toRat k| ≤ 1 → InUnit x → |toRat k * toRat x| ≤ 1 := by
    intro k x hk hx
    rw [abs_mul, abs_of_nonneg hx.nonneg]
    exact mul_le_one₀ hk hx.nonneg hx.le_one
  have hp1 := hterm hk1 h1
  have hp2 := hterm hk2 h2
  have hp3 := hterm hk3 h3
  have he1 := mulRaw_error (mulRaw_within hf1 h1).finite hp1
  have he2 := mulRaw_error (mulRaw_within hf2 h2).finite hp2
  have he3 := mulRaw_error (mulRaw_within hf3 h3).finite hp3
  have he12 := addRaw_error (c := 3) hfin12 he1 he2 (by rw [abs_le] at *; constructor <;> linarith)
  refine (addRaw_error (c := 4) hsum.finite he12 he3 ?_).trans (by norm_num)
  rw [abs_le] at *
  constructor <;> linarith

end

/-- The values of the inverse matrix on a pixel in the ranges of R113. -/
structure NearInverse (p : YppPixel) : Prop where
  red : |toRat (redValue p) - (toRat p.y + toRat krv * toRat p.pr)| ≤ 6 / 2 ^ 24
  green : |toRat (greenValue p) - (toRat p.y - toRat kgu * toRat p.pb - toRat kgv * toRat p.pr)| ≤ 13 / 2 ^ 24
  blue : |toRat (blueValue p) - (toRat p.y + toRat kbu * toRat p.pb)| ≤ 6 / 2 ^ 24

/-- The error of `y ⊕ (k ⊗ x)` where `y` is at most 1 and the product too. -/
theorem addRaw_mulRaw_error {y k x : Word} (hy : |toRat y| ≤ 1) (hkx : |toRat k * toRat x| ≤ 1)
    (hprod : isFinite (mulRaw k x) = true) (hsum : isFinite (addRaw y (mulRaw k x)) = true) :
    |toRat (addRaw y (mulRaw k x)) - (toRat y + toRat k * toRat x)| ≤ 6 / 2 ^ 24 := by
  have herr := mulRaw_error hprod hkx
  refine (addRaw_error (p := toRat y) (a := 0) (c := 3) hsum (by simp) herr ?_).trans (by norm_num)
  rw [abs_le] at *
  constructor <;> linarith

/-- The error of a difference, from those of its terms. -/
theorem subRaw_error {x y : Word} {p q a b c : ℚ} (hfin : isFinite (subRaw x y) = true) (hx : |toRat x - p| ≤ a / 2 ^ 24)
    (hy : |toRat y - q| ≤ b / 2 ^ 24) (h : |toRat x - toRat y| ≤ c) :
    |toRat (subRaw x y) - (p - q)| ≤ (a + b + c + 1) / 2 ^ 24 := by
  rw [sub_eq_add_neg p q]
  refine addRaw_error hfin hx ?_ ?_
  · rwa [toRat_negate, ← abs_neg, neg_sub_neg, neg_sub]
  · rwa [toRat_negate, ← sub_eq_add_neg]

theorem nearInverse_of_range {p : YppPixel} (hsteps : allFinite (yppSteps p) = true) (hy : |toRat p.y| ≤ 1)
    (hpb : |toRat p.pb| ≤ 1 / 2) (hpr : |toRat p.pr| ≤ 1 / 2) : NearInverse p := by
  simp only [allFinite, yppSteps, List.all_cons, List.all_nil, Bool.and_eq_true, and_true] at hsteps
  obtain ⟨hftr, hfr, hftu, hfgu, hftv, hfg, hftb, hfb⟩ := hsteps
  obtain ⟨hkrv, hkgu, hkgv, hkbu⟩ := toRat_inverse
  have hterm : ∀ {k x : Word}, |toRat k| ≤ 2 → |toRat x| ≤ 1 / 2 → |toRat k * toRat x| ≤ 1 := by
    intro k x hk hx
    rw [abs_mul]
    nlinarith [abs_nonneg (toRat k), abs_nonneg (toRat x)]
  have hpv := hterm (k := kgv) (by rw [hkgv]; norm_num [abs_le]) hpr
  have hpu := hterm (k := kgu) (by rw [hkgu]; norm_num [abs_le]) hpb
  have hev := mulRaw_error hftv hpv
  have heu := mulRaw_error hftu hpu
  have hgu := subRaw_error (p := toRat p.y) (a := 0) (c := 3) hfgu (by simp) heu
    (by rw [abs_le] at *; constructor <;> linarith)
  refine ⟨addRaw_mulRaw_error hy (hterm (by rw [hkrv]; norm_num [abs_le]) hpr) hftr hfr, ?_,
    addRaw_mulRaw_error hy (hterm (by rw [hkbu]; norm_num [abs_le]) hpb) hftb hfb⟩
  refine (subRaw_error (c := 4) hfg hgu hev ?_).trans (by norm_num)
  rw [abs_le] at *
  constructor <;> linarith

/-! ## Samples -/

/-- A clamp to `[0, 1]` comes no farther from a value inside. -/
theorem abs_clamp_sub_le {x : Word} {v : ℚ} (hlow : 0 ≤ v) (hhigh : v ≤ 1) :
    |toRat (clamp x zero one) - v| ≤ |toRat x - v| := by
  have hlt : ∀ {u w : Word}, lt u w = true ↔ toRat u < toRat w := by
    intro u w
    rw [toRat_lt_toRat_iff, lt, decide_eq_true_iff]
  unfold clamp
  split_ifs with hbelow habove
  · rw [hlt, toRat_zero] at hbelow
    rw [toRat_zero, abs_of_nonpos (by linarith), abs_of_nonpos (by linarith)]
    linarith
  · rw [hlt, toRat_one] at habove
    rw [toRat_one, abs_of_nonneg (by linarith), abs_of_nonneg (by linarith)]
    linarith
  · exact le_rfl

/-- A value within `100 · 2^−24` of `n / den` is sampled as `n`. -/
theorem sampleCode_of_near {x den : Word} {n : Nat} (hx : isFinite x = true) (hden : denOk den = true) (hn : n ≤ den.toNat)
    (h : |toRat x - n / den.toNat| ≤ 100 / 2 ^ 24) : sampleCode x den = n := by
  obtain ⟨hpos, hmax⟩ := denOk_iff.mp hden
  have hd : (0 : ℚ) < den.toNat := by exact_mod_cast hpos
  have hd' : (den.toNat : ℚ) ≤ 65535 := by exact_mod_cast hmax
  have hratio : (n : ℚ) / den.toNat ≤ 1 := (div_le_one hd).mpr (by exact_mod_cast hn)
  have hclamp := (abs_clamp_sub_le (x := x) (by positivity) hratio).trans h
  obtain ⟨-, hval⟩ := toRat_cvt_den hden
  have hwithin := mulRaw_clamp_within hx hden
  obtain ⟨-, hlow, hhigh⟩ := within_zero_one_iff.mp
    (clamp_within (lo := zero) (hi := one) (x := x) rfl rfl hx (by rw [toRat_zero, toRat_one]; norm_num))
  have hprod := (mulRaw_roundsTo (clamp x zero one) (cvt den.toNat)).abs_sub_le hwithin.finite (b := 65535)
    (by rw [hval, abs_of_nonneg (by positivity)]; nlinarith)
  rw [hval] at hprod
  have hexact : |toRat (clamp x zero one) * den.toNat - n| ≤ 65535 * (100 / 2 ^ 24) := by
    have hscale : toRat (clamp x zero one) * den.toNat - n = (toRat (clamp x zero one) - n / den.toNat) * den.toNat := by
      field_simp
    rw [hscale, abs_mul, abs_of_pos hd, mul_comm]
    gcongr
  refine rha_of_abs_sub_lt ?_
  rw [Int.cast_natCast, abs_lt]
  rw [abs_le] at hprod hexact
  constructor <;> linarith

/-! ## The round trip -/

/-- The pixel that RGB2YPP answers (R112). -/
def yppOf (p : RgbPixel) (den : Word) : YppPixel :=
  ⟨rowValue kyr (normalized p.r den) kyg (normalized p.g den) kyb (normalized p.b den),
    rowValue kbr (normalized p.r den) kbg (normalized p.g den) kbb (normalized p.b den),
    rowValue krr (normalized p.r den) krg (normalized p.g den) krb (normalized p.b den)⟩

theorem normalized_error {n den : Word} (hden : denOk den = true) (hn : n.toNat ≤ den.toNat)
    (hunit : InUnit (normalized n den)) : |toRat (normalized n den) - n.toNat / den.toNat| ≤ 2 / 2 ^ 24 := by
  obtain ⟨hpos, hmax⟩ := denOk_iff.mp hden
  obtain ⟨-, hval⟩ := toRat_cvt_den hden
  have hn' : toRat (cvt n.toNat) = n.toNat := by
    rw [(cvt_exact (n := n.toNat) (by rw [Nat.abs_cast]; omega)).2, Int.cast_natCast]
  have hd : (0 : ℚ) < den.toNat := by exact_mod_cast hpos
  have hmag : magnitude (cvt den.toNat) ≠ 0 := mt toRat_eq_zero_iff.mpr (by rw [hval]; exact hd.ne')
  have herr := (divRaw_roundsTo (cvt n.toNat) hmag).abs_sub_le hunit.finite (b := 1)
    (by rw [hn', hval, abs_of_nonneg (by positivity), div_le_one hd]; exact_mod_cast hn)
  rw [hn', hval] at herr
  exact herr.trans_eq (by norm_num)

section
variable {p : RgbPixel} {den : Word} (h : LegalPixel p den)
include h

theorem LegalPixel.denOk : denOk den = true := denOk_iff.mpr ⟨h.den_pos, h.den_le⟩

/-- RGB2YPP's pixel is in the ranges of R113. -/
theorem LegalPixel.inRange_yppOf : PixelInRange (yppOf p den) := by
  obtain ⟨hr, hg, hb⟩ := h.inUnit
  exact ⟨(rowValue_within lumaRow_bounds hr hg hb).2, (rowValue_within pbRow_bounds hr hg hb).2,
    (rowValue_within prRow_bounds hr hg hb).2⟩

theorem LegalPixel.yppSteps_finite : allFinite (yppSteps (yppOf p den)) = true := by
  obtain ⟨hy, hpb, hpr⟩ := h.inRange_yppOf
  have hlarge : ∀ {lo hi x : Word}, Within lo hi x → toRat (negate largeMax) ≤ toRat lo → toRat hi ≤ toRat largeMax →
      Within (negate largeMax) largeMax x :=
    fun hx hlo hhi => ⟨hx.finite, hlo.trans hx.lower, hx.upper.trans hhi⟩
  exact yppSteps_of_large (hlarge hy (by decide +kernel) (by decide +kernel))
    (hlarge hpb (by decide +kernel) (by decide +kernel)) (hlarge hpr (by decide +kernel) (by decide +kernel))

/-- The inverse matrix undoes the forward one to `100 · 2^−24`: the coefficients to about 20 of these units, the operators to
the rest. -/
theorem LegalPixel.roundTrip_error :
    |toRat (redValue (yppOf p den)) - p.r.toNat / den.toNat| ≤ 100 / 2 ^ 24 ∧
    |toRat (greenValue (yppOf p den)) - p.g.toNat / den.toNat| ≤ 100 / 2 ^ 24 ∧
    |toRat (blueValue (yppOf p den)) - p.b.toNat / den.toNat| ≤ 100 / 2 ^ 24 := by
  obtain ⟨hr, hg, hb⟩ := h.inUnit
  obtain ⟨hyr, hyg, hyb⟩ := toRat_lumaRow
  obtain ⟨hbr, hbg, hbb⟩ := toRat_pbRow
  obtain ⟨hrr, hrg, hrb⟩ := toRat_prRow
  obtain ⟨hrv, hgu, hgv, hbu⟩ := toRat_inverse
  have hy := rowValue_error lumaRow_bounds hr hg hb (by rw [hyr, hyg, hyb]; norm_num [abs_le])
  have hpb := rowValue_error pbRow_bounds hr hg hb (by rw [hbr, hbg, hbb]; norm_num [abs_le])
  have hpr := rowValue_error prRow_bounds hr hg hb (by rw [hrr, hrg, hrb]; norm_num [abs_le])
  have her := normalized_error h.denOk h.r_le hr
  have heg := normalized_error h.denOk h.g_le hg
  have heb := normalized_error h.denOk h.b_le hb
  have hrange := h.inRange_yppOf
  obtain ⟨hred, hgreen, hblue⟩ := nearInverse_of_range h.yppSteps_finite
    (by obtain ⟨-, hlow, hhigh⟩ := within_zero_one_iff.mp hrange.luma; rw [abs_le]; constructor <;> linarith)
    (within_half_iff.mp hrange.pb).2 (within_half_iff.mp hrange.pr).2
  have hr0 := hr.nonneg
  have hg0 := hg.nonneg
  have hb0 := hb.nonneg
  have hr1 := hr.le_one
  have hg1 := hg.le_one
  have hb1 := hb.le_one
  rw [hyr, hyg, hyb] at hy
  rw [hbr, hbg, hbb] at hpb
  rw [hrr, hrg, hrb] at hpr
  rw [hrv] at hred
  rw [hgu, hgv] at hgreen
  rw [hbu] at hblue
  simp only [yppOf] at hred hgreen hblue ⊢
  rw [abs_le] at hy hpb hpr her heg heb hred hgreen hblue
  refine ⟨abs_le.mpr ⟨?_, ?_⟩, abs_le.mpr ⟨?_, ?_⟩, abs_le.mpr ⟨?_, ?_⟩⟩ <;> linarith

/-- YPP2RGB of RGB2YPP is the pixel. -/
theorem LegalPixel.ypp2rgbAnswer_yppOf : ypp2rgbAnswer (yppOf p den) den = .ok [p.r, p.g, p.b] := by
  have hsteps := h.yppSteps_finite
  obtain ⟨hr, hg, hb⟩ := h.roundTrip_error
  obtain ⟨hfr, hfg, hfb⟩ := isFinite_values hsteps
  obtain ⟨hy, hpb, hpr⟩ := h.inRange_yppOf
  have hword : ∀ w : Word, u32 (w.toNat : Int) = w := fun w => by
    rw [u32, BitVec.ofInt_natCast, BitVec.ofNat_toNat, BitVec.setWidth_eq]
  refine (ypp2rgbAnswer_eq_ok_iff (by simp [allFinite, hy.finite, hpb.finite, hpr.finite]) h.denOk).mpr ⟨hsteps, ?_⟩
  rw [sampleCode_of_near hfr h.denOk h.r_le hr, sampleCode_of_near hfg h.denOk h.g_le hg,
    sampleCode_of_near hfb h.denOk h.b_le hb, hword, hword, hword]

end

end Sys2Proof.Machine

section
open Sys2Proof Sys2Proof.Machine

/-- Settles O42: the two conversions give the pixel back exactly, which is more than R118 promises. -/
theorem colourRoundTrip : Obligations.ColourRoundTrip := by
  intro p den hpos hmax hr hg hb
  have hlegal : LegalPixel p den := ⟨hpos, hmax, hr, hg, hb⟩
  refine ⟨_, _, _, p.r, p.g, p.b,
    answers_cons_of_ok (i := .rgb2ypp p den) (op := .rgb2ypp) (rgb2yppAnswer_of_legal hlegal) rfl (by decide),
    answers_cons_of_ok (i := .ypp2rgb (yppOf p den) den) (op := .ypp2rgb) hlegal.ypp2rgbAnswer_yppOf rfl (by decide), ?_⟩
  simp

end
